-- ==== Sys2Proof/Word.lean ====
section
/-! DEFINITION. The word types of the CORE: command and data words, the operand field, symbols. -/

namespace Sys2Proof

/-- A 32-bit word: a command word (30_encoding.md R80), response data (R85), a weight or a count
(00_scope.md R11, R13), the registers `FINFO` and `WREG` (10_state.md R22). -/
abbrev Word := BitVec 32

/-- The 24-bit operand field `arg` of a command word (30_encoding.md R80). -/
abbrev Arg := BitVec 24

/-- A symbol. `SYM_W` is at most 24 (00_scope.md R11), so a symbol is held in the 24 bits of the operand
field with every bit at or above `SYM_W` clear. DESIGN CHOICE, safe (log 7). -/
abbrev Symbol := BitVec 24

/-- A string of bits in transmission order, first bit first (00_scope.md R14). -/
abbrev BitString := List Bool

/-- `0xFFFFFFFF`: the data of a response `NONE` (30_encoding.md R84) and the value of `NIL`
(00_scope.md R15, 20_memory.md R61). -/
def allOnes : Word := 0xFFFFFFFF#32

end Sys2Proof
end

