-- ==== Sys2Proof/Config.lean ====
section
/-! DEFINITION. What an implementation of the CORE fixes: its parameters and its identity. -/

namespace Sys2Proof

/-- The implementation parameters (00_scope.md R11). `W_W` is fixed at 32 and is the width of `Word`.
"A model takes them as arguments": they are data, carried unchanged in the state (log 1). -/
structure Params where
  /-- `SYM_W`, the width of a symbol in bits. -/
  symW : Nat
  /-- `MAX_SYMS`, written `S` in the rules: the capacity of FT, of both regions of NODE and of HEAP. -/
  maxSyms : Nat
  /-- `MAX_LEN`, written `L`: the capacity of TXT and of OUT. -/
  maxLen : Nat
  /-- `MAX_BITS`, written `B`: the capacity of BITS. -/
  maxBits : Nat
  deriving DecidableEq, Repr

/-- The defaults of 00_scope.md R11: "the values this hardware takes when nothing else is said". -/
def Params.default : Params := { symW := 21, maxSyms := 256, maxLen := 65535, maxBits := 1048576 }

/-- The constraints of 00_scope.md R11. No hardware has parameters outside them (log 13). -/
abbrev Params.Legal (p : Params) : Prop :=
  (1 ≤ p.symW ∧ p.symW ≤ 24) ∧ (1 ≤ p.maxSyms ∧ p.maxSyms ≤ 4096) ∧
    p.maxLen ≤ 2 ^ 24 - 1 ∧ p.maxBits ≤ 2 ^ 29

/-- The identifier of the command set, the value of the view `ID` (00_scope.md R2, 10_state.md R24). -/
def commandSetId : Word := 0x48430001#32

end Sys2Proof
end

