-- ==== Sys2Proof/Syntax.lean ====
section
/-! DEFINITION. The 29 commands of the CORE, one constructor per row of spec/opcode_table.json. -/

namespace Sys2Proof

/-- A command (30_encoding.md R83). Operands are the unsigned values of their bit fields, at the width of
the field (R81, R82). -/
inductive Instr where
  /-- `NOP`: do nothing (47_system.md R230). -/
  | nop
  /-- `CLR`: discard the session (47_system.md R231). -/
  | clr
  /-- `RDREG r`: read a scalar register or view (46_result_readout.md R212). -/
  | rdreg (r : BitVec 24)
  /-- `SYM s`: append a symbol to the text and count it (40_load_frequency.md R100). -/
  | sym (x : Symbol)
  /-- `SETW imm`: set the weight operand (40_load_frequency.md R102). -/
  | setw (imm : BitVec 24)
  /-- `MKLEAF s`: allocate a leaf (40_load_frequency.md R104). -/
  | mkleaf (x : Symbol)
  /-- `PQINS n`: insert a node into the queue (41_priority_queue.md R110). -/
  | pqins (n : BitVec 24)
  /-- `PQEXT`: extract the minimum (41_priority_queue.md R112). -/
  | pqext
  /-- `PQSIZE`: number of queued nodes (41_priority_queue.md R116). -/
  | pqsize
  /-- `BUILD`: build the tree from the frequency table (42_tree_builder.md R130). -/
  | build
  /-- `MERGE`: one merging step (42_tree_builder.md R134). -/
  | merge
  /-- `FINISH`: take the last node as root (42_tree_builder.md R137). -/
  | finish
  /-- `GEN`: generate the code table (43_code_table.md R150). -/
  | gen
  /-- `LOOKUP s`: leaf index of a symbol that has a code (43_code_table.md R153). -/
  | lookup (x : Symbol)
  /-- `RDCLEN i`: length of the code of leaf `i` (43_code_table.md R155). -/
  | rdclen (i : BitVec 24)
  /-- `RDCODE i, w`: window `w` of the code of leaf `i` (43_code_table.md R157). -/
  | rdcode (i w : BitVec 12)
  /-- `ENC`: encode the whole text (44_encoder.md R175). -/
  | enc
  /-- `ENCS s`: append the code of one symbol (44_encoder.md R173). -/
  | encs (x : Symbol)
  /-- `ENCINIT`: empty the bitstream (44_encoder.md R170). -/
  | encinit
  /-- `RDBITS w`: window `w` of the bitstream (44_encoder.md R177). -/
  | rdbits (w : BitVec 24)
  /-- `DEC`: decode the whole bitstream (45_decoder.md R195). -/
  | dec
  /-- `DECINIT`: restart the decoder (45_decoder.md R190). -/
  | decinit
  /-- `DECB b`: feed one bit to the decoder (45_decoder.md R193). -/
  | decb (b : Bool)
  /-- `RDOUT i`: decoded symbol `i` (45_decoder.md R199). -/
  | rdout (i : BitVec 24)
  /-- `RDTXT i`: text symbol `i` (46_result_readout.md R214). -/
  | rdtxt (i : BitVec 24)
  /-- `RDFSYM i`: symbol of frequency entry `i` (46_result_readout.md R215). -/
  | rdfsym (i : BitVec 24)
  /-- `RDFCNT i`: count of frequency entry `i` (46_result_readout.md R216). -/
  | rdfcnt (i : BitVec 24)
  /-- `RDNODE n, f`: field `f` of node `n` (46_result_readout.md R217). -/
  | rdnode (n : BitVec 16) (f : BitVec 3)
  /-- `RDHEAP i`: heap slot `i` (46_result_readout.md R218). -/
  | rdheap (i : BitVec 24)
  deriving DecidableEq, Repr

end Sys2Proof
end

