-- ==== Sys2Proof/WellFormed.lean ====
section
/-! DEFINITION. Which commands a machine with a given symbol width has. -/

namespace Sys2Proof

/-- "A symbol operand is exactly `SYM_W` bits" (30_encoding.md R82). -/
abbrev Symbol.Fits (symW : Nat) (x : Symbol) : Prop := x.toNat < 2 ^ symW

/-- A command is well formed for symbol width `symW` when its symbol operand, if it has one, fits
(30_encoding.md R81, R82). Every other operand is any value of its field: "an operand that is legal as an
encoding but names nothing is not an illegal encoding" (R86), so there is no other check. -/
def Instr.WellFormed (symW : Nat) : Instr → Bool
  | .sym x => decide (Symbol.Fits symW x)
  | .mkleaf x => decide (Symbol.Fits symW x)
  | .lookup x => decide (Symbol.Fits symW x)
  | .encs x => decide (Symbol.Fits symW x)
  | .nop => true
  | .clr => true
  | .rdreg _ => true
  | .setw _ => true
  | .pqins _ => true
  | .pqext => true
  | .pqsize => true
  | .build => true
  | .merge => true
  | .finish => true
  | .gen => true
  | .rdclen _ => true
  | .rdcode _ _ => true
  | .enc => true
  | .encinit => true
  | .rdbits _ => true
  | .dec => true
  | .decinit => true
  | .decb _ => true
  | .rdout _ => true
  | .rdtxt _ => true
  | .rdfsym _ => true
  | .rdfcnt _ => true
  | .rdnode _ _ => true
  | .rdheap _ => true

end Sys2Proof
end

