-- ==== Sys2Proof/Decode.lean ====
section
/-! DEFINITION. The decoder of command words, total on all `2^32` of them, and the encoder. -/

namespace Sys2Proof

/-- Bits 31:24 of a command word (30_encoding.md R80). -/
def opcodeOf (w : Word) : BitVec 8 := w.extractLsb' 24 8

/-- Bits 23:0 of a command word (30_encoding.md R80). -/
def argOf (w : Word) : Arg := w.extractLsb' 0 24

/-- The word with a given opcode and operand field: `opcode << 24 | arg` (30_encoding.md R91). -/
def mkWord (op : BitVec 8) (arg : Arg) : Word := op ++ arg

/-- Why a word is illegal (30_encoding.md R86). Both reasons raise the same fault, `F_ILLCMD` (R87). -/
inductive Illegal where
  /-- The opcode is none of the 29 of R83. -/
  | unassignedOpcode (op : BitVec 8)
  /-- A must-be-zero bit of the command's format is set (R81). -/
  | mustBeZero (arg : Arg)
  deriving DecidableEq, Repr

/-- Format `Z`: `arg[23:0]` must be zero (30_encoding.md R81). -/
def formatZ (i : Instr) (arg : Arg) : Except Illegal Instr :=
  if arg = 0 then .ok i else .error (.mustBeZero arg)

/-- Format `S`: `arg[23:SYM_W]` must be zero, `arg[SYM_W-1:0]` is the symbol (30_encoding.md R81). -/
def formatS (symW : Nat) (f : Symbol → Instr) (arg : Arg) : Except Illegal Instr :=
  if arg.toNat < 2 ^ symW then .ok (f arg) else .error (.mustBeZero arg)

/-- Format `I`: the whole field is one unsigned number (30_encoding.md R81). -/
def formatI (f : BitVec 24 → Instr) (arg : Arg) : Except Illegal Instr := .ok (f arg)

/-- Format `B`: `arg[23:1]` must be zero, `arg[0]` is the bit (30_encoding.md R81). -/
def formatB (f : Bool → Instr) (arg : Arg) : Except Illegal Instr :=
  if arg.extractLsb' 1 23 = 0 then .ok (f (arg.getLsbD 0)) else .error (.mustBeZero arg)

/-- Format `CW`: `arg[23:12]` is the window number, `arg[11:0]` the leaf index (30_encoding.md R81). -/
def formatCW (f : BitVec 12 → BitVec 12 → Instr) (arg : Arg) : Except Illegal Instr :=
  .ok (f (arg.extractLsb' 0 12) (arg.extractLsb' 12 12))

/-- Format `NF`: `arg[23:19]` must be zero, `arg[18:16]` is the field selector, `arg[15:0]` the node index
(30_encoding.md R81). -/
def formatNF (f : BitVec 16 → BitVec 3 → Instr) (arg : Arg) : Except Illegal Instr :=
  if arg.extractLsb' 19 5 = 0 then .ok (f (arg.extractLsb' 0 16) (arg.extractLsb' 16 3))
  else .error (.mustBeZero arg)

/-- The command of a word, or why the word is illegal: the opcode map of 30_encoding.md R83 with the formats
of R81. "Legality depends on the word and on `SYM_W` only, never on the state" (R86). -/
def decode (symW : Nat) (w : Word) : Except Illegal Instr :=
  match (opcodeOf w).toNat with
  | 0x00 => formatZ .nop (argOf w)
  | 0x01 => formatZ .clr (argOf w)
  | 0x02 => formatI .rdreg (argOf w)
  | 0x10 => formatS symW .sym (argOf w)
  | 0x11 => formatI .setw (argOf w)
  | 0x12 => formatS symW .mkleaf (argOf w)
  | 0x20 => formatI .pqins (argOf w)
  | 0x21 => formatZ .pqext (argOf w)
  | 0x22 => formatZ .pqsize (argOf w)
  | 0x30 => formatZ .build (argOf w)
  | 0x31 => formatZ .merge (argOf w)
  | 0x32 => formatZ .finish (argOf w)
  | 0x40 => formatZ .gen (argOf w)
  | 0x41 => formatS symW .lookup (argOf w)
  | 0x42 => formatI .rdclen (argOf w)
  | 0x43 => formatCW .rdcode (argOf w)
  | 0x50 => formatZ .enc (argOf w)
  | 0x51 => formatS symW .encs (argOf w)
  | 0x52 => formatZ .encinit (argOf w)
  | 0x53 => formatI .rdbits (argOf w)
  | 0x60 => formatZ .dec (argOf w)
  | 0x61 => formatZ .decinit (argOf w)
  | 0x62 => formatB .decb (argOf w)
  | 0x63 => formatI .rdout (argOf w)
  | 0x70 => formatI .rdtxt (argOf w)
  | 0x71 => formatI .rdfsym (argOf w)
  | 0x72 => formatI .rdfcnt (argOf w)
  | 0x73 => formatNF .rdnode (argOf w)
  | 0x74 => formatI .rdheap (argOf w)
  | _ => .error (.unassignedOpcode (opcodeOf w))

/-- The opcode of a command (30_encoding.md R83). -/
def Instr.opcode : Instr → BitVec 8
  | .nop => 0x00#8
  | .clr => 0x01#8
  | .rdreg _ => 0x02#8
  | .sym _ => 0x10#8
  | .setw _ => 0x11#8
  | .mkleaf _ => 0x12#8
  | .pqins _ => 0x20#8
  | .pqext => 0x21#8
  | .pqsize => 0x22#8
  | .build => 0x30#8
  | .merge => 0x31#8
  | .finish => 0x32#8
  | .gen => 0x40#8
  | .lookup _ => 0x41#8
  | .rdclen _ => 0x42#8
  | .rdcode _ _ => 0x43#8
  | .enc => 0x50#8
  | .encs _ => 0x51#8
  | .encinit => 0x52#8
  | .rdbits _ => 0x53#8
  | .dec => 0x60#8
  | .decinit => 0x61#8
  | .decb _ => 0x62#8
  | .rdout _ => 0x63#8
  | .rdtxt _ => 0x70#8
  | .rdfsym _ => 0x71#8
  | .rdfcnt _ => 0x72#8
  | .rdnode _ _ => 0x73#8
  | .rdheap _ => 0x74#8

/-- The operand field of a command, laid out by its format (30_encoding.md R81). -/
def Instr.arg : Instr → Arg
  | .sym x => x
  | .mkleaf x => x
  | .lookup x => x
  | .encs x => x
  | .rdreg r => r
  | .setw imm => imm
  | .pqins n => n
  | .rdclen i => i
  | .rdbits w => w
  | .rdout i => i
  | .rdtxt i => i
  | .rdfsym i => i
  | .rdfcnt i => i
  | .rdheap i => i
  | .rdcode i w => w ++ i
  | .rdnode n f => 0#5 ++ f ++ n
  | .decb b => 0#23 ++ BitVec.ofBool b
  | .nop => 0
  | .clr => 0
  | .pqext => 0
  | .pqsize => 0
  | .build => 0
  | .merge => 0
  | .finish => 0
  | .gen => 0
  | .enc => 0
  | .encinit => 0
  | .dec => 0
  | .decinit => 0

/-- The word of a command: "`opcode << 24 | arg`" (30_encoding.md R91). -/
def encode (i : Instr) : Word := mkWord i.opcode i.arg

/-- The instruction the decoder of the default hardware (`SYM_W = 21`, the width of spec/opcode_table.json)
reads from the word `w`; a command is one 32-bit word (30_encoding.md R80), so no instruction has more bits
than `nbits`, and a longer or shorter row is none of this hardware's. -/
def decodeTableWord (nbits w : Nat) : Option Instr :=
  if nbits = 32 ∧ w < 2 ^ 32 then
    match decode Params.default.symW (BitVec.ofNat 32 w) with
    | .ok i => some i
    | .error _ => none
  else none

end Sys2Proof
end

