-- ==== Sys2Proof/Machine/State.lean ====
section
/-! DEFINITION. The architectural state of the CORE as plain data, its reset value, and how a step stops. -/

namespace Sys2Proof.Machine

/-- The value of register `PHASE`: 0 `LOAD`, 1 `TREE`, 2 `CODE`; "3 never occurs" (10_state.md R22, R23). -/
inductive Phase where
  | load
  | tree
  | code
  deriving DecidableEq, Repr

/-- The nine fault codes (60_exceptions.md R241). A fault of the CORE is a next state of the model. -/
inductive FaultCode where
  /-- 1 `F_ILLCMD` (R242). -/
  | illcmd
  /-- 2 `F_SEQ` (R244). -/
  | seq
  /-- 3 `F_CAP` (R243). -/
  | cap
  /-- 4 `F_NODE` (R254). -/
  | node
  /-- 5 `F_DUP` (R255). -/
  | dup
  /-- 6 `F_PQ` (R256). -/
  | pq
  /-- 7 `F_NOSYM` (R257). -/
  | nosym
  /-- 8 `F_NOCHILD` (R258). -/
  | nochild
  /-- 9 `F_WOVF` (R259). -/
  | wovf
  deriving DecidableEq, Repr

/-- The response statuses (30_encoding.md R84). -/
inductive Status where
  /-- 0 `OK`: the command executed. -/
  | ok
  /-- 1 `NONE`: the command executed and its result is "nothing". -/
  | none
  /-- 2 `FAULT`: this command raised a fault. -/
  | fault
  /-- 3 `REFUSED`: the CORE was already faulted. -/
  | refused
  deriving DecidableEq, Repr

/-- "Every command taken is answered by exactly one response `(status, data)`" (30_encoding.md R84, R85). -/
structure Response where
  status : Status
  data : Word
  deriving DecidableEq, Repr

/-- What the host can do to the CORE: present a command word (00_scope.md R10), or reset it between two
commands (70_reset_and_hazards.md R271). -/
inductive HostAction where
  | command (w : Word)
  | reset
  deriving DecidableEq, Repr

/-- An element of `FT`: `(sym, count)` (10_state.md R27). -/
structure FreqEntry where
  sym : Symbol
  count : Word
  deriving DecidableEq, Repr

/-- An element of the leaf region of `NODE`: `(sym, weight)` (10_state.md R28). -/
structure LeafNode where
  sym : Symbol
  weight : Word
  deriving DecidableEq, Repr

/-- An element of the internal region of `NODE`: `(weight, left, right)`. "`left` is never `NIL`; `right` is
`NIL` only in a wrapper" (10_state.md R28); `NIL` is `none`. -/
structure InnerNode where
  weight : Word
  left : Nat
  right : Option Nat
  deriving DecidableEq, Repr

/-- The state: 13 scalar registers and 7 memories (10_state.md R20), the parameters (log 1), and the two
ports (logs 2, 3). A memory is the list of its valid elements, and its count register is the list's length
(R26 to R32; 93_implementation_defined.md V6; log 5). -/
structure State where
  /-- The parameters of this hardware; no step writes them (00_scope.md R11, R19). -/
  params : Params
  /-- Register 1 `PHASE`. -/
  phase : Phase
  /-- Register 2 `FAULT`: none is 0 (10_state.md R22). -/
  fault : Option FaultCode
  /-- Register 3 `FINFO`. -/
  finfo : Word
  /-- Register 9 `ROOT`: a node index, or none for `NIL`. -/
  root : Option Nat
  /-- Register 10 `CUR`: a node index, or none for `NIL`. -/
  cur : Option Nat
  /-- Register 13 `WREG`. -/
  wreg : Word
  /-- `TXT[0..TLEN-1]`; its length is register 4 `TLEN` (10_state.md R26). -/
  txt : List Symbol
  /-- `FT[0..NSYM-1]`; its length is register 5 `NSYM` (10_state.md R27). -/
  ft : List FreqEntry
  /-- `NODE[0..NLEAF-1]`; its length is register 6 `NLEAF` (10_state.md R28). -/
  leaves : List LeafNode
  /-- `NODE[S..S+NINT-1]`; its length is register 7 `NINT` (10_state.md R28). -/
  inners : List InnerNode
  /-- `HEAP[0..HSIZE-1]`, node indices; its length is register 8 `HSIZE` (10_state.md R29). -/
  heap : List Nat
  /-- `CODE[0..S-1]`; the `len` of an element is the length of its bit string (10_state.md R30). -/
  code : List BitString
  /-- `BITS[0..BLEN-1]`; its length is register 11 `BLEN` (10_state.md R31). -/
  bits : BitString
  /-- `OUT[0..OLEN-1]`; its length is register 12 `OLEN` (10_state.md R32). -/
  out : List Symbol
  /-- The command port: the host's actions not yet taken, the next one first. DESIGN CHOICE, safe (log 2). -/
  input : List HostAction
  /-- The response port: the responses given, the last one first. DESIGN CHOICE, safe (log 3). -/
  responses : List Response
  deriving DecidableEq, Repr

/-- The state right after reset of hardware with parameters `p` (10_state.md R47, 70_reset_and_hazards.md R270):
every register 0 except `ROOT = CUR = NIL`, every `CODE[i].len = 0`, no other element valid. -/
def State.resetOf (p : Params) : State where
  params := p
  phase := .load
  fault := none
  finfo := 0#32
  root := none
  cur := none
  wreg := 0#32
  txt := []
  ft := []
  leaves := []
  inners := []
  heap := []
  code := List.replicate p.maxSyms []
  bits := []
  out := []
  input := []
  responses := []

/-- The state right after reset of the default hardware (00_scope.md R11, 10_state.md R47). -/
def State.reset : State := State.resetOf Params.default

/-- Why the model stops. No reset state leads to any of these (20_memory.md R65): they are the model's way of
saying nothing where a rule would leave the domain the spec gives it. -/
inductive Fault where
  /-- Raised by the queue, builder, code table and decoder operations when a rule would read the record of a
  node that has none; "a read of an element at or above the memory's valid count never occurs in a rule"
  (00_scope.md R15). Safe: the machine stops where the spec gives no value (log 9). -/
  | strayNode
  /-- Raised by `GEN` when the walk is deeper than the number of internal nodes, so that what hangs below
  `ROOT` is not a tree (10_state.md R41). Safe: as above (log 10). -/
  | treeTooDeep
  deriving DecidableEq, Repr

/-- Why the model has no meaning for an instruction. -/
inductive Refusal where
  /-- Raised by an arm of `exec` whose instruction has no meaning yet; no arm uses it. Safe: nothing is said. -/
  | notModelled (mnemonic : String)
  deriving DecidableEq, Repr

end Sys2Proof.Machine
end

