-- ==== Sys2Proof/Machine/Operands.lean ====
section
/-! DEFINITION. Operand and response forms: the 32-bit views of registers, symbols, node indices and bit
strings. -/

namespace Sys2Proof.Machine

/-- The 2-bit code of `PHASE` (10_state.md R22). -/
def Phase.toNat : Phase → Nat
  | .load => 0
  | .tree => 1
  | .code => 2

/-- The numbers of the fault codes (60_exceptions.md R241). -/
def FaultCode.toNat : FaultCode → Nat
  | .illcmd => 1
  | .seq => 2
  | .cap => 3
  | .node => 4
  | .dup => 5
  | .pq => 6
  | .nosym => 7
  | .nochild => 8
  | .wovf => 9

/-- The 2-bit numbers of the response statuses (30_encoding.md R84). -/
def Status.toBits : Status → BitVec 2
  | .ok => 0#2
  | .none => 1#2
  | .fault => 2#2
  | .refused => 3#2

/-- A number as 32-bit data. Every number the rules answer is below `2^32` (47_system.md R232; log 12). -/
def natData (n : Nat) : Word := BitVec.ofNat 32 n

/-- A symbol as 32-bit data: "zero-extended from `SYM_W` bits" (30_encoding.md R85). -/
def symData (x : Symbol) : Word := x.setWidth 32

/-- A 24-bit operand written to a 32-bit register: `zext_32(imm)` (30_encoding.md R82). -/
def zext (imm : BitVec 24) : Word := imm.setWidth 32

/-- A node index or `NIL` as 32-bit data (30_encoding.md R85). -/
def nodeData : Option Nat → Word
  | some n => natData n
  | none => allOnes

/-- The value of register `FAULT` as 32-bit data. -/
def faultData : Option FaultCode → Word
  | some f => natData f.toNat
  | none => 0#32

/-- Register `TLEN` (10_state.md R22, R26). -/
def State.tlen (s : State) : Nat := s.txt.length

/-- Register `NSYM` (10_state.md R22, R27). -/
def State.nsym (s : State) : Nat := s.ft.length

/-- Register `NLEAF` (10_state.md R22, R28). -/
def State.nleaf (s : State) : Nat := s.leaves.length

/-- Register `NINT` (10_state.md R22, R28). -/
def State.nint (s : State) : Nat := s.inners.length

/-- Register `HSIZE` (10_state.md R22, R29). -/
def State.hsize (s : State) : Nat := s.heap.length

/-- Register `BLEN` (10_state.md R22, R31). -/
def State.blen (s : State) : Nat := s.bits.length

/-- Register `OLEN` (10_state.md R22, R32). -/
def State.olen (s : State) : Nat := s.out.length

/-- The number whose binary digits are the given bits, the first one least significant. -/
def bitsToNat : BitString → Nat
  | [] => 0
  | b :: bs => b.toNat + 2 * bitsToNat bs

/-- Window `w` of a bit string: bit `b` of the data is string bit `32w + b`, and "positions at or beyond the
end of the string read as 0" (20_memory.md R63). -/
def window (bs : BitString) (w : Nat) : Word := natData (bitsToNat ((bs.drop (32 * w)).take 32))

end Sys2Proof.Machine
end

