-- ==== Sys2Proof/Machine/Flags.lean ====
section
/-! DEFINITION. The flag word `STATUS` and the other read-only views. They are functions of the state, not state
(10_state.md R24, R25). -/

namespace Sys2Proof.Machine

/-- `FAULTED`, bit 0: `FAULT ≠ 0` (10_state.md R25). -/
def State.faulted (s : State) : Bool := s.fault.isSome

/-- `QEMPTY`, bit 3: `HSIZE = 0` (10_state.md R25). -/
def State.qempty (s : State) : Bool := s.hsize == 0

/-- `HASROOT`, bit 4: `ROOT ≠ NIL` (10_state.md R25). -/
def State.hasRoot (s : State) : Bool := s.root.isSome

/-- `DMID`, bit 5: `CUR ≠ ROOT` (10_state.md R25). -/
def State.dmid (s : State) : Bool := s.cur != s.root

/-- `MATCH`, bit 6: `OLEN = TLEN` and `OUT[i] = TXT[i]` for every `i < TLEN` (10_state.md R25). -/
def State.matchFlag (s : State) : Bool := s.out == s.txt

/-- The flag word, register 0: bit 0 `FAULTED`, bits 2:1 `PHASE`, bit 3 `QEMPTY`, bit 4 `HASROOT`, bit 5 `DMID`,
bit 6 `MATCH`, bits 31:7 zero (10_state.md R25). -/
def State.status (s : State) : Word :=
  natData (s.faulted.toNat + 2 * s.phase.toNat + 8 * s.qempty.toNat + 16 * s.hasRoot.toNat +
    32 * s.dmid.toNat + 64 * s.matchFlag.toNat)

/-- `ORIG_BITS = (TLEN × 8) mod 2^32` (10_state.md R24, 46_result_readout.md R220). -/
def State.origBits (s : State) : Word := natData (s.tlen * 8)

/-- `COMP_BITS = BLEN` (10_state.md R24, 46_result_readout.md R220). -/
def State.compBits (s : State) : Word := natData s.blen

/-- The output `fault_o`: "the level `FAULT ≠ 0`" (60_exceptions.md R252). -/
def State.faultOut (s : State) : Bool := s.faulted

end Sys2Proof.Machine
end

