-- ==== Sys2Proof/Machine/Ops.lean ====
section
/-! DEFINITION. The named operations the rules share: node helpers, checks, responses, taking a fault and
returning from it, and the ports. -/

namespace Sys2Proof.Machine

/-! ### Node helpers (10_state.md R33 to R37) -/

/-- `is_leaf(n)` is `n < S` (10_state.md R33). -/
def State.isLeaf (s : State) (n : Nat) : Bool := decide (n < s.params.maxSyms)

/-- `allocated(n)`: `n < NLEAF`, or `S ≤ n < S + NINT` (10_state.md R33). -/
def State.allocated (s : State) (n : Nat) : Bool :=
  decide (n < s.nleaf ∨ (s.params.maxSyms ≤ n ∧ n < s.params.maxSyms + s.nint))

/-- The record of leaf `n` (10_state.md R28, R34). -/
def State.leafAt (s : State) (n : Nat) : Option LeafNode := if s.isLeaf n then s.leaves[n]? else none

/-- The record of internal node `n` (10_state.md R28, R34). -/
def State.innerAt (s : State) (n : Nat) : Option InnerNode :=
  if s.isLeaf n then none else s.inners[n - s.params.maxSyms]?

/-- `weight(n)`, where node `n` has a record (10_state.md R34). -/
def State.weightAt (s : State) (n : Nat) : Option Word :=
  if s.isLeaf n then (s.leafAt n).map (·.weight) else (s.innerAt n).map (·.weight)

/-- Node `n` has a record that a rule can read; for `NLEAF ≤ S` this is `allocated(n)` (10_state.md R28). -/
def State.hasRecord (s : State) (n : Nat) : Bool := (s.weightAt n).isSome

/-- `weight(n)` of a node that has a record, as the number the queue compares (10_state.md R37). The operations
that use it first check that every node they weigh has a record (`readable`). -/
def State.weigh (s : State) (n : Nat) : Nat := ((s.weightAt n).getD 0#32).toNat

/-- `in_queue(n)`: `HEAP[i] = n` for some `i < HSIZE` (10_state.md R35). -/
def State.inQueue (s : State) (n : Nat) : Bool := s.heap.contains n

/-- The children a record names: `left`, and `right` where it is not `NIL` (10_state.md R28). -/
def InnerNode.children (r : InnerNode) : List Nat := r.left :: r.right.toList

/-- `has_parent(n)`: some allocated internal node has `n` as left or right child (10_state.md R35). -/
def State.hasParent (s : State) (n : Nat) : Bool := s.inners.any fun r => r.children.contains n

/-- `find_leaf(s)`: the least `i < NLEAF` with `NODE[i].sym = s`, or none (10_state.md R36). -/
def State.findLeaf (s : State) (x : Symbol) : Option Nat := s.leaves.findIdx? fun r => r.sym == x

/-- The bits of `CODE[i]`; empty means "leaf `i` has no code" (10_state.md R30). -/
def State.codeAt (s : State) (i : Nat) : BitString := (s.code[i]?).getD []

/-! ### How the body of a rule ends -/

/-- How a rule ends when it does not respond: it raises a fault of the CORE (00_scope.md R15), or the model has no
state to go to (logs 9, 10). -/
inductive Stop where
  | raise (f : FaultCode)
  | stuck (r : Fault)
  deriving DecidableEq, Repr

/-- `require c else F` (00_scope.md R15). -/
def require (c : Bool) (f : FaultCode) : Except Stop Unit :=
  if c then .ok () else .error (.raise f)

/-- Every node in the list has a record a rule can read, else the model stops (log 9). -/
def State.readable (s : State) (ns : List Nat) : Except Stop Unit :=
  if ns.all s.hasRecord then .ok () else .error (.stuck .strayNode)

/-- The value an operation needs, else the model stops (log 9). -/
def present {α : Type} : Option α → Except Stop α
  | some a => .ok a
  | none => .error (.stuck .strayNode)

/-! ### Responses, faults, and the return from a fault -/

/-- `respond (st, d)`: the command is answered on the response port (00_scope.md R15, 30_encoding.md R84). -/
def State.respond (s : State) (r : Response) : State := { s with responses := r :: s.responses }

/-- The response `(OK, d)`. -/
def okData (d : Word) : Response := { status := .ok, data := d }

/-- The response `(NONE, 0xFFFFFFFF)` (30_encoding.md R84). -/
def noneData : Response := { status := .none, data := allOnes }

/-- The response `(OK, d)` where there is a `d`, else `(NONE, 0xFFFFFFFF)`. -/
def okOrNone : Option Word → Response
  | some d => okData d
  | none => noneData

/-- Fault entry (60_exceptions.md R246): `FAULT <- F`, `FINFO <- cmd`, respond `(FAULT, F)`; "every register and
every memory" keeps "its value before the command". This is the one operation that takes a fault. -/
def State.raiseFault (s : State) (cmd : Word) (f : FaultCode) : State :=
  { s with fault := some f, finfo := cmd }.respond { status := .fault, data := natData f.toNat }

/-- `(REFUSED, FAULT)`: "nothing changed" (30_encoding.md R84, 60_exceptions.md R248). -/
def State.refuse (s : State) : State := s.respond { status := .refused, data := faultData s.fault }

/-- The effect of `CLR` and of reset on the registers and memories (47_system.md R231, 10_state.md R47), the only
return from a fault (60_exceptions.md R250). "Nothing survives a `CLR` except the parameters" (00_scope.md R19)
and what the ports hold. -/
def State.clear (s : State) : State :=
  { State.resetOf s.params with input := s.input, responses := s.responses }

/-- Read-class commands: they change no state and execute when faulted (00_scope.md R18, 30_encoding.md R83). -/
def readClass : Instr → Bool
  | .rdreg _ => true
  | .pqsize => true
  | .lookup _ => true
  | .rdclen _ => true
  | .rdcode _ _ => true
  | .rdbits _ => true
  | .rdout _ => true
  | .rdtxt _ => true
  | .rdfsym _ => true
  | .rdfcnt _ => true
  | .rdnode _ _ => true
  | .rdheap _ => true
  | .nop => false
  | .clr => false
  | .sym _ => false
  | .setw _ => false
  | .mkleaf _ => false
  | .pqins _ => false
  | .pqext => false
  | .build => false
  | .merge => false
  | .finish => false
  | .gen => false
  | .enc => false
  | .encs _ => false
  | .encinit => false
  | .dec => false
  | .decinit => false
  | .decb _ => false

/-- "While `FAULT ≠ 0`: a legal read-class command, `NOP` and `CLR` execute normally" (60_exceptions.md R248). -/
def runsWhenFaulted (i : Instr) : Bool := readClass i || i == .nop || i == .clr

/-- The body of a command's rule: it responds in a new state, raises a fault, or has no state to go to. -/
abbrev Body := Except Stop (State × Response)

/-- Run a legal command whose rule has the given body on the state (30_encoding.md R88): refused when faulted,
else the rule's response in the rule's state, else fault entry in the state before the command (60_exceptions.md
R246, R247), `FINFO` taking the command's own word (log 8). -/
def State.runCommand (s : State) (i : Instr) (body : Body) : Host.Outcome State Fault Refusal :=
  if s.faulted && !runsWhenFaulted i then .next s.refuse
  else
    match body with
    | .ok (t, r) => .next (t.respond r)
    | .error (.raise f) => .next (s.raiseFault (encode i) f)
    | .error (.stuck r) => .fault r

/-- Take an illegal word (30_encoding.md R87): `F_ILLCMD`, or `REFUSED` when faulted. -/
def State.takeIllegal (s : State) (w : Word) : State :=
  if s.faulted then s.refuse else s.raiseFault w .illcmd

/-! ### The ports (00_scope.md R10) -/

/-- The host's next action and the state with it taken, or none when the host is silent. -/
def State.takeAction (s : State) : Option (HostAction × State) :=
  match s.input with
  | [] => none
  | a :: rest => some (a, { s with input := rest })

/-- `cmd_ready`: between two commands the CORE can take a command word (00_scope.md R10, 70_reset_and_hazards.md
R274); it is low only while a command executes, which is inside a step (log 11). -/
def State.cmdReady (_ : State) : Bool := true

/-- `cmd_valid`: the host presents a command word (00_scope.md R10). -/
def State.cmdValid (s : State) : Bool :=
  match s.input with
  | .command _ :: _ => true
  | _ => false

/-- `cmd_word`, where `cmd_valid` is 1 (00_scope.md R10). -/
def State.cmdWord (s : State) : Option Word :=
  match s.input with
  | .command w :: _ => some w
  | _ => none

/-- `rsp_valid`: "the response of the last taken command is present" (00_scope.md R10). -/
def State.rspValid (s : State) : Bool := !s.responses.isEmpty

/-- `rsp_status`, where `rsp_valid` is 1 (00_scope.md R10). -/
def State.rspStatus (s : State) : Option (BitVec 2) := s.responses.head?.map (·.status.toBits)

/-- `rsp_data`, where `rsp_valid` is 1 (00_scope.md R10). -/
def State.rspData (s : State) : Option Word := s.responses.head?.map (·.data)

end Sys2Proof.Machine
end

