-- ==== Sys2Proof/Machine/Queue.lean ====
section
/-! DEFINITION. The priority queue, a binary min-heap over node weight: PQINS, PQEXT, PQSIZE
(41_priority_queue.md). -/

namespace Sys2Proof.Machine

/-! ### The array layout (41_priority_queue.md R109) -/

/-- The parent of slot `i > 0` is slot `(i - 1) div 2`. -/
def parentSlot (i : Nat) : Nat := (i - 1) / 2

/-- The left child of slot `i` is slot `2i + 1`. -/
def leftSlot (i : Nat) : Nat := 2 * i + 1

/-- The right child of slot `i` is slot `2i + 2`. -/
def rightSlot (i : Nat) : Nat := 2 * i + 2

/-- `HEAP[i]`. The rules read a slot only below `HSIZE`, and so does every caller; the 0 is never seen. -/
def slot (h : List Nat) (i : Nat) : Nat := h.getD i 0

/-- "swap HEAP[i] and HEAP[j]", both below `HSIZE`. -/
def swapSlots (h : List Nat) (i j : Nat) : List Nat := (h.set i (slot h j)).set j (slot h i)

/-! ### The two loops, over the weight `w` of a node -/

/-- "then sifts up" from slot `i`: while `i > 0` and `key(i) < key(parent)`, swap and go to the parent; the
comparison is strict (41_priority_queue.md R111). The first argument bounds the number of rounds; `i` rounds
suffice, since the slot number falls in each (log 10). -/
def siftUp (w : Nat → Nat) : Nat → List Nat → Nat → List Nat
  | 0, h, _ => h
  | fuel + 1, h, i =>
    if 0 < i ∧ w (slot h i) < w (slot h (parentSlot i)) then
      siftUp w fuel (swapSlots h i (parentSlot i)) (parentSlot i)
    else h

/-- `c` where it is a present child with a smaller key than slot `i`, else `i`: one of the two comparisons of
41_priority_queue.md R114, "if c < HSIZE and key(c) < key(s): s <- c". -/
def smallerSlot (w : Nat → Nat) (h : List Nat) (c i : Nat) : Nat :=
  if c < h.length ∧ w (slot h c) < w (slot h i) then c else i

/-- Slot `i` or the child to swap it with: the left child is tested first and both comparisons are strict, so the
right child is taken only when it is strictly smaller than both (41_priority_queue.md R114). -/
def smallestSlot (w : Nat → Nat) (h : List Nat) (i : Nat) : Nat :=
  smallerSlot w h (rightSlot i) (smallerSlot w h (leftSlot i) i)

/-- "then sifts down" from slot `i`: swap with the smaller child while one is smaller than the current node
(41_priority_queue.md R114). The first argument bounds the number of rounds; `HSIZE` rounds suffice, since the
slot number rises in each and stays below `HSIZE` (log 10). -/
def siftDown (w : Nat → Nat) : Nat → List Nat → Nat → List Nat
  | 0, h, _ => h
  | fuel + 1, h, i =>
    if smallestSlot w h i = i then h
    else siftDown w fuel (swapSlots h i (smallestSlot w h i)) (smallestSlot w h i)

/-- The queue with node `n` inserted: append, then sift up (41_priority_queue.md R111). -/
def heapInsert (w : Nat → Nat) (h : List Nat) (n : Nat) : List Nat :=
  siftUp w h.length (h ++ [n]) h.length

/-- The queue with its root removed, for a queue that is not empty: swap root and last element, shrink, then sift
down (41_priority_queue.md R114). -/
def heapRemove (w : Nat → Nat) (h : List Nat) : List Nat :=
  siftDown w (h.length - 1) (swapSlots h 0 (h.length - 1)).dropLast 0

/-! ### The two procedures -/

/-- `pq_insert(n)` (41_priority_queue.md R111). -/
def pqInsert (n : Nat) (s : State) : Except Stop State := do
  require (s.hsize < s.params.maxSyms) .cap
  s.readable (n :: s.heap)
  .ok { s with heap := heapInsert s.weigh s.heap n }

/-- `pq_extract()`, "called only with `HSIZE ≥ 1`" (41_priority_queue.md R114): the extracted node, the root. -/
def pqExtract (s : State) : Except Stop (Nat × State) := do
  let m ← present s.heap.head?
  s.readable s.heap
  .ok (m, { s with heap := heapRemove s.weigh s.heap })

/-! ### The commands -/

/-- The rule of `PQINS n` (41_priority_queue.md R110). -/
def pqinsBody (n : Nat) (s : State) : Body := do
  require (s.phase == .load) .seq
  require (s.allocated n && !s.inQueue n && !s.hasParent n) .node
  let t ← pqInsert n s
  .ok (t, okData (natData t.hsize))

/-- `PQINS n`: DOC0 `insert(node)` (41_priority_queue.md R110). -/
def execPqins (n : BitVec 24) (s : State) : Host.Outcome State Fault Refusal :=
  s.runCommand (.pqins n) (pqinsBody n.toNat s)

/-- The rule of `PQEXT` (41_priority_queue.md R112). -/
def pqextBody (s : State) : Body := do
  require (s.phase == .load) .seq
  if s.hsize = 0 then .ok (s, noneData)
  else do
    let (m, t) ← pqExtract s
    .ok (t, okData (natData m))

/-- `PQEXT`: DOC0 `extractMin()` (41_priority_queue.md R112). -/
def execPqext (s : State) : Host.Outcome State Fault Refusal :=
  s.runCommand .pqext (pqextBody s)

/-- `PQSIZE`: DOC0 `size()` (41_priority_queue.md R116). -/
def execPqsize (s : State) : Host.Outcome State Fault Refusal :=
  s.runCommand .pqsize (.ok (s, okData (natData s.hsize)))

end Sys2Proof.Machine
end

