-- ==== Sys2Proof/Machine/Builder.lean ====
section
/-! DEFINITION. The tree builder: BUILD, MERGE, FINISH (42_tree_builder.md). -/

namespace Sys2Proof.Machine

/-- `new_internal(w, l, r)` (42_tree_builder.md R131): the new node's index and the state that holds it. "A weight
is never reduced modulo `2^32`": the sum is a natural number and is checked. -/
def newInternal (w l : Nat) (r : Option Nat) (s : State) : Except Stop (Nat × State) := do
  require (s.nint < s.params.maxSyms) .cap
  require (w < 2 ^ 32) .wovf
  .ok (s.params.maxSyms + s.nint,
    { s with inners := s.inners ++ [{ weight := BitVec.ofNat 32 w, left := l, right := r }] })

/-- `merge_step()`, "called only with `HSIZE ≥ 2`" (42_tree_builder.md R132): the first node extracted becomes the
left child, the second the right child. -/
def mergeStep (s : State) : Except Stop (Nat × State) := do
  let (a, s1) ← pqExtract s
  let (b, s2) ← pqExtract s1
  let (n, s3) ← newInternal (s2.weigh a + s2.weigh b) a (some b) s2
  let s4 ← pqInsert n s3
  .ok (n, s4)

/-- `wrap(X)`, `X` a leaf (42_tree_builder.md R133): a new internal node with left child `X`, no right child and
the same weight. -/
def wrap (x : Nat) (s : State) : Except Stop (Nat × State) := do
  s.readable [x]
  newInternal (s.weigh x) x none s

/-- `ROOT <- n`, `CUR <- n`, `PHASE <- TREE`: how `BUILD` and `FINISH` end (42_tree_builder.md R130, R137). -/
def State.plant (s : State) (n : Option Nat) : State := { s with root := n, cur := n, phase := .tree }

/-- Step 1 of `BUILD`: for each entry of `FT`, ascending, allocate a leaf with its symbol and count and insert it
(42_tree_builder.md R130). -/
def insertLeaves : List FreqEntry → State → Except Stop State
  | [], s => .ok s
  | e :: es, s => do
    let t ← pqInsert s.nleaf { s with leaves := s.leaves ++ [{ sym := e.sym, weight := e.count }] }
    insertLeaves es t

/-- Step 3 of `BUILD`: "while HSIZE > 1: merge_step()" (42_tree_builder.md R130). The first argument bounds the
number of rounds; `HSIZE` rounds suffice, since each lowers `HSIZE` by one (47_system.md R234; log 10). -/
def mergeAll : Nat → State → Except Stop State
  | 0, s => .ok s
  | fuel + 1, s =>
    if 1 < s.hsize then do
      let (_, t) ← mergeStep s
      mergeAll fuel t
    else .ok s

/-- The rule of `BUILD` (42_tree_builder.md R130). -/
def buildBody (s : State) : Body := do
  require (s.phase == .load && s.nleaf == 0 && s.nint == 0 && s.hsize == 0) .seq
  let s1 ← insertLeaves s.ft s
  if s.nsym = 0 then .ok (s1.plant none, noneData)
  else if s.nsym = 1 then do
    let (x, s2) ← pqExtract s1
    let (n, s3) ← wrap x s2
    .ok (s3.plant (some n), okData (natData n))
  else do
    let s2 ← mergeAll s1.hsize s1
    let (n, s3) ← pqExtract s2
    .ok (s3.plant (some n), okData (natData n))

/-- `BUILD`: build the tree from the frequency table (42_tree_builder.md R130). -/
def execBuild (s : State) : Host.Outcome State Fault Refusal :=
  s.runCommand .build (buildBody s)

/-- The rule of `MERGE` (42_tree_builder.md R134). -/
def mergeBody (s : State) : Body := do
  require (s.phase == .load) .seq
  require (2 ≤ s.hsize) .pq
  let (n, t) ← mergeStep s
  .ok (t, okData (natData n))

/-- `MERGE`: one merging step (42_tree_builder.md R134). -/
def execMerge (s : State) : Host.Outcome State Fault Refusal :=
  s.runCommand .merge (mergeBody s)

/-- The rule of `FINISH` (42_tree_builder.md R137). -/
def finishBody (s : State) : Body := do
  require (s.phase == .load) .seq
  require (s.hsize == 1) .pq
  let (x, s1) ← pqExtract s
  if s1.isLeaf x then do
    let (n, s2) ← wrap x s1
    .ok (s2.plant (some n), okData (natData n))
  else .ok (s1.plant (some x), okData (natData x))

/-- `FINISH`: take the last node as root (42_tree_builder.md R137). -/
def execFinish (s : State) : Host.Outcome State Fault Refusal :=
  s.runCommand .finish (finishBody s)

end Sys2Proof.Machine
end

