-- ==== Sys2Proof/Machine/CodeTable.lean ====
section
/-! DEFINITION. The code table generator and lookup: GEN, LOOKUP, RDCLEN, RDCODE (43_code_table.md). -/

namespace Sys2Proof.Machine

/-- "or \"0\" if the path is empty" (43_code_table.md R151): the code of a leaf reached by a path. The empty path
is never met, since `ROOT` is never a leaf (10_state.md R43; 90_conflicts.md C3). -/
def codeOfPath (path : BitString) : BitString := if path = [] then [false] else path

/-- `walk(n, path)` (43_code_table.md R151) on the table and the count of codes written. The first argument bounds
the depth: below a root with `NINT` internal nodes no path is longer than `NINT`, so `NINT + 1` levels of
calls suffice, and a deeper walk is over no tree (log 10). -/
def walk (s : State) : Nat → Nat → BitString → List BitString × Nat → Except Stop (List BitString × Nat)
  | 0, _, _, _ => .error (.stuck .treeTooDeep)
  | depth + 1, n, path, (table, count) =>
    if s.isLeaf n then do
      let _ ← present (s.leafAt n)
      .ok (table.set n (codeOfPath path), count + 1)
    else do
      let r ← present (s.innerAt n)
      let acc ← walk s depth r.left (path ++ [false]) (table, count)
      match r.right with
      | none => .ok acc
      | some c => walk s depth c (path ++ [true]) acc

/-- The rule of `GEN` (43_code_table.md R150). -/
def genBody (s : State) : Body := do
  require (s.phase == .tree) .seq
  match s.root with
  | none => .ok ({ s with phase := .code }, okData 0#32)
  | some n => do
    let (table, count) ← walk s (s.nint + 1) n [] (s.code, 0)
    .ok ({ s with code := table, phase := .code }, okData (natData count))

/-- `GEN`: generate the code table (43_code_table.md R150). -/
def execGen (s : State) : Host.Outcome State Fault Refusal :=
  s.runCommand .gen (genBody s)

/-- The leaf of symbol `x` where it has a code (43_code_table.md R153, 44_encoder.md R172). -/
def State.codedLeaf (s : State) (x : Symbol) : Option Nat :=
  (s.findLeaf x).filter fun i => s.codeAt i != []

/-- `LOOKUP s`: leaf index of symbol `s` if it has a code (43_code_table.md R153). -/
def execLookup (x : Symbol) (s : State) : Host.Outcome State Fault Refusal :=
  s.runCommand (.lookup x) (.ok (s, okOrNone ((s.codedLeaf x).map natData)))

/-- The answer of `RDCLEN i` (43_code_table.md R155). -/
def State.codeLength (s : State) (i : Nat) : Option Word :=
  if i < s.nleaf then some (natData (s.codeAt i).length) else none

/-- `RDCLEN i`: length of the code of leaf `i` (43_code_table.md R155). -/
def execRdclen (i : BitVec 24) (s : State) : Host.Outcome State Fault Refusal :=
  s.runCommand (.rdclen i) (.ok (s, okOrNone (s.codeLength i.toNat)))

/-- The answer of `RDCODE i, w` (43_code_table.md R157). -/
def State.codeWindow (s : State) (i w : Nat) : Option Word :=
  if i < s.nleaf ∧ 32 * w < (s.codeAt i).length then some (window (s.codeAt i) w) else none

/-- `RDCODE i, w`: 32-bit window `w` of the code of leaf `i` (43_code_table.md R157). -/
def execRdcode (i w : BitVec 12) (s : State) : Host.Outcome State Fault Refusal :=
  s.runCommand (.rdcode i w) (.ok (s, okOrNone (s.codeWindow i.toNat w.toNat)))

end Sys2Proof.Machine
end

