-- ==== Sys2Proof/Machine/Decoder.lean ====
section
/-! DEFINITION. The tree-walk decoder: DECINIT, DECB, DEC, RDOUT (45_decoder.md). -/

namespace Sys2Proof.Machine

/-- `CUR <- ROOT`, `OLEN <- 0`: the decoder restarted (45_decoder.md R190, R195). -/
def State.restartDecoder (s : State) : State := { s with cur := s.root, out := [] }

/-- The decoder commands are legal in phases `TREE` and `CODE` (45_decoder.md R190, R193, R195). -/
def State.decoderPhase (s : State) : Bool := s.phase == .tree || s.phase == .code

/-- The rule of `DECINIT` (45_decoder.md R190). -/
def decinitBody (s : State) : Body := do
  require s.decoderPhase .seq
  .ok (s.restartDecoder, okData 0#32)

/-- `DECINIT`: restart the decoder (45_decoder.md R190). -/
def execDecinit (s : State) : Host.Outcome State Fault Refusal :=
  s.runCommand .decinit (decinitBody s)

/-- The child a bit leads to: "0→left, 1→right" (45_decoder.md R192). -/
def InnerNode.child (r : InnerNode) (b : Bool) : Option Nat := if b then r.right else some r.left

/-- `decb_step(b)` (45_decoder.md R192): one transition of the machine. "Descend first", then test the new node;
`F_NOCHILD` before `F_CAP`. -/
def decbStep (b : Bool) (s : State) : Body :=
  match s.root with
  | none => .ok (s, noneData)
  | some _ => do
    let cur ← present s.cur
    let r ← present (s.innerAt cur)
    match r.child b with
    | none => .error (.raise .nochild)
    | some nxt =>
      if s.isLeaf nxt then do
        require (s.olen < s.params.maxLen) .cap
        let leaf ← present (s.leafAt nxt)
        .ok ({ s with out := s.out ++ [leaf.sym], cur := s.root }, okData (symData leaf.sym))
      else .ok ({ s with cur := some nxt }, noneData)

/-- The rule of `DECB b` (45_decoder.md R193). -/
def decbBody (b : Bool) (s : State) : Body := do
  require s.decoderPhase .seq
  decbStep b s

/-- `DECB b`: feed one bit to the decoder (45_decoder.md R193). -/
def execDecb (b : Bool) (s : State) : Host.Outcome State Fault Refusal :=
  s.runCommand (.decb b) (decbBody b s)

/-- "for k <- 0 .. BLEN - 1, ascending: decb_step(BITS[k])", responses dropped (45_decoder.md R195), over the bits
still to decode. -/
def decodeBits : BitString → State → Except Stop State
  | [], s => .ok s
  | b :: bs, s => do
    let (t, _) ← decbStep b s
    decodeBits bs t

/-- The rule of `DEC` (45_decoder.md R195). -/
def decBody (s : State) : Body := do
  require s.decoderPhase .seq
  let t ← decodeBits s.bits s.restartDecoder
  .ok (t, okData (natData t.olen))

/-- `DEC`: decode `BITS` into `OUT` (45_decoder.md R195). -/
def execDec (s : State) : Host.Outcome State Fault Refusal :=
  s.runCommand .dec (decBody s)

/-- `RDOUT i`: decoded symbol `i` (45_decoder.md R199). -/
def execRdout (i : BitVec 24) (s : State) : Host.Outcome State Fault Refusal :=
  s.runCommand (.rdout i) (.ok (s, okOrNone (s.out[i.toNat]?.map symData)))

end Sys2Proof.Machine
end

