-- ==== Sys2Proof/Machine/Encoder.lean ====
section
/-! DEFINITION. The encoder: ENCINIT, ENCS, ENC, RDBITS (44_encoder.md). -/

namespace Sys2Proof.Machine

/-- The rule of `ENCINIT` (44_encoder.md R170). -/
def encinitBody (s : State) : Body := do
  require (s.phase == .code) .seq
  .ok ({ s with bits := [] }, okData 0#32)

/-- `ENCINIT`: empty the bitstream (44_encoder.md R170). -/
def execEncinit (s : State) : Host.Outcome State Fault Refusal :=
  s.runCommand .encinit (encinitBody s)

/-- `encs_step(s)` (44_encoder.md R172): "look up its code and append it to the output", `F_NOSYM` before `F_CAP`.
The number of bits appended is the length of the code. -/
def encsStep (x : Symbol) (s : State) : Except Stop (Nat × State) :=
  match s.codedLeaf x with
  | none => .error (.raise .nosym)
  | some i => do
    require (s.blen + (s.codeAt i).length ≤ s.params.maxBits) .cap
    .ok ((s.codeAt i).length, { s with bits := s.bits ++ s.codeAt i })

/-- The rule of `ENCS s` (44_encoder.md R173). -/
def encsBody (x : Symbol) (s : State) : Body := do
  require (s.phase == .code) .seq
  let (n, t) ← encsStep x s
  .ok (t, okData (natData n))

/-- `ENCS s`: append the code of `s` (44_encoder.md R173). -/
def execEncs (x : Symbol) (s : State) : Host.Outcome State Fault Refusal :=
  s.runCommand (.encs x) (encsBody x s)

/-- "for t <- 0 .. TLEN - 1, ascending: encs_step(TXT[t])" (44_encoder.md R175), over the text still to encode. -/
def encodeText : List Symbol → State → Except Stop State
  | [], s => .ok s
  | x :: xs, s => do
    let (_, t) ← encsStep x s
    encodeText xs t

/-- The rule of `ENC` (44_encoder.md R175). -/
def encBody (s : State) : Body := do
  require (s.phase == .code) .seq
  let t ← encodeText s.txt { s with bits := [] }
  .ok (t, okData (natData t.blen))

/-- `ENC`: encode `TXT` into `BITS` (44_encoder.md R175). -/
def execEnc (s : State) : Host.Outcome State Fault Refusal :=
  s.runCommand .enc (encBody s)

/-- The answer of `RDBITS w` (44_encoder.md R177). -/
def State.bitsWindow (s : State) (w : Nat) : Option Word :=
  if 32 * w < s.blen then some (window s.bits w) else none

/-- `RDBITS w`: 32-bit window `w` of `BITS` (44_encoder.md R177). -/
def execRdbits (w : BitVec 24) (s : State) : Host.Outcome State Fault Refusal :=
  s.runCommand (.rdbits w) (.ok (s, okOrNone (s.bitsWindow w.toNat)))

end Sys2Proof.Machine
end

