-- ==== Sys2Proof/Machine/Load.lean ====
section
/-! DEFINITION. Loading the text, counting frequencies, creating leaves: SYM, SETW, MKLEAF
(40_load_frequency.md). -/

namespace Sys2Proof.Machine

/-- The `i < NSYM` with `FT[i].sym = s`, if one exists (40_load_frequency.md R100). -/
def State.findEntry (s : State) (x : Symbol) : Option Nat := s.ft.findIdx? fun e => e.sym == x

/-- One more occurrence of an entry's symbol: `FT[j].count + 1` (40_load_frequency.md R100). "The count cannot
overflow" where the frequency invariant holds (10_state.md R38; log 12). -/
def FreqEntry.bump (e : FreqEntry) : FreqEntry := { e with count := e.count + 1#32 }

/-- The rule of `SYM s` (40_load_frequency.md R100). -/
def symBody (x : Symbol) (s : State) : Body := do
  require (s.phase == .load) .seq
  require (s.tlen < s.params.maxLen) .cap
  match s.findEntry x with
  | none => do
    require (s.nsym < s.params.maxSyms) .cap
    .ok ({ s with ft := s.ft ++ [{ sym := x, count := 1#32 }], txt := s.txt ++ [x] },
      okData (natData s.nsym))
  | some j => .ok ({ s with ft := s.ft.modify j FreqEntry.bump, txt := s.txt ++ [x] }, okData (natData j))

/-- `SYM s`: append symbol `s` to the text and count it (40_load_frequency.md R100). -/
def execSym (x : Symbol) (s : State) : Host.Outcome State Fault Refusal :=
  s.runCommand (.sym x) (symBody x s)

/-- `SETW imm`: `WREG <- zext_32(imm)`, responds with it; legal in every phase (40_load_frequency.md R102). -/
def execSetw (imm : BitVec 24) (s : State) : Host.Outcome State Fault Refusal :=
  s.runCommand (.setw imm) (.ok ({ s with wreg := zext imm }, okData (zext imm)))

/-- The rule of `MKLEAF s` (40_load_frequency.md R104). -/
def mkleafBody (x : Symbol) (s : State) : Body := do
  require (s.phase == .load) .seq
  require (s.findLeaf x).isNone .dup
  require (s.nleaf < s.params.maxSyms) .cap
  .ok ({ s with leaves := s.leaves ++ [{ sym := x, weight := s.wreg }] }, okData (natData s.nleaf))

/-- `MKLEAF s`: allocate the leaf `(s, WREG)` (40_load_frequency.md R104). -/
def execMkleaf (x : Symbol) (s : State) : Host.Outcome State Fault Refusal :=
  s.runCommand (.mkleaf x) (mkleafBody x s)

end Sys2Proof.Machine
end

