-- ==== Sys2Proof/Machine/Readout.lean ====
section
/-! DEFINITION. Result registers and read-out commands: RDREG, RDTXT, RDFSYM, RDFCNT, RDNODE, RDHEAP
(46_result_readout.md). -/

namespace Sys2Proof.Machine

/-- The scalar registers and views, under the names of 10_state.md R22 and R24. -/
inductive Reg where
  | status
  | phase
  | fault
  | finfo
  | tlen
  | nsym
  | nleaf
  | nint
  | hsize
  | root
  | cur
  | blen
  | olen
  | wreg
  | origBits
  | compBits
  | cfgSymW
  | cfgMaxSyms
  | cfgMaxLen
  | cfgMaxBits
  | id
  deriving DecidableEq, Repr

/-- The register numbers of 46_result_readout.md R212; "register numbers 21 and above are unassigned"
(10_state.md R24). -/
def regOfNumber : Nat → Option Reg
  | 0 => some .status
  | 1 => some .phase
  | 2 => some .fault
  | 3 => some .finfo
  | 4 => some .tlen
  | 5 => some .nsym
  | 6 => some .nleaf
  | 7 => some .nint
  | 8 => some .hsize
  | 9 => some .root
  | 10 => some .cur
  | 11 => some .blen
  | 12 => some .olen
  | 13 => some .wreg
  | 14 => some .origBits
  | 15 => some .compBits
  | 16 => some .cfgSymW
  | 17 => some .cfgMaxSyms
  | 18 => some .cfgMaxLen
  | 19 => some .cfgMaxBits
  | 20 => some .id
  | _ => none

/-- "value of register or view r, zero-extended to 32 bits" (46_result_readout.md R212; 10_state.md R22, R24). -/
def State.readReg (s : State) : Reg → Word
  | .status => s.status
  | .phase => natData s.phase.toNat
  | .fault => faultData s.fault
  | .finfo => s.finfo
  | .tlen => natData s.tlen
  | .nsym => natData s.nsym
  | .nleaf => natData s.nleaf
  | .nint => natData s.nint
  | .hsize => natData s.hsize
  | .root => nodeData s.root
  | .cur => nodeData s.cur
  | .blen => natData s.blen
  | .olen => natData s.olen
  | .wreg => s.wreg
  | .origBits => s.origBits
  | .compBits => s.compBits
  | .cfgSymW => natData s.params.symW
  | .cfgMaxSyms => natData s.params.maxSyms
  | .cfgMaxLen => natData s.params.maxLen
  | .cfgMaxBits => natData s.params.maxBits
  | .id => commandSetId

/-- `RDREG r`: read scalar register or view `r` (46_result_readout.md R212). -/
def execRdreg (r : BitVec 24) (s : State) : Host.Outcome State Fault Refusal :=
  s.runCommand (.rdreg r) (.ok (s, okOrNone ((regOfNumber r.toNat).map s.readReg)))

/-- `RDTXT i`: text symbol `i` (46_result_readout.md R214). -/
def execRdtxt (i : BitVec 24) (s : State) : Host.Outcome State Fault Refusal :=
  s.runCommand (.rdtxt i) (.ok (s, okOrNone (s.txt[i.toNat]?.map symData)))

/-- `RDFSYM i`: symbol of frequency entry `i` (46_result_readout.md R215). -/
def execRdfsym (i : BitVec 24) (s : State) : Host.Outcome State Fault Refusal :=
  s.runCommand (.rdfsym i) (.ok (s, okOrNone (s.ft[i.toNat]?.map fun e => symData e.sym)))

/-- `RDFCNT i`: count of frequency entry `i` (46_result_readout.md R216). -/
def execRdfcnt (i : BitVec 24) (s : State) : Host.Outcome State Fault Refusal :=
  s.runCommand (.rdfcnt i) (.ok (s, okOrNone (s.ft[i.toNat]?.map (·.count))))

/-- Field `f` of node `n` (46_result_readout.md R217): 0 KIND, 1 SYM, 2 WEIGHT, 3 LEFT, 4 RIGHT; nothing for 5, 6, 7,
for an unallocated node, and for a field the node's kind does not have. -/
def State.nodeField (s : State) (n f : Nat) : Option Word :=
  if s.allocated n then
    match f with
    | 0 => some (if s.isLeaf n then 0#32 else 1#32)
    | 1 => (s.leafAt n).map fun r => symData r.sym
    | 2 => s.weightAt n
    | 3 => (s.innerAt n).map fun r => natData r.left
    | 4 => ((s.innerAt n).bind (·.right)).map natData
    | _ => none
  else none

/-- `RDNODE n, f`: field `f` of node `n` (46_result_readout.md R217). -/
def execRdnode (n : BitVec 16) (f : BitVec 3) (s : State) : Host.Outcome State Fault Refusal :=
  s.runCommand (.rdnode n f) (.ok (s, okOrNone (s.nodeField n.toNat f.toNat)))

/-- `RDHEAP i`: heap slot `i` (46_result_readout.md R218). -/
def execRdheap (i : BitVec 24) (s : State) : Host.Outcome State Fault Refusal :=
  s.runCommand (.rdheap i) (.ok (s, okOrNone (s.heap[i.toNat]?.map natData)))

end Sys2Proof.Machine
end

