-- ==== Sys2Proof/Machine/System.lean ====
section
/-! DEFINITION. System commands: NOP, CLR (47_system.md). -/

namespace Sys2Proof.Machine

/-- `NOP` (47_system.md R230): responds `(OK, 0)`, state unchanged, also when faulted. -/
def execNop (s : State) : Host.Outcome State Fault Refusal :=
  s.runCommand .nop (.ok (s, okData 0#32))

/-- `CLR` (47_system.md R231): the state becomes the reset state, also when faulted; responds `(OK, 0)`. -/
def execClr (s : State) : Host.Outcome State Fault Refusal :=
  s.runCommand .clr (.ok (s.clear, okData 0#32))

end Sys2Proof.Machine
end

