-- ==== Sys2Proof/Machine/Dispatch.lean ====
section
/-! DEFINITION. The meaning of every command: one arm per constructor of Instr, in the order of
spec/opcode_table.json. -/

namespace Sys2Proof.Machine

def exec (i : Instr) (s : State) : Host.Outcome State Fault Refusal :=
  match i with
  | .nop => Sys2Proof.Machine.execNop s
  | .clr => Sys2Proof.Machine.execClr s
  | .rdreg r => Sys2Proof.Machine.execRdreg r s
  | .sym x => Sys2Proof.Machine.execSym x s
  | .setw imm => Sys2Proof.Machine.execSetw imm s
  | .mkleaf x => Sys2Proof.Machine.execMkleaf x s
  | .pqins n => Sys2Proof.Machine.execPqins n s
  | .pqext => Sys2Proof.Machine.execPqext s
  | .pqsize => Sys2Proof.Machine.execPqsize s
  | .build => Sys2Proof.Machine.execBuild s
  | .merge => Sys2Proof.Machine.execMerge s
  | .finish => Sys2Proof.Machine.execFinish s
  | .gen => Sys2Proof.Machine.execGen s
  | .lookup x => Sys2Proof.Machine.execLookup x s
  | .rdclen k => Sys2Proof.Machine.execRdclen k s
  | .rdcode k w => Sys2Proof.Machine.execRdcode k w s
  | .enc => Sys2Proof.Machine.execEnc s
  | .encs x => Sys2Proof.Machine.execEncs x s
  | .encinit => Sys2Proof.Machine.execEncinit s
  | .rdbits w => Sys2Proof.Machine.execRdbits w s
  | .dec => Sys2Proof.Machine.execDec s
  | .decinit => Sys2Proof.Machine.execDecinit s
  | .decb b => Sys2Proof.Machine.execDecb b s
  | .rdout k => Sys2Proof.Machine.execRdout k s
  | .rdtxt k => Sys2Proof.Machine.execRdtxt k s
  | .rdfsym k => Sys2Proof.Machine.execRdfsym k s
  | .rdfcnt k => Sys2Proof.Machine.execRdfcnt k s
  | .rdnode n f => Sys2Proof.Machine.execRdnode n f s
  | .rdheap k => Sys2Proof.Machine.execRdheap k s

end Sys2Proof.Machine
end

