-- ==== Sys2Proof/Machine/Step.lean ====
section
/-! DEFINITION. One step: the host's next action, taken to completion. -/

namespace Sys2Proof.Machine

/-- One step (00_scope.md R9; 30_encoding.md R88). A command word is decoded and run, or taken as an illegal word;
a reset has the effect of `CLR` and gives no response (70_reset_and_hazards.md R271); with no action pending
nothing changes (R280, "the CORE never stops on its own"; log 2). -/
def step (s : State) : Host.Outcome State Fault Refusal :=
  match s.takeAction with
  | none => .next s
  | some (.reset, t) => .next t.clear
  | some (.command w, t) =>
    match decode t.params.symW w with
    | .ok i => exec i t
    | .error _ => .next (t.takeIllegal w)

/-- The host presenting the word `w` as its next action, before any it presents already: a command is fetched
from the command port and from nowhere else (00_scope.md R2, R10; log 2). -/
def State.withFetchWord (s : State) (nbits w : Nat) : State :=
  { s with input := .command (BitVec.ofNat 32 (w % 2 ^ nbits)) :: s.input }

end Sys2Proof.Machine
end

