-- ==== Sys2Proof/Machine/Pseudo.lean ====
section
/-! DEFINITION. The pseudo-commands of 30_encoding.md R92 to R95, each the list of commands it expands to. -/

namespace Sys2Proof.Machine

/-- `RDST`: read `STATUS` (30_encoding.md R92). -/
def pseudoRdst : List Instr := [.rdreg 0#24]

/-- `TEXT "c1c2...ck"`: one `SYM` per symbol, in order; `TEXT ""` expands to nothing (30_encoding.md R93). -/
def pseudoText (text : List Symbol) : List Instr := text.map .sym

/-- `LEAF s, w`: `SETW w`, `MKLEAF s` (30_encoding.md R94). -/
def pseudoLeaf (x : Symbol) (w : BitVec 24) : List Instr := [.setw w, .mkleaf x]

/-- `ENCODE "text"`: `CLR`, `TEXT "text"`, `BUILD`, `GEN`, `ENC`, `DEC` (30_encoding.md R95). -/
def pseudoEncode (text : List Symbol) : List Instr := .clr :: pseudoText text ++ [.build, .gen, .enc, .dec]

/-- The host presenting a list of commands on the command port, in order, after what it presents already. -/
def State.issue (s : State) (is : List Instr) : State :=
  { s with input := s.input ++ is.map fun i => .command (encode i) }

end Sys2Proof.Machine
end

