-- ==== Sys2Proof/Safety.lean ====
section
/-! DEFINITION. What a run gone wrong is, which commands are legal in which phase, and the invariants of the state
(10_state.md R38 to R45), in the terms the statements use. -/

namespace Sys2Proof.Machine

/-! ### Runs -/

/-- "A run went wrong when its final state is faulted or when any response was `FAULT` or `REFUSED`"
(70_reset_and_hazards.md R280), told from the final state, whose response port holds every response. -/
def State.wentWrong (s : State) : Bool :=
  s.faulted || s.responses.any fun r => r.status == .fault || r.status == .refused

/-- The states that steps lead to from a state: the host may present any actions (70_reset_and_hazards.md R280).
`reach s t`: some steps, with host actions put on the port between them, lead from `s` to `t`. -/
inductive Reach (s : State) : State → Prop where
  | refl : Reach s s
  | step {t u : State} : Reach s t → Machine.step t = .next u → Reach s u
  | host {t : State} (a : HostAction) : Reach s t → Reach s { t with input := t.input ++ [a] }

/-- The phase table (70_reset_and_hazards.md R276, 30_encoding.md R83): the commands legal in a phase. -/
def legalIn : Instr → Phase → Bool
  | .nop, _ => true
  | .clr, _ => true
  | .setw _, _ => true
  | .sym _, p => p == .load
  | .mkleaf _, p => p == .load
  | .pqins _, p => p == .load
  | .pqext, p => p == .load
  | .merge, p => p == .load
  | .build, p => p == .load
  | .finish, p => p == .load
  | .gen, p => p == .tree
  | .decinit, p => p != .load
  | .decb _, p => p != .load
  | .dec, p => p != .load
  | .encinit, p => p == .code
  | .encs _, p => p == .code
  | .enc, p => p == .code
  | .rdreg _, _ => true
  | .pqsize, _ => true
  | .lookup _, _ => true
  | .rdclen _, _ => true
  | .rdcode _ _, _ => true
  | .rdbits _, _ => true
  | .rdout _, _ => true
  | .rdtxt _, _ => true
  | .rdfsym _, _ => true
  | .rdfcnt _, _ => true
  | .rdnode _ _, _ => true
  | .rdheap _, _ => true

/-- The phase table's column "phase after" (70_reset_and_hazards.md R276). -/
def phaseAfter : Instr → Phase → Phase
  | .clr, _ => .load
  | .build, _ => .tree
  | .finish, _ => .tree
  | .gen, _ => .code
  | _, p => p

/-- The effect of legal commands one after another, as long as each answers a next state; the responses they give
stand on the port. -/
def execAll : List Instr → State → Option State
  | [], s => some s
  | i :: is, s =>
    match exec i s with
    | .next t => execAll is t
    | .fault _ => none
    | .refused _ => none

/-- A row of the opcode map: a word has the row's command when its masked bits are the row's
(spec/opcode_table.json; 30_encoding.md R81, R83). -/
structure OpcodeRow where
  fixedBits : Word
  mask : Word
  deriving DecidableEq, Repr

/-- The mask of format S: the opcode and the bits `23..SYM_W` (30_encoding.md R81; spec/INDEX.md). -/
def maskS (symW : Nat) : Word := 0xFF000000#32 ||| BitVec.ofNat 32 (2 ^ 24 - 2 ^ symW)

/-- The 29 rows of the opcode map, in the order of spec/opcode_table.json, for a symbol width. -/
def opcodeRows (symW : Nat) : List OpcodeRow :=
  [⟨0x00000000#32, 0xFFFFFFFF#32⟩, ⟨0x01000000#32, 0xFFFFFFFF#32⟩, ⟨0x02000000#32, 0xFF000000#32⟩,
    ⟨0x10000000#32, maskS symW⟩, ⟨0x11000000#32, 0xFF000000#32⟩, ⟨0x12000000#32, maskS symW⟩,
    ⟨0x20000000#32, 0xFF000000#32⟩, ⟨0x21000000#32, 0xFFFFFFFF#32⟩, ⟨0x22000000#32, 0xFFFFFFFF#32⟩] ++
  [⟨0x30000000#32, 0xFFFFFFFF#32⟩, ⟨0x31000000#32, 0xFFFFFFFF#32⟩, ⟨0x32000000#32, 0xFFFFFFFF#32⟩,
    ⟨0x40000000#32, 0xFFFFFFFF#32⟩, ⟨0x41000000#32, maskS symW⟩, ⟨0x42000000#32, 0xFF000000#32⟩,
    ⟨0x43000000#32, 0xFF000000#32⟩] ++
  [⟨0x50000000#32, 0xFFFFFFFF#32⟩, ⟨0x51000000#32, maskS symW⟩, ⟨0x52000000#32, 0xFFFFFFFF#32⟩,
    ⟨0x53000000#32, 0xFF000000#32⟩, ⟨0x60000000#32, 0xFFFFFFFF#32⟩, ⟨0x61000000#32, 0xFFFFFFFF#32⟩,
    ⟨0x62000000#32, 0xFFFFFFFE#32⟩, ⟨0x63000000#32, 0xFF000000#32⟩] ++
  [⟨0x70000000#32, 0xFF000000#32⟩, ⟨0x71000000#32, 0xFF000000#32⟩, ⟨0x72000000#32, 0xFF000000#32⟩,
    ⟨0x73000000#32, 0xFFF80000#32⟩, ⟨0x74000000#32, 0xFF000000#32⟩]

/-! ### Terms of the invariants -/

/-- `key(i)`: the weight the queue compares at slot `i` (10_state.md R37). -/
def State.key (s : State) (i : Nat) : Nat := s.weigh (slot s.heap i)

/-- The child of internal node `n` that bit `b` leads to: 0 left, 1 right (20_memory.md R62). -/
def State.childAt (s : State) (n : Nat) (b : Bool) : Option Nat := (s.innerAt n).bind (·.child b)

/-- The node that a path of edges leads to from node `n` (20_memory.md R62). -/
def State.follow (s : State) : Nat → BitString → Option Nat
  | n, [] => some n
  | n, b :: p => (s.childAt n b).bind fun c => s.follow c p

/-- Node `n` was allocated before internal node `S + k`: a leaf, or an internal node of lower index (nodes are
allocated in ascending order, 10_state.md R28, 20_memory.md R61). A leaf that is a child was there before its
parent, since a child is an allocated node when its parent is made (42_tree_builder.md R131). -/
def State.olderThan (s : State) (k n : Nat) : Prop :=
  (n < s.params.maxSyms ∧ n < s.nleaf) ∨ (s.params.maxSyms ≤ n ∧ n < s.params.maxSyms + k)

/-- The code of a symbol: the mapping `s ↦ CODE[find_leaf(s)]` "restricted to entries with `len ≥ 1`"
(43_code_table.md R159); empty for a symbol that has none. -/
def State.codeOfSymbol (s : State) (x : Symbol) : BitString :=
  match s.codedLeaf x with
  | some i => s.codeAt i
  | none => []

/-- The sum of the weights of the leaves below node `n`, to a given depth (10_state.md R45). -/
def State.weightBelow (s : State) : Nat → Nat → Nat
  | 0, _ => 0
  | depth + 1, n =>
    if s.isLeaf n then s.weigh n
    else
      match s.innerAt n with
      | none => 0
      | some r =>
        s.weightBelow depth r.left +
          (match r.right with
            | none => 0
            | some c => s.weightBelow depth c)

/-! ### The loops of the queue, as their rules state them -/

/-- "then sifts up" from slot `i`, over the weight `w` of a node: the heap the loop of 41_priority_queue.md R111 ends
with. "A node whose weight equals its parent's stays below it." -/
inductive SiftsUp (w : Nat → Nat) : List Nat → Nat → List Nat → Prop where
  | stop {h : List Nat} {i : Nat} : (0 < i → w (slot h (parentSlot i)) ≤ w (slot h i)) → SiftsUp w h i h
  | swap {h h' : List Nat} {i : Nat} : 0 < i → w (slot h i) < w (slot h (parentSlot i)) →
      SiftsUp w (swapSlots h i (parentSlot i)) (parentSlot i) h' → SiftsUp w h i h'

/-- "then sifts down" from slot `i`: the heap the loop of 41_priority_queue.md R114 ends with. The left child is taken
"when the left child is smaller than the current node and the right child is not smaller than the left", the right
child "only when the right child is strictly smaller than both". -/
inductive SiftsDown (w : Nat → Nat) : List Nat → Nat → List Nat → Prop where
  | stop {h : List Nat} {i : Nat} : (leftSlot i < h.length → w (slot h i) ≤ w (slot h (leftSlot i))) →
      (rightSlot i < h.length → w (slot h i) ≤ w (slot h (rightSlot i))) → SiftsDown w h i h
  | left {h h' : List Nat} {i : Nat} : leftSlot i < h.length → w (slot h (leftSlot i)) < w (slot h i) →
      (rightSlot i < h.length → w (slot h (leftSlot i)) ≤ w (slot h (rightSlot i))) →
      SiftsDown w (swapSlots h i (leftSlot i)) (leftSlot i) h' → SiftsDown w h i h'
  | right {h h' : List Nat} {i : Nat} : rightSlot i < h.length → w (slot h (rightSlot i)) < w (slot h i) →
      w (slot h (rightSlot i)) < w (slot h (leftSlot i)) →
      SiftsDown w (swapSlots h i (rightSlot i)) (rightSlot i) h' → SiftsDown w h i h'

/-- `h'` is the queue `h` after `pq_extract()`: "swaps root with last element, shrinks, then sifts down"
(41_priority_queue.md R114). -/
def Extracts (w : Nat → Nat) (h h' : List Nat) : Prop := SiftsDown w (swapSlots h 0 (h.length - 1)).dropLast 0 h'

/-- `h'` is the queue `h` after `pq_insert(n)`: "appends then sifts up" (41_priority_queue.md R111). -/
def Inserts (w : Nat → Nat) (h : List Nat) (n : Nat) (h' : List Nat) : Prop := SiftsUp w (h ++ [n]) h.length h'

/-! ### The invariants -/

/-- Every memory is within its capacity and `CODE` has all its `S` elements (20_memory.md R60; 10_state.md R26 to
R32): the one form in which the model holds the memories. -/
abbrev Memory.wf (s : State) : Prop :=
  s.tlen ≤ s.params.maxLen ∧ s.nsym ≤ s.params.maxSyms ∧ s.nleaf ≤ s.params.maxSyms ∧
    s.nint ≤ s.params.maxSyms ∧ s.hsize ≤ s.params.maxSyms ∧
    s.code.length = s.params.maxSyms ∧ (∀ c ∈ s.code, c.length ≤ s.params.maxSyms) ∧
    s.blen ≤ s.params.maxBits ∧ s.olen ≤ s.params.maxLen

/-- Every symbol the memories hold is a `SYM_W`-bit value (00_scope.md R12; 10_state.md R26 to R28, R32). -/
structure SymbolsFit (s : State) : Prop where
  txt : ∀ x ∈ s.txt, Symbol.Fits s.params.symW x
  ft : ∀ e ∈ s.ft, Symbol.Fits s.params.symW e.sym
  leaves : ∀ r ∈ s.leaves, Symbol.Fits s.params.symW r.sym
  out : ∀ x ∈ s.out, Symbol.Fits s.params.symW x

/-- `FINFO` is "0 when `FAULT = 0`" (10_state.md R22). -/
abbrev FaultInfoInv (s : State) : Prop := s.fault = none → s.finfo = 0#32

/-- The frequency invariant (10_state.md R38). -/
structure FrequencyInv (s : State) : Prop where
  /-- "the symbols are pairwise distinct" -/
  distinct : (s.ft.map (·.sym)).Nodup
  /-- "every `FT[i].count ≥ 1`" -/
  positive : ∀ e ∈ s.ft, 1 ≤ e.count.toNat
  /-- "the sum of all counts equals `TLEN`" -/
  total : (s.ft.map (·.count.toNat)).sum = s.tlen
  /-- "`FT[i].count` is the number of `t < TLEN` with `TXT[t] = FT[i].sym`" -/
  counts : ∀ e ∈ s.ft, e.count.toNat = s.txt.count e.sym
  /-- "the entries are in order of first occurrence in `TXT`" -/
  order : (s.ft.map fun e => s.txt.idxOf e.sym).Pairwise (· < ·)

/-- The heap invariant (10_state.md R39): no key is below its parent's. -/
def HeapInv (s : State) : Prop := ∀ i, 1 ≤ i → i < s.hsize → s.key (parentSlot i) ≤ s.key i

/-- The queue membership invariant (10_state.md R40). -/
structure QueueInv (s : State) : Prop where
  distinct : s.heap.Nodup
  allocated : ∀ n ∈ s.heap, s.allocated n = true
  parentless : ∀ n ∈ s.heap, s.hasParent n = false
  notRoot : ∀ n ∈ s.heap, s.root ≠ some n
  size : s.hsize ≤ s.params.maxSyms

/-- The tree invariant (10_state.md R41). A child is older than its parent, so it is allocated, differs from it, and
the structure is acyclic. -/
structure TreeInv (s : State) : Prop where
  left : ∀ (k : Nat) (r : InnerNode), s.inners[k]? = some r → s.olderThan k r.left
  right : ∀ (k : Nat) (r : InnerNode) (c : Nat), s.inners[k]? = some r → r.right = some c →
    s.olderThan k c ∧ c ≠ r.left
  /-- "every node has at most one parent" -/
  oneParent : (s.inners.flatMap InnerNode.children).Nodup
  /-- `weight(m) = weight(left(m)) + weight(right(m))` -/
  sum : ∀ (k : Nat) (r : InnerNode) (c : Nat), s.inners[k]? = some r → r.right = some c →
    r.weight.toNat = s.weigh r.left + s.weigh c
  /-- A wrapper: "`left(m)` is a leaf, `weight(m) = weight(left(m))` and `m = ROOT`". -/
  wrapper : ∀ (k : Nat) (r : InnerNode), s.inners[k]? = some r → r.right = none →
    s.isLeaf r.left = true ∧ r.weight.toNat = s.weigh r.left ∧ s.root = some (s.params.maxSyms + k)

/-- The leaf-symbol invariant: the symbols of the leaves are pairwise distinct (10_state.md R42). -/
abbrev LeafInv (s : State) : Prop := (s.leaves.map (·.sym)).Nodup

/-- The phase invariants (10_state.md R43). -/
structure PhaseInv (s : State) : Prop where
  load : s.phase = .load → s.root = none ∧ s.cur = none ∧ s.bits = [] ∧ s.out = [] ∧ ∀ c ∈ s.code, c = []
  queueEmpty : s.phase ≠ .load → s.heap = []
  /-- "`ROOT` is `NIL` or an allocated internal node without parent" -/
  root : s.phase ≠ .load → ∀ n, s.root = some n →
    s.allocated n = true ∧ s.isLeaf n = false ∧ s.hasParent n = false
  /-- "`CUR = ROOT`, or `CUR` is an internal node that is a proper descendant of `ROOT`" -/
  cur : s.phase ≠ .load → s.cur = s.root ∨
    ∃ n m p, s.root = some n ∧ s.cur = some m ∧ p ≠ [] ∧ s.follow n p = some m ∧
      s.allocated m = true ∧ s.isLeaf m = false
  tree : s.phase = .tree → s.bits = [] ∧ ∀ c ∈ s.code, c = []
  /-- "`ROOT = NIL` is possible only when the session's `BUILD` found `NSYM = 0`": then no node exists. -/
  noRoot : s.phase ≠ .load → s.root = none → s.ft = [] ∧ s.leaves = [] ∧ s.inners = []

/-- The code invariant, in phase `CODE` (10_state.md R44). -/
structure CodeInv (s : State) : Prop where
  /-- "`CODE[i].len ≥ 1` exactly for the leaves `i` that are descendants of `ROOT`" -/
  covered : s.phase = .code → ∀ i,
    (s.codeAt i ≠ [] ↔ i < s.nleaf ∧ ∃ n p, s.root = some n ∧ s.follow n p = some i)
  /-- "`CODE[i].bits` is the path from `ROOT` to `i`" -/
  path : s.phase = .code → ∀ i, s.codeAt i ≠ [] → ∃ n, s.root = some n ∧ s.follow n (s.codeAt i) = some i
  /-- "no code is a prefix of another" -/
  prefixFree : s.phase = .code → ∀ i j, i ≠ j → s.codeAt i ≠ [] → s.codeAt j ≠ [] →
    ¬ s.codeAt i <+: s.codeAt j
  /-- "`CODE[i].len ≤ max(1, NLEAF - 1) ≤ S`" -/
  length : s.phase = .code → ∀ i, s.codeAt i ≠ [] →
    (s.codeAt i).length ≤ max 1 (s.nleaf - 1) ∧ max 1 (s.nleaf - 1) ≤ s.params.maxSyms

/-- "`BITS` is always a concatenation of whole codes of that tree" (45_decoder.md R196). -/
def BitsInv (s : State) : Prop :=
  ∃ ids : List Nat, (∀ i ∈ ids, s.codeAt i ≠ []) ∧ s.bits = ids.flatMap s.codeAt

/-- The structural invariants: what 10_state.md R38 to R43 say together, on legal parameters. -/
structure Structural (s : State) : Prop where
  params : s.params.Legal
  memory : Memory.wf s
  frequency : FrequencyInv s
  heap : HeapInv s
  queue : QueueInv s
  tree : TreeInv s
  leaf : LeafInv s
  phase : PhaseInv s

/-- All the invariants of 10_state.md section 5, with 45_decoder.md R196 and 10_state.md R22. -/
structure Inv (s : State) : Prop where
  structural : Structural s
  code : CodeInv s
  bits : BitsInv s
  symbols : SymbolsFit s
  faultInfo : FaultInfoInv s

end Sys2Proof.Machine
end

