-- ==== Sys2Proof/Certificates/Slice0/Obligations.lean ====
section
/-! DEFINITION. The statements about the CORE, each from the numbered rules of spec/ that its docstring names. -/

open Sys2Proof Sys2Proof.Machine

/-! ### Encoding (30_encoding.md) -/

/-- No bit of an encoding is dropped: for every symbol width, the word of a well-formed command decodes to that
command, with every operand at every value the encoding admits (30_encoding.md R80 to R82, R91). -/
def Obligations.DecodeOfEncode : Prop :=
  ∀ (symW : Nat) (i : Instr), i.WellFormed symW = true → decode symW (encode i) = .ok i

/-- Each legal word has one meaning: a word that decodes is the word of the well-formed command it decodes to
(30_encoding.md R80, R86). Hence `FINFO`, written with the command's word (log 8), holds the word taken. -/
def Obligations.EncodeOfDecode : Prop :=
  ∀ (symW : Nat) (w : Word) (i : Instr), decode symW w = .ok i → encode i = w ∧ i.WellFormed symW = true

/-- 30_encoding.md R86: the legal words are exactly those of the 29 rows of the opcode map with their must-be-zero
bits clear, for every legal symbol width. -/
def Obligations.LegalWordsAreTheRowsOfTheMap : Prop :=
  ∀ (symW : Nat) (w : Word), symW ≤ 24 →
    ((∃ i, decode symW w = .ok i) ↔ ∃ row ∈ opcodeRows symW, w &&& row.mask = row.fixedBits)

/-- 30_encoding.md R80 to R83: the word of each of the 29 commands is `opcode << 24 | arg`, every operand at its place in
`arg` and every other bit 0. -/
def Obligations.EncodingOfEveryCommand : Prop :=
  encode .nop = 0x00000000#32 ∧ encode .clr = 0x01000000#32 ∧ encode .pqext = 0x21000000#32 ∧
    encode .pqsize = 0x22000000#32 ∧ encode .build = 0x30000000#32 ∧ encode .merge = 0x31000000#32 ∧
    encode .finish = 0x32000000#32 ∧ encode .gen = 0x40000000#32 ∧ encode .enc = 0x50000000#32 ∧
    encode .encinit = 0x52000000#32 ∧ encode .dec = 0x60000000#32 ∧ encode .decinit = 0x61000000#32 ∧
    encode (.decb false) = 0x62000000#32 ∧ encode (.decb true) = 0x62000001#32 ∧
    (∀ x : Symbol, encode (.sym x) = 0x10000000#32 ||| x.setWidth 32 ∧
      encode (.mkleaf x) = 0x12000000#32 ||| x.setWidth 32 ∧
      encode (.lookup x) = 0x41000000#32 ||| x.setWidth 32 ∧ encode (.encs x) = 0x51000000#32 ||| x.setWidth 32) ∧
    (∀ i : BitVec 24, encode (.rdreg i) = 0x02000000#32 ||| i.setWidth 32 ∧
      encode (.setw i) = 0x11000000#32 ||| i.setWidth 32 ∧ encode (.pqins i) = 0x20000000#32 ||| i.setWidth 32 ∧
      encode (.rdclen i) = 0x42000000#32 ||| i.setWidth 32 ∧ encode (.rdbits i) = 0x53000000#32 ||| i.setWidth 32 ∧
      encode (.rdout i) = 0x63000000#32 ||| i.setWidth 32 ∧ encode (.rdtxt i) = 0x70000000#32 ||| i.setWidth 32 ∧
      encode (.rdfsym i) = 0x71000000#32 ||| i.setWidth 32 ∧ encode (.rdfcnt i) = 0x72000000#32 ||| i.setWidth 32 ∧
      encode (.rdheap i) = 0x74000000#32 ||| i.setWidth 32) ∧
    (∀ i w : BitVec 12, encode (.rdcode i w) = 0x43000000#32 ||| (w.setWidth 32 <<< 12) ||| i.setWidth 32) ∧
    ∀ (n : BitVec 16) (f : BitVec 3),
      encode (.rdnode n f) = 0x73000000#32 ||| (f.setWidth 32 <<< 16) ||| n.setWidth 32

/-- Words that the rules of every family write out (30_encoding.md R91; 40_load_frequency.md R104;
46_result_readout.md R217) decode to the commands they stand for. -/
def Obligations.WordsOfTheSpecDecode : Prop :=
  decode 21 0x00000000#32 = .ok .nop ∧ decode 21 0x10000061#32 = .ok (.sym 0x61#24) ∧
    decode 21 0x12000078#32 = .ok (.mkleaf 0x78#24) ∧ decode 21 0x20000001#32 = .ok (.pqins 1#24) ∧
    decode 21 0x31000000#32 = .ok .merge ∧ decode 21 0x43001003#32 = .ok (.rdcode 3#12 1#12) ∧
    decode 21 0x51000063#32 = .ok (.encs 0x63#24) ∧ decode 21 0x62000001#32 = .ok (.decb true) ∧
    decode 21 0x73020008#32 = .ok (.rdnode 8#16 2#3) ∧ decode 21 0x101FFFFF#32 = .ok (.sym 0x1FFFFF#24) ∧
    decode 21 0x10200000#32 = .error (.mustBeZero 0x200000#24) ∧
    decode 21 0x75000000#32 = .error (.unassignedOpcode 0x75#8)

/-! ### One step (00_scope.md R9; 30_encoding.md R84, R87, R88) -/

/-- A step on a command word that decodes is the meaning of the command, in the state with the word taken. -/
def Obligations.StepRunsTheDecodedCommand : Prop :=
  ∀ (s : State) (w : Word) (rest : List HostAction) (i : Instr), s.input = .command w :: rest →
    decode s.params.symW w = .ok i → step s = exec i { s with input := rest }

/-- 60_exceptions.md R242 and 30_encoding.md R87: an illegal word raises `F_ILLCMD` with `FINFO` the word; when the
CORE is faulted it is refused. -/
def Obligations.IllegalWordFaultsOrIsRefused : Prop :=
  ∀ (s : State) (w : Word) (rest : List HostAction) (e : Illegal), s.input = .command w :: rest →
    decode s.params.symW w = .error e →
    (s.fault = none → step s = .next { s with
      input := rest
      fault := some .illcmd
      finfo := w
      responses := { status := .fault, data := 1#32 } :: s.responses }) ∧
    (∀ f, s.fault = some f → step s = .next { s with
      input := rest
      responses := { status := .refused, data := natData f.toNat } :: s.responses })

/-- 70_reset_and_hazards.md R271: a reset between two commands gives the reset state of the same hardware and no
response. With no host action pending a step changes nothing (log 2). -/
def Obligations.ResetActionAndSilence : Prop :=
  (∀ (s : State) (rest : List HostAction), s.input = .reset :: rest →
    step s = .next { State.resetOf s.params with input := rest, responses := s.responses }) ∧
  ∀ s : State, s.input = [] → step s = .next s

/-- 30_encoding.md R84: a command taken is answered by exactly one response; `NONE` carries `0xFFFFFFFF` and leaves
`FAULT` unchanged; `FAULT` means this command raised a fault, whose code is the data; `REFUSED` means the CORE was
already faulted, nothing changed, and the data is the value of `FAULT`. -/
def Obligations.EveryCommandIsAnsweredOnce : Prop :=
  ∀ (s t : State) (w : Word) (rest : List HostAction), s.input = .command w :: rest → step s = .next t →
    ∃ r : Response, t.responses = r :: s.responses ∧ t.input = rest ∧
      (r.status = .ok → t.fault = none ∨ t.fault = s.fault) ∧
      (r.status = .none → r.data = allOnes ∧ t.fault = s.fault) ∧
      (r.status = .fault → s.fault = none ∧ ∃ f, r.data = natData f.toNat ∧
        t = { s with input := rest, fault := some f, finfo := w, responses := r :: s.responses }) ∧
      (r.status = .refused → ∃ f, s.fault = some f ∧ r.data = natData f.toNat ∧
        t = { s with input := rest, responses := r :: s.responses })

/-! ### Faults (60_exceptions.md) -/

/-- 60_exceptions.md R246, R247: for every command, a fault it raises leaves every register and memory as it was,
but for `FAULT` and `FINFO`, and is answered `(FAULT, F)`. -/
def Obligations.FaultEntryIsPrecise : Prop :=
  ∀ (i : Instr) (s t : State) (f : FaultCode), s.fault = none → exec i s = .next t → t.fault = some f →
    t = { s with
      fault := some f
      finfo := encode i
      responses := { status := .fault, data := natData f.toNat } :: s.responses }

/-- 60_exceptions.md R248: while faulted, every command but the read-class ones, `NOP` and `CLR` is answered
`(REFUSED, FAULT)` and changes nothing. -/
def Obligations.FaultedCoreRefuses : Prop :=
  ∀ (i : Instr) (s : State) (f : FaultCode), s.fault = some f → readClass i = false → i ≠ .nop → i ≠ .clr →
    exec i s = .next { s with responses := { status := .refused, data := natData f.toNat } :: s.responses }

/-- 60_exceptions.md R248, R250: `FAULT` and `FINFO` describe the first fault until `CLR` or reset: a step from a
faulted state keeps both, or takes a reset or the word of `CLR` and ends unfaulted. -/
def Obligations.FirstFaultIsKept : Prop :=
  ∀ (s t : State) (f : FaultCode), s.fault = some f → step s = .next t →
    (t.fault = some f ∧ t.finfo = s.finfo) ∨
      (t.fault = none ∧ t.finfo = 0#32 ∧
        ∃ rest, s.input = .reset :: rest ∨ s.input = .command 0x01000000#32 :: rest)

/-- 70_reset_and_hazards.md R276, 60_exceptions.md R244: outside its phases a command raises `F_SEQ`, and so does
`BUILD` where nodes or queue entries exist; nothing else raises `F_SEQ`; and a command that raises no fault leaves
the phase of the table's last column. -/
def Obligations.PhaseTableIsEnforced : Prop :=
  ∀ (i : Instr) (s : State), s.fault = none →
    ((legalIn i s.phase = false ∨ (i = .build ∧ (s.leaves ≠ [] ∨ s.inners ≠ [] ∨ s.heap ≠ []))) →
      exec i s = .next (s.raiseFault (encode i) .seq)) ∧
    ∀ t, exec i s = .next t →
      (t.fault = some .seq →
        legalIn i s.phase = false ∨ (i = .build ∧ (s.leaves ≠ [] ∨ s.inners ≠ [] ∨ s.heap ≠ []))) ∧
      (t.fault = none → t.phase = phaseAfter i s.phase)

/-! ### Read-class commands (20_memory.md R67; 46_result_readout.md) -/

/-- 20_memory.md R67: a read-class command, faulted or not, changes no register and no memory; it gives one response,
`OK` or `NONE`. -/
def Obligations.ReadCommandsChangeNothing : Prop :=
  ∀ (i : Instr) (s : State), readClass i = true →
    ∃ r : Response, exec i s = .next { s with responses := r :: s.responses } ∧
      (r.status = .ok ∨ r = { status := .none, data := 0xFFFFFFFF#32 })

/-- 46_result_readout.md R212 with the numbers of 10_state.md R22 and R24: what `RDREG r` answers, for every `r`, in
every state. -/
def Obligations.RdregAnswersByNumber : Prop :=
  ∀ (r : BitVec 24) (s : State) (d : Word),
    (([(0, s.status), (1, natData s.phase.toNat), (2, faultData s.fault), (3, s.finfo), (4, natData s.tlen),
        (5, natData s.nsym), (6, natData s.nleaf), (7, natData s.nint), (8, natData s.hsize),
        (9, nodeData s.root), (10, nodeData s.cur)] ++
      [(11, natData s.blen), (12, natData s.olen), (13, s.wreg), (14, natData (s.tlen * 8)), (15, natData s.blen),
        (16, natData s.params.symW), (17, natData s.params.maxSyms), (18, natData s.params.maxLen),
        (19, natData s.params.maxBits), (20, 0x48430001#32)] : List (Nat × Word)).lookup r.toNat = some d →
      exec (.rdreg r) s = .next (s.respond (okData d))) ∧
    (21 ≤ r.toNat → exec (.rdreg r) s = .next (s.respond noneData))

/-- 10_state.md R25: the bits of `STATUS`, and its value after reset. -/
def Obligations.StatusWordBits : Prop :=
  (∀ p : Params, (State.resetOf p).status = 0x00000048#32) ∧ ∀ s : State,
    (s.status.getLsbD 0 = true ↔ s.fault ≠ none) ∧
    (s.status.extractLsb' 1 2).toNat = s.phase.toNat ∧
    (s.status.getLsbD 3 = true ↔ s.hsize = 0) ∧
    (s.status.getLsbD 4 = true ↔ s.root ≠ none) ∧
    (s.status.getLsbD 5 = true ↔ s.cur ≠ s.root) ∧
    (s.status.getLsbD 6 = true ↔ s.olen = s.tlen ∧ ∀ i, i < s.tlen → s.out[i]? = s.txt[i]?) ∧
    s.status.extractLsb' 7 25 = 0#25

/-- 46_result_readout.md R214, R215, R216, R218 and 45_decoder.md R199: the answers of `RDTXT`, `RDFSYM`, `RDFCNT`,
`RDHEAP` and `RDOUT`, in every state. -/
def Obligations.ElementReadsAnswer : Prop :=
  ∀ (i : BitVec 24) (s : State),
    (∀ x, s.txt[i.toNat]? = some x → exec (.rdtxt i) s = .next (s.respond (okData (x.setWidth 32)))) ∧
    (s.tlen ≤ i.toNat → exec (.rdtxt i) s = .next (s.respond noneData)) ∧
    (∀ e, s.ft[i.toNat]? = some e → exec (.rdfsym i) s = .next (s.respond (okData (e.sym.setWidth 32)))) ∧
    (s.nsym ≤ i.toNat → exec (.rdfsym i) s = .next (s.respond noneData)) ∧
    (∀ e, s.ft[i.toNat]? = some e → exec (.rdfcnt i) s = .next (s.respond (okData e.count))) ∧
    (s.nsym ≤ i.toNat → exec (.rdfcnt i) s = .next (s.respond noneData)) ∧
    (∀ n, s.heap[i.toNat]? = some n → exec (.rdheap i) s = .next (s.respond (okData (natData n)))) ∧
    (s.hsize ≤ i.toNat → exec (.rdheap i) s = .next (s.respond noneData)) ∧
    (∀ x, s.out[i.toNat]? = some x → exec (.rdout i) s = .next (s.respond (okData (x.setWidth 32)))) ∧
    (s.olen ≤ i.toNat → exec (.rdout i) s = .next (s.respond noneData))

/-- 46_result_readout.md R217: the answers of `RDNODE n, f`, for every node index and selector, in every state. -/
def Obligations.RdnodeAnswersFields : Prop :=
  ∀ (n : BitVec 16) (f : BitVec 3) (s : State),
    (s.allocated n.toNat = false → exec (.rdnode n f) s = .next (s.respond noneData)) ∧
    (4 < f.toNat → exec (.rdnode n f) s = .next (s.respond noneData)) ∧
    (∀ r, s.leafAt n.toNat = some r →
      exec (.rdnode n 0#3) s = .next (s.respond (okData 0#32)) ∧
      exec (.rdnode n 1#3) s = .next (s.respond (okData (r.sym.setWidth 32))) ∧
      exec (.rdnode n 2#3) s = .next (s.respond (okData r.weight)) ∧
      exec (.rdnode n 3#3) s = .next (s.respond noneData) ∧
      exec (.rdnode n 4#3) s = .next (s.respond noneData)) ∧
    (∀ r, s.innerAt n.toNat = some r →
      exec (.rdnode n 0#3) s = .next (s.respond (okData 1#32)) ∧
      exec (.rdnode n 1#3) s = .next (s.respond noneData) ∧
      exec (.rdnode n 2#3) s = .next (s.respond (okData r.weight)) ∧
      exec (.rdnode n 3#3) s = .next (s.respond (okData (natData r.left))) ∧
      (∀ c, r.right = some c → exec (.rdnode n 4#3) s = .next (s.respond (okData (natData c)))) ∧
      (r.right = none → exec (.rdnode n 4#3) s = .next (s.respond noneData)))

/-! ### System commands (47_system.md) -/

/-- 47_system.md R230: `NOP` responds `(OK, 0)` in every state and changes nothing. -/
def Obligations.NopDoesNothing : Prop :=
  ∀ s : State, exec .nop s = .next { s with responses := { status := .ok, data := 0#32 } :: s.responses }

/-- 47_system.md R231, 10_state.md R47: `CLR`, faulted or not, leaves every register at its reset value, every memory
without a valid element and every `CODE[i].len` 0: the state that reset leaves, with the same parameters, and responds
`(OK, 0)`. -/
def Obligations.ClrDiscardsTheSession : Prop :=
  ∀ s : State, ∃ t : State, exec .clr s = .next t ∧
    t.phase = .load ∧ t.fault = none ∧ t.finfo = 0#32 ∧ t.tlen = 0 ∧ t.nsym = 0 ∧ t.nleaf = 0 ∧ t.nint = 0 ∧
    t.hsize = 0 ∧ t.root = none ∧ t.cur = none ∧ t.blen = 0 ∧ t.olen = 0 ∧ t.wreg = 0#32 ∧
    t.code.length = s.params.maxSyms ∧ (∀ i, t.codeAt i = []) ∧ t.status = 0x00000048#32 ∧ t.faultOut = false ∧
    t = { State.resetOf s.params with
      input := s.input
      responses := { status := .ok, data := 0#32 } :: s.responses }

/-- 70_reset_and_hazards.md R270, 10_state.md R47, R25: what reset leaves, for every parameters. -/
def Obligations.ResetLeavesTheZeroState : Prop :=
  ∀ p : Params, ∃ s : State, s = State.resetOf p ∧ s.params = p ∧
    s.phase = .load ∧ s.fault = none ∧ s.finfo = 0#32 ∧ s.tlen = 0 ∧ s.nsym = 0 ∧ s.nleaf = 0 ∧ s.nint = 0 ∧
    s.hsize = 0 ∧ s.root = none ∧ s.cur = none ∧ s.blen = 0 ∧ s.olen = 0 ∧ s.wreg = 0#32 ∧
    s.code.length = p.maxSyms ∧ (∀ i, s.codeAt i = []) ∧ s.faultOut = false ∧ s.status = 0x00000048#32

/-! ### Loading (40_load_frequency.md) -/

/-- 40_load_frequency.md R100: `SYM s`, every case, checks in order. -/
def Obligations.SymAppendsAndCounts : Prop :=
  ∀ (x : Symbol) (s : State), s.fault = none →
    (s.phase ≠ .load → exec (.sym x) s = .next (s.raiseFault (encode (.sym x)) .seq)) ∧
    (s.phase = .load → s.params.maxLen ≤ s.tlen →
      exec (.sym x) s = .next (s.raiseFault (encode (.sym x)) .cap)) ∧
    (s.phase = .load → s.tlen < s.params.maxLen → (∀ e ∈ s.ft, e.sym ≠ x) → s.params.maxSyms ≤ s.nsym →
      exec (.sym x) s = .next (s.raiseFault (encode (.sym x)) .cap)) ∧
    (s.phase = .load → s.tlen < s.params.maxLen → (∀ e ∈ s.ft, e.sym ≠ x) → s.nsym < s.params.maxSyms →
      exec (.sym x) s = .next ({ s with
        txt := s.txt ++ [x]
        ft := s.ft ++ [FreqEntry.mk x 1#32] }.respond (okData (natData s.nsym)))) ∧
    (∀ (j : Nat) (e : FreqEntry), s.phase = .load → s.tlen < s.params.maxLen → s.ft[j]? = some e → e.sym = x →
      (∀ e' ∈ s.ft.take j, e'.sym ≠ x) →
      exec (.sym x) s = .next ({ s with
        txt := s.txt ++ [x]
        ft := s.ft.set j (FreqEntry.mk x (e.count + 1#32)) }.respond (okData (natData j))))

/-- 40_load_frequency.md R102: `SETW imm` writes `zext_32(imm)` to `WREG`, in every phase, and nothing else. -/
def Obligations.SetwWritesTheWeightOperand : Prop :=
  ∀ (imm : BitVec 24) (s : State), s.fault = none →
    exec (.setw imm) s =
      .next ({ s with wreg := imm.setWidth 32 }.respond (okData (imm.setWidth 32)))

/-- 40_load_frequency.md R104: `MKLEAF s`, every case: `F_SEQ`, `F_DUP`, `F_CAP` in that order. -/
def Obligations.MkleafAllocatesALeaf : Prop :=
  ∀ (x : Symbol) (s : State), s.fault = none →
    (s.phase ≠ .load → exec (.mkleaf x) s = .next (s.raiseFault (encode (.mkleaf x)) .seq)) ∧
    (s.phase = .load → (∃ r ∈ s.leaves, r.sym = x) →
      exec (.mkleaf x) s = .next (s.raiseFault (encode (.mkleaf x)) .dup)) ∧
    (s.phase = .load → (∀ r ∈ s.leaves, r.sym ≠ x) → s.params.maxSyms ≤ s.nleaf →
      exec (.mkleaf x) s = .next (s.raiseFault (encode (.mkleaf x)) .cap)) ∧
    (s.phase = .load → (∀ r ∈ s.leaves, r.sym ≠ x) → s.nleaf < s.params.maxSyms →
      exec (.mkleaf x) s = .next ({ s with
        leaves := s.leaves ++ [LeafNode.mk x s.wreg] }.respond (okData (natData s.nleaf))))

/-! ### The priority queue (41_priority_queue.md) -/

/-- 41_priority_queue.md R110, R111: `PQINS n`, every case. The node is appended and sifted up, nothing else changes, and
the heap order is kept. -/
def Obligations.PqinsInsertsTheNode : Prop :=
  ∀ (n : BitVec 24) (s : State), s.fault = none →
    (s.phase ≠ .load → exec (.pqins n) s = .next (s.raiseFault (encode (.pqins n)) .seq)) ∧
    (s.phase = .load →
      (s.allocated n.toNat = false ∨ s.inQueue n.toNat = true ∨ s.hasParent n.toNat = true) →
      exec (.pqins n) s = .next (s.raiseFault (encode (.pqins n)) .node)) ∧
    (s.phase = .load → s.allocated n.toNat = true → s.inQueue n.toNat = false → s.hasParent n.toNat = false →
      s.params.maxSyms ≤ s.hsize → exec (.pqins n) s = .next (s.raiseFault (encode (.pqins n)) .cap)) ∧
    (s.phase = .load → s.allocated n.toNat = true → s.inQueue n.toNat = false → s.hasParent n.toNat = false →
      s.hsize < s.params.maxSyms → (∀ m ∈ n.toNat :: s.heap, s.hasRecord m = true) →
      ∃ h : List Nat,
        exec (.pqins n) s = .next ({ s with heap := h }.respond (okData (natData (s.hsize + 1)))) ∧
        Inserts s.weigh s.heap n.toNat h ∧ h.Perm (n.toNat :: s.heap) ∧
        (HeapInv s → HeapInv { s with heap := h }))

/-- 41_priority_queue.md R112, R114, 10_state.md R39: `PQEXT`, every case. The node at the root leaves the queue by the
rule's swap and sift, nothing else changes, the heap order is kept, and where it holds the node's weight is a minimum of
the queue. -/
def Obligations.PqextExtractsTheMinimum : Prop :=
  ∀ s : State, s.fault = none →
    (s.phase ≠ .load → exec .pqext s = .next (s.raiseFault (encode .pqext) .seq)) ∧
    (s.phase = .load → s.heap = [] → exec .pqext s = .next (s.respond noneData)) ∧
    (∀ m : Nat, s.phase = .load → s.heap.head? = some m → (∀ n ∈ s.heap, s.hasRecord n = true) →
      ∃ h : List Nat, exec .pqext s = .next ({ s with heap := h }.respond (okData (natData m))) ∧
        Extracts s.weigh s.heap h ∧ (m :: h).Perm s.heap ∧
        (HeapInv s → HeapInv { s with heap := h } ∧ ∀ n ∈ s.heap, s.weigh m ≤ s.weigh n))

/-- 41_priority_queue.md R116: `PQSIZE` answers the number of queued nodes, in every state, as `RDREG HSIZE` does; in
phases `TREE` and `CODE` the answer is 0. -/
def Obligations.PqsizeAnswersTheSize : Prop :=
  ∀ s : State, exec .pqsize s = .next (s.respond (okData (natData s.hsize))) ∧
    exec (.rdreg 8#24) s = exec .pqsize s ∧
    (Structural s → s.phase ≠ .load → exec .pqsize s = .next (s.respond (okData 0#32)))

/-- 41_priority_queue.md R118, use as a sorter: `k` distinct loose nodes inserted with `PQINS` into an empty queue, then
`k` `PQEXT` commands: they answer those nodes in an order of non-decreasing weight, and the queue is empty again. -/
def Obligations.QueueSorts : Prop :=
  ∀ (s : State) (ns : List Nat), Structural s → s.fault = none → s.phase = .load → s.heap = [] → ns.Nodup →
    (∀ n ∈ ns, s.allocated n = true ∧ s.hasParent n = false) → ns.length ≤ s.params.maxSyms →
    ∃ ms : List Nat, ms.Perm ns ∧ (ms.map s.weigh).Pairwise (· ≤ ·) ∧
      execAll (ns.map (fun n => .pqins (BitVec.ofNat 24 n)) ++ List.replicate ns.length .pqext) s = some { s with
        responses := (ms.map fun n => okData (natData n)).reverse ++
          ((List.range ns.length).map fun k => okData (natData (k + 1))).reverse ++ s.responses }

/-! ### The tree builder (42_tree_builder.md) -/

/-- 42_tree_builder.md R134, R132, R131: `MERGE`, every case. It extracts two minimal nodes `a` then `b`, makes the
internal node with left child `a`, right child `b` and the sum of their weights, and inserts it; nothing else changes,
and the heap order is kept. -/
def Obligations.MergeJoinsTheTwoLightest : Prop :=
  ∀ s : State, s.fault = none →
    (s.phase ≠ .load → exec .merge s = .next (s.raiseFault (encode .merge) .seq)) ∧
    (s.phase = .load → s.hsize < 2 → exec .merge s = .next (s.raiseFault (encode .merge) .pq)) ∧
    (s.phase = .load → 2 ≤ s.hsize → s.hsize ≤ s.params.maxSyms → (∀ n ∈ s.heap, s.hasRecord n = true) →
      ∃ (a b : Nat) (h1 h2 h3 : List Nat), s.heap.head? = some a ∧ Extracts s.weigh s.heap h1 ∧
        h1.head? = some b ∧ Extracts s.weigh h1 h2 ∧ (a :: b :: h2).Perm s.heap ∧
        (HeapInv s → s.weigh a ≤ s.weigh b ∧ ∀ n ∈ h2, s.weigh b ≤ s.weigh n) ∧
        (s.params.maxSyms ≤ s.nint → exec .merge s = .next (s.raiseFault (encode .merge) .cap)) ∧
        (s.nint < s.params.maxSyms → 2 ^ 32 ≤ s.weigh a + s.weigh b →
          exec .merge s = .next (s.raiseFault (encode .merge) .wovf)) ∧
        (s.nint < s.params.maxSyms → s.weigh a + s.weigh b < 2 ^ 32 →
          ∃ t : State,
            t = { s with
              inners := s.inners ++ [InnerNode.mk (BitVec.ofNat 32 (s.weigh a + s.weigh b)) a (some b)]
              heap := h3 } ∧
            exec .merge s = .next (t.respond (okData (natData (s.params.maxSyms + s.nint)))) ∧
            t.weigh (s.params.maxSyms + s.nint) = s.weigh a + s.weigh b ∧
            Inserts t.weigh h2 (s.params.maxSyms + s.nint) h3 ∧ (HeapInv s → HeapInv t)))

/-- 42_tree_builder.md R137: `FINISH`, every case: a last node that is a leaf is wrapped, an internal one is taken as
it is. -/
def Obligations.FinishTakesTheRoot : Prop :=
  ∀ s : State, s.fault = none →
    (s.phase ≠ .load → exec .finish s = .next (s.raiseFault (encode .finish) .seq)) ∧
    (s.phase = .load → s.hsize ≠ 1 → exec .finish s = .next (s.raiseFault (encode .finish) .pq)) ∧
    (∀ (x : Nat) (r : LeafNode), s.phase = .load → s.heap = [x] → s.leafAt x = some r →
      (s.params.maxSyms ≤ s.nint → exec .finish s = .next (s.raiseFault (encode .finish) .cap)) ∧
      (s.nint < s.params.maxSyms →
        exec .finish s = .next ({ s with
          inners := s.inners ++ [InnerNode.mk r.weight x none]
          heap := []
          root := some (s.params.maxSyms + s.nint)
          cur := some (s.params.maxSyms + s.nint)
          phase := .tree }.respond (okData (natData (s.params.maxSyms + s.nint)))))) ∧
    (∀ (x : Nat) (r : InnerNode), s.phase = .load → s.heap = [x] → s.innerAt x = some r →
      exec .finish s = .next ({ s with
        heap := []
        root := some x
        cur := some x
        phase := .tree }.respond (okData (natData x))))

/-- 42_tree_builder.md R130, R142 and 10_state.md R45: `BUILD` completes on every frequency table a text gives. An
empty one gives `ROOT = NIL` and `NONE`; one entry gives a leaf and its wrapper; `k ≥ 2` entries give `k` leaves in
`FT` order and `k - 1` internal nodes, the last of them the root, whose weight is `TLEN`. Text, table, `WREG`, `CODE`,
`BITS` and `OUT` are unchanged. -/
def Obligations.BuildMakesTheTree : Prop :=
  ∀ s : State, Structural s → s.fault = none → s.phase = .load → s.leaves = [] → s.inners = [] → s.heap = [] →
    (s.ft = [] → exec .build s = .next ({ s with root := none, cur := none, phase := .tree }.respond noneData)) ∧
    (∀ e, s.ft = [e] → exec .build s = .next ({ s with
      leaves := [LeafNode.mk e.sym e.count]
      inners := [InnerNode.mk e.count 0 none]
      root := some s.params.maxSyms
      cur := some s.params.maxSyms
      phase := .tree }.respond (okData (natData s.params.maxSyms)))) ∧
    (2 ≤ s.nsym → ∃ (nodes : List InnerNode) (t : State),
      t = { s with
        leaves := s.ft.map fun e => LeafNode.mk e.sym e.count
        inners := nodes
        root := some (s.params.maxSyms + s.nsym - 2)
        cur := some (s.params.maxSyms + s.nsym - 2)
        phase := .tree } ∧
      exec .build s = .next (t.respond (okData (natData (s.params.maxSyms + s.nsym - 2)))) ∧
      nodes.length = s.nsym - 1 ∧ (∀ r ∈ nodes, r.right ≠ none) ∧ TreeInv t ∧
      t.weigh (s.params.maxSyms + s.nsym - 2) = s.tlen)

/-- 42_tree_builder.md R141: `BUILD` is the same as making and inserting the leaves by hand in `FT` order, merging while
more than one node is queued, and `FINISH`; the two ways differ in `WREG` and in the responses given. -/
def Obligations.BuildIsTheManualFlow : Prop :=
  ∀ s t : State, Structural s → s.fault = none → s.phase = .load → s.leaves = [] → s.inners = [] → s.heap = [] →
    s.ft ≠ [] → exec .build s = .next t →
    ∃ u : State,
      execAll
        ((s.ft.mapIdx fun i e => [.setw (e.count.setWidth 24), .mkleaf e.sym, .pqins (BitVec.ofNat 24 i)]).flatten ++
          List.replicate (s.nsym - 1) .merge ++ [.finish]) s = some u ∧
      t = { u with wreg := s.wreg, responses := okData (nodeData u.root) :: s.responses }

/-- 42_tree_builder.md R142: capacity `F_CAP` is never raised by `PQINS`, `MERGE`, `FINISH` or `BUILD`: there are never
more internal nodes than leaves, and the queue is never full when a node is inserted. -/
def Obligations.BuilderNeverExceedsCapacity : Prop :=
  ∀ (i : Instr) (s t : State), Structural s → s.fault = none → exec i s = .next t →
    s.nint ≤ s.nleaf ∧
    ((∃ n, i = .pqins n) ∨ i = .merge ∨ i = .finish ∨ i = .build → t.fault ≠ some .cap)

/-- 10_state.md R45: "In general `weight(ROOT)` is the sum of the weights of the leaves below `ROOT`." -/
def Obligations.RootWeighsItsLeaves : Prop :=
  ∀ (s : State) (n : Nat), Structural s → s.root = some n → s.weigh n = s.weightBelow (s.nint + 1) n

/-! ### The code table (43_code_table.md) -/

/-- 43_code_table.md R150, R151: `GEN`, every case. Leaf `i` gets the path from `ROOT` to it, 0 left and 1 right, a leaf
not below `ROOT` gets no code, the answer counts the codes, and nothing else but `PHASE` changes. -/
def Obligations.GenWritesTheRootToLeafPaths : Prop :=
  ∀ s : State, Structural s → s.fault = none →
    (s.phase ≠ .tree → exec .gen s = .next (s.raiseFault (encode .gen) .seq)) ∧
    (s.phase = .tree → s.root = none →
      exec .gen s = .next ({ s with phase := .code }.respond (okData 0#32))) ∧
    (∀ n, s.phase = .tree → s.root = some n →
      ∃ table : List BitString,
        exec .gen s = .next ({ s with code := table, phase := .code }.respond
          (okData (natData (table.countP (· ≠ []))))) ∧
        table.length = s.params.maxSyms ∧
        ∀ i, i < s.params.maxSyms →
          (∀ p, s.follow n p = some i → table[i]? = some p) ∧
          ((∀ p, s.follow n p ≠ some i) → table[i]? = some []))

/-- 43_code_table.md R153, R155: the answers of `LOOKUP` and `RDCLEN`, in every state. -/
def Obligations.LookupAndCodeLengthAnswer : Prop :=
  ∀ s : State,
    (∀ x : Symbol,
      (∀ i, s.findLeaf x = some i → s.codeAt i ≠ [] →
        exec (.lookup x) s = .next (s.respond (okData (natData i)))) ∧
      (∀ i, s.findLeaf x = some i → s.codeAt i = [] → exec (.lookup x) s = .next (s.respond noneData)) ∧
      (s.findLeaf x = none → exec (.lookup x) s = .next (s.respond noneData))) ∧
    (∀ i : BitVec 24,
      (s.nleaf ≤ i.toNat → exec (.rdclen i) s = .next (s.respond noneData)) ∧
      (i.toNat < s.nleaf →
        exec (.rdclen i) s = .next (s.respond (okData (natData (s.codeAt i.toNat).length)))))

/-- 43_code_table.md R157, 44_encoder.md R177, 20_memory.md R63: the answers of `RDCODE` and `RDBITS`: window `w` has
string bit `32w + b` at data bit `b`, and 0 beyond the end of the string; in every state. -/
def Obligations.WindowsCarryTheStringBits : Prop :=
  ∀ s : State,
    (∀ i w : BitVec 12,
      (s.nleaf ≤ i.toNat ∨ (s.codeAt i.toNat).length ≤ 32 * w.toNat →
        exec (.rdcode i w) s = .next (s.respond noneData)) ∧
      (i.toNat < s.nleaf → 32 * w.toNat < (s.codeAt i.toNat).length →
        ∃ d : Word, exec (.rdcode i w) s = .next (s.respond (okData d)) ∧
          ∀ b, b < 32 → d.getLsbD b = ((s.codeAt i.toNat)[32 * w.toNat + b]?).getD false)) ∧
    (∀ w : BitVec 24,
      (s.blen ≤ 32 * w.toNat → exec (.rdbits w) s = .next (s.respond noneData)) ∧
      (32 * w.toNat < s.blen →
        ∃ d : Word, exec (.rdbits w) s = .next (s.respond (okData d)) ∧
          ∀ b, b < 32 → d.getLsbD b = (s.bits[32 * w.toNat + b]?).getD false))

/-! ### The encoder (44_encoder.md) -/

/-- 44_encoder.md R170: `ENCINIT`, every case. -/
def Obligations.EncinitEmptiesTheStream : Prop :=
  ∀ s : State, s.fault = none →
    (s.phase ≠ .code → exec .encinit s = .next (s.raiseFault (encode .encinit) .seq)) ∧
    (s.phase = .code → exec .encinit s = .next ({ s with bits := [] }.respond (okData 0#32)))

/-- 44_encoder.md R173, R172: `ENCS s`, every case: `F_SEQ`, `F_NOSYM`, `F_CAP` in that order, else the symbol's code is
appended to the bitstream and its length answered. -/
def Obligations.EncsAppendsTheCode : Prop :=
  ∀ (x : Symbol) (s : State), s.fault = none →
    (s.phase ≠ .code → exec (.encs x) s = .next (s.raiseFault (encode (.encs x)) .seq)) ∧
    (s.phase = .code → s.findLeaf x = none →
      exec (.encs x) s = .next (s.raiseFault (encode (.encs x)) .nosym)) ∧
    (∀ i, s.phase = .code → s.findLeaf x = some i →
      (s.codeAt i = [] → exec (.encs x) s = .next (s.raiseFault (encode (.encs x)) .nosym)) ∧
      (s.codeAt i ≠ [] → s.params.maxBits < s.blen + (s.codeAt i).length →
        exec (.encs x) s = .next (s.raiseFault (encode (.encs x)) .cap)) ∧
      (s.codeAt i ≠ [] → s.blen + (s.codeAt i).length ≤ s.params.maxBits →
        exec (.encs x) s = .next ({ s with bits := s.bits ++ s.codeAt i }.respond
          (okData (natData (s.codeAt i).length)))))

/-- 44_encoder.md R175: `ENC`, every case. The codes of the text's symbols are concatenated in text order into an empty
bitstream; else the first symbol that has no code, or whose code does not fit, decides the fault. -/
def Obligations.EncConcatenatesTheCodes : Prop :=
  ∀ s : State, s.fault = none →
    (s.phase ≠ .code → exec .enc s = .next (s.raiseFault (encode .enc) .seq)) ∧
    (s.phase = .code → (∀ x ∈ s.txt, s.codeOfSymbol x ≠ []) →
      (s.txt.flatMap s.codeOfSymbol).length ≤ s.params.maxBits →
      exec .enc s = .next ({ s with bits := s.txt.flatMap s.codeOfSymbol }.respond
        (okData (natData (s.txt.flatMap s.codeOfSymbol).length)))) ∧
    (∀ (before : List Symbol) (x : Symbol) (after : List Symbol), s.phase = .code → s.txt = before ++ x :: after →
      (∀ y ∈ before, s.codeOfSymbol y ≠ []) → (before.flatMap s.codeOfSymbol).length ≤ s.params.maxBits →
      (s.codeOfSymbol x = [] → exec .enc s = .next (s.raiseFault (encode .enc) .nosym)) ∧
      (s.codeOfSymbol x ≠ [] →
        s.params.maxBits < (before.flatMap s.codeOfSymbol).length + (s.codeOfSymbol x).length →
        exec .enc s = .next (s.raiseFault (encode .enc) .cap)))

/-! ### The decoder (45_decoder.md) -/

/-- 45_decoder.md R190: `DECINIT`, every case. -/
def Obligations.DecinitRestartsTheDecoder : Prop :=
  ∀ s : State, s.fault = none →
    (s.phase = .load → exec .decinit s = .next (s.raiseFault (encode .decinit) .seq)) ∧
    (s.phase ≠ .load → exec .decinit s = .next ({ s with cur := s.root, out := [] }.respond (okData 0#32)))

/-- 45_decoder.md R193, R192, R198: `DECB b`, every case: descend first, then test the node reached; `F_NOCHILD` before
`F_CAP`. -/
def Obligations.DecbMakesOneTransition : Prop :=
  ∀ (b : Bool) (s : State), s.fault = none →
    (s.phase = .load → exec (.decb b) s = .next (s.raiseFault (encode (.decb b)) .seq)) ∧
    (s.phase ≠ .load → s.root = none → exec (.decb b) s = .next (s.respond noneData)) ∧
    (∀ (n c : Nat) (r : InnerNode), s.phase ≠ .load → s.root = some n → s.cur = some c → s.innerAt c = some r →
      (b = true → r.right = none → exec (.decb b) s = .next (s.raiseFault (encode (.decb b)) .nochild)) ∧
      (∀ m, (if b = true then r.right else some r.left) = some m →
        (s.isLeaf m = false → exec (.decb b) s = .next ({ s with cur := some m }.respond noneData)) ∧
        (s.isLeaf m = true → s.params.maxLen ≤ s.olen →
          exec (.decb b) s = .next (s.raiseFault (encode (.decb b)) .cap)) ∧
        (∀ l, s.leafAt m = some l → s.olen < s.params.maxLen →
          exec (.decb b) s = .next ({ s with out := s.out ++ [l.sym], cur := some n }.respond
            (okData (l.sym.setWidth 32))))))

/-- 45_decoder.md R195, R198, R196: `DEC`, every case. The bitstream is a run of whole codes; when their leaves fit `OUT`
it is decoded to their symbols, else `F_CAP`; with no tree the result is empty. -/
def Obligations.DecDecodesTheStream : Prop :=
  ∀ s : State, Inv s → s.fault = none →
    (s.phase = .load → exec .dec s = .next (s.raiseFault (encode .dec) .seq)) ∧
    (s.phase ≠ .load → s.root = none →
      exec .dec s = .next ({ s with cur := none, out := [] }.respond (okData 0#32))) ∧
    (∀ ids : List Nat, s.phase ≠ .load → s.root ≠ none → (∀ i ∈ ids, s.codeAt i ≠ []) →
      s.bits = ids.flatMap s.codeAt →
      (ids.length ≤ s.params.maxLen →
        exec .dec s = .next ({ s with
          cur := s.root
          out := ids.filterMap fun i => (s.leaves[i]?).map LeafNode.sym }.respond (okData (natData ids.length)))) ∧
      (s.params.maxLen < ids.length → exec .dec s = .next (s.raiseFault (encode .dec) .cap)))

/-- 45_decoder.md R196, R197: `DEC` never raises `F_NOCHILD`, and after a `DEC` that does not fault `DMID` is 0. -/
def Obligations.DecNeverMeetsAnAbsentChild : Prop :=
  ∀ s t : State, Inv s → s.fault = none → exec .dec s = .next t →
    t.fault ≠ some .nochild ∧ (t.fault = none → t.cur = t.root ∧ t.dmid = false)

/-- 45_decoder.md R201: when `ENC` succeeds, the `DEC` after it succeeds and gives the text back: `OUT = TXT`,
`CUR = ROOT`, `MATCH = 1`, `DMID = 0`. -/
def Obligations.DecodingTheEncodedTextGivesItBack : Prop :=
  ∀ s t : State, Inv s → s.fault = none → exec .enc s = .next t → t.fault = none →
    ∃ u : State, exec .dec t = .next u ∧ u.fault = none ∧ u.olen = s.tlen ∧ u.out = s.txt ∧ u.txt = s.txt ∧
      u.cur = u.root ∧ u.matchFlag = true ∧ u.dmid = false

/-- 30_encoding.md R95, 60_exceptions.md R240, 45_decoder.md R201: the engine flow on a text that fits the symbol width and
the capacities, from any state, faulted or not, raises no fault, and its result is the text's encoding and the text
itself. -/
def Obligations.EngineFlowGivesTheTextBack : Prop :=
  ∀ (s : State) (text : List Symbol), s.params.Legal → (∀ x ∈ text, Symbol.Fits s.params.symW x) →
    text.length ≤ s.params.maxLen → text.dedup.length ≤ s.params.maxSyms →
    ∃ t : State, execAll (.clr :: pseudoText text ++ [.build, .gen]) s = some t ∧ t.fault = none ∧
      t.phase = .code ∧ t.txt = text ∧ (∀ x ∈ text, t.codeOfSymbol x ≠ []) ∧
      ((text.flatMap t.codeOfSymbol).length ≤ s.params.maxBits →
        ∃ u : State, execAll (pseudoEncode text) s = some u ∧ u.fault = none ∧ u.phase = .code ∧ u.txt = text ∧
          u.code = t.code ∧ u.bits = text.flatMap t.codeOfSymbol ∧ u.out = text ∧ u.olen = u.tlen ∧
          u.cur = u.root ∧ u.matchFlag = true ∧ u.dmid = false)

/-! ### Whole-machine rules -/

/-- 10_state.md R28, 42_tree_builder.md R143, 40_load_frequency.md: a step that does not discard the session writes no
node record twice (the two regions only grow), and outside phase `LOAD` it changes neither the tree nor the text nor
the frequency table. No step changes the parameters (00_scope.md R19). -/
def Obligations.NodesAreWrittenOnce : Prop :=
  ∀ s t : State, step s = .next t → t.params = s.params ∧
    ((∃ rest, s.input = .reset :: rest ∨ s.input = .command 0x01000000#32 :: rest) ∨
      (s.leaves <+: t.leaves ∧ s.inners <+: t.inners ∧ s.txt <+: t.txt ∧
        (s.phase ≠ .load → t.leaves = s.leaves ∧ t.inners = s.inners ∧ t.root = s.root ∧ t.txt = s.txt ∧
          t.ft = s.ft)))

/-- 43_code_table.md R159, 10_state.md R30: only `GEN` writes the code table, and from `GEN` on it is read-only until
`CLR` or reset. -/
def Obligations.CodeTableIsReadOnly : Prop :=
  ∀ s t : State, step s = .next t →
    (∃ rest, s.input = .reset :: rest ∨ s.input = .command 0x01000000#32 :: rest) ∨
      t.code = s.code ∨ (s.phase = .tree ∧ t.phase = .code ∧ ∃ rest, s.input = .command 0x40000000#32 :: rest)

/-- 10_state.md R23: "`PHASE` advances only `LOAD → TREE → CODE` and returns to `LOAD` only by `CLR` or reset." -/
def Obligations.PhaseOnlyAdvances : Prop :=
  ∀ s t : State, step s = .next t →
    t.phase = s.phase ∨ (s.phase = .load ∧ t.phase = .tree) ∨ (s.phase = .tree ∧ t.phase = .code) ∨
      (t.phase = .load ∧ ∃ rest, s.input = .reset :: rest ∨ s.input = .command 0x01000000#32 :: rest)

/-! ### Invariants (10_state.md section 5) -/

/-- Every invariant holds at reset, for every legal parameters. -/
def Obligations.ResetMeetsTheInvariants : Prop := ∀ p : Params, p.Legal → Inv (State.resetOf p)

/-- The memories keep their form: each stays within its capacity and `CODE` keeps its `S` elements (20_memory.md R60;
60_exceptions.md R243). -/
def Obligations.StepKeepsTheMemoriesInForm : Prop :=
  ∀ s t : State, s.params.Legal → Memory.wf s → step s = .next t → Memory.wf t

/-- 10_state.md R38: every step keeps the frequency invariant. -/
def Obligations.StepKeepsTheFrequencyInvariant : Prop :=
  ∀ s t : State, s.params.Legal → Memory.wf s → FrequencyInv s → step s = .next t → FrequencyInv t

/-- 10_state.md R38 to R43: every step, faulting or not, keeps the frequency, heap, queue, tree, leaf and phase
invariants together. -/
def Obligations.StepKeepsTheStructure : Prop :=
  ∀ s t : State, Structural s → step s = .next t → Structural t

/-- 10_state.md section 5: every step, faulting or not, keeps all the invariants, the code invariant R44 and the whole
codes of the bitstream (45_decoder.md R196) among them. -/
def Obligations.StepKeepsTheInvariants : Prop :=
  ∀ s t : State, Inv s → step s = .next t → Inv t

/-- 00_scope.md R9, 47_system.md R234, 20_memory.md R65: in every state that meets the invariants the step is total: no
command fails to answer, and no rule reads an element that is not valid. -/
def Obligations.EveryStepCompletes : Prop :=
  ∀ s : State, Inv s → ∃ t, step s = .next t

/-- No run from reset, whatever the host does, ever stops (70_reset_and_hazards.md R280). -/
def Obligations.NoRunFromResetStops : Prop :=
  ∀ (p : Params) (s : State), p.Legal → Reach (State.resetOf p) s → ∃ t, step s = .next t
end

