-- ==== Sys2Proof/Laws/State.lean ====
section
/-! SUPPORT. One lemma per field for each named update of the state, so that no proof unfolds a record update. -/

namespace Sys2Proof.Machine

/-! ### `respond` -/

@[simp] theorem State.respond_params (s : State) (r : Response) : (s.respond r).params = s.params := rfl
@[simp] theorem State.respond_phase (s : State) (r : Response) : (s.respond r).phase = s.phase := rfl
@[simp] theorem State.respond_fault (s : State) (r : Response) : (s.respond r).fault = s.fault := rfl
@[simp] theorem State.respond_finfo (s : State) (r : Response) : (s.respond r).finfo = s.finfo := rfl
@[simp] theorem State.respond_root (s : State) (r : Response) : (s.respond r).root = s.root := rfl
@[simp] theorem State.respond_cur (s : State) (r : Response) : (s.respond r).cur = s.cur := rfl
@[simp] theorem State.respond_wreg (s : State) (r : Response) : (s.respond r).wreg = s.wreg := rfl
@[simp] theorem State.respond_txt (s : State) (r : Response) : (s.respond r).txt = s.txt := rfl
@[simp] theorem State.respond_ft (s : State) (r : Response) : (s.respond r).ft = s.ft := rfl
@[simp] theorem State.respond_leaves (s : State) (r : Response) : (s.respond r).leaves = s.leaves := rfl
@[simp] theorem State.respond_inners (s : State) (r : Response) : (s.respond r).inners = s.inners := rfl
@[simp] theorem State.respond_heap (s : State) (r : Response) : (s.respond r).heap = s.heap := rfl
@[simp] theorem State.respond_code (s : State) (r : Response) : (s.respond r).code = s.code := rfl
@[simp] theorem State.respond_bits (s : State) (r : Response) : (s.respond r).bits = s.bits := rfl
@[simp] theorem State.respond_out (s : State) (r : Response) : (s.respond r).out = s.out := rfl
@[simp] theorem State.respond_input (s : State) (r : Response) : (s.respond r).input = s.input := rfl
@[simp] theorem State.respond_responses (s : State) (r : Response) :
    (s.respond r).responses = r :: s.responses := rfl

/-! ### `refuse` -/

@[simp] theorem State.refuse_params (s : State) : (s.refuse).params = s.params := rfl
@[simp] theorem State.refuse_phase (s : State) : (s.refuse).phase = s.phase := rfl
@[simp] theorem State.refuse_fault (s : State) : (s.refuse).fault = s.fault := rfl
@[simp] theorem State.refuse_finfo (s : State) : (s.refuse).finfo = s.finfo := rfl
@[simp] theorem State.refuse_root (s : State) : (s.refuse).root = s.root := rfl
@[simp] theorem State.refuse_cur (s : State) : (s.refuse).cur = s.cur := rfl
@[simp] theorem State.refuse_wreg (s : State) : (s.refuse).wreg = s.wreg := rfl
@[simp] theorem State.refuse_txt (s : State) : (s.refuse).txt = s.txt := rfl
@[simp] theorem State.refuse_ft (s : State) : (s.refuse).ft = s.ft := rfl
@[simp] theorem State.refuse_leaves (s : State) : (s.refuse).leaves = s.leaves := rfl
@[simp] theorem State.refuse_inners (s : State) : (s.refuse).inners = s.inners := rfl
@[simp] theorem State.refuse_heap (s : State) : (s.refuse).heap = s.heap := rfl
@[simp] theorem State.refuse_code (s : State) : (s.refuse).code = s.code := rfl
@[simp] theorem State.refuse_bits (s : State) : (s.refuse).bits = s.bits := rfl
@[simp] theorem State.refuse_out (s : State) : (s.refuse).out = s.out := rfl
@[simp] theorem State.refuse_input (s : State) : (s.refuse).input = s.input := rfl
@[simp] theorem State.refuse_responses (s : State) :
    (s.refuse).responses = { status := .refused, data := faultData s.fault } :: s.responses := rfl

/-! ### `raiseFault` -/

@[simp] theorem State.raiseFault_params (s : State) (cmd : Word) (f : FaultCode) :
    (s.raiseFault cmd f).params = s.params := rfl
@[simp] theorem State.raiseFault_phase (s : State) (cmd : Word) (f : FaultCode) :
    (s.raiseFault cmd f).phase = s.phase := rfl
@[simp] theorem State.raiseFault_fault (s : State) (cmd : Word) (f : FaultCode) :
    (s.raiseFault cmd f).fault = some f := rfl
@[simp] theorem State.raiseFault_finfo (s : State) (cmd : Word) (f : FaultCode) :
    (s.raiseFault cmd f).finfo = cmd := rfl
@[simp] theorem State.raiseFault_root (s : State) (cmd : Word) (f : FaultCode) :
    (s.raiseFault cmd f).root = s.root := rfl
@[simp] theorem State.raiseFault_cur (s : State) (cmd : Word) (f : FaultCode) :
    (s.raiseFault cmd f).cur = s.cur := rfl
@[simp] theorem State.raiseFault_wreg (s : State) (cmd : Word) (f : FaultCode) :
    (s.raiseFault cmd f).wreg = s.wreg := rfl
@[simp] theorem State.raiseFault_txt (s : State) (cmd : Word) (f : FaultCode) :
    (s.raiseFault cmd f).txt = s.txt := rfl
@[simp] theorem State.raiseFault_ft (s : State) (cmd : Word) (f : FaultCode) :
    (s.raiseFault cmd f).ft = s.ft := rfl
@[simp] theorem State.raiseFault_leaves (s : State) (cmd : Word) (f : FaultCode) :
    (s.raiseFault cmd f).leaves = s.leaves := rfl
@[simp] theorem State.raiseFault_inners (s : State) (cmd : Word) (f : FaultCode) :
    (s.raiseFault cmd f).inners = s.inners := rfl
@[simp] theorem State.raiseFault_heap (s : State) (cmd : Word) (f : FaultCode) :
    (s.raiseFault cmd f).heap = s.heap := rfl
@[simp] theorem State.raiseFault_code (s : State) (cmd : Word) (f : FaultCode) :
    (s.raiseFault cmd f).code = s.code := rfl
@[simp] theorem State.raiseFault_bits (s : State) (cmd : Word) (f : FaultCode) :
    (s.raiseFault cmd f).bits = s.bits := rfl
@[simp] theorem State.raiseFault_out (s : State) (cmd : Word) (f : FaultCode) :
    (s.raiseFault cmd f).out = s.out := rfl
@[simp] theorem State.raiseFault_input (s : State) (cmd : Word) (f : FaultCode) :
    (s.raiseFault cmd f).input = s.input := rfl
@[simp] theorem State.raiseFault_responses (s : State) (cmd : Word) (f : FaultCode) :
    (s.raiseFault cmd f).responses = { status := .fault, data := natData f.toNat } :: s.responses := rfl

/-! ### `clear` -/

@[simp] theorem State.clear_params (s : State) : (s.clear).params = s.params := rfl
@[simp] theorem State.clear_phase (s : State) : (s.clear).phase = .load := rfl
@[simp] theorem State.clear_fault (s : State) : (s.clear).fault = none := rfl
@[simp] theorem State.clear_finfo (s : State) : (s.clear).finfo = 0#32 := rfl
@[simp] theorem State.clear_root (s : State) : (s.clear).root = none := rfl
@[simp] theorem State.clear_cur (s : State) : (s.clear).cur = none := rfl
@[simp] theorem State.clear_wreg (s : State) : (s.clear).wreg = 0#32 := rfl
@[simp] theorem State.clear_txt (s : State) : (s.clear).txt = [] := rfl
@[simp] theorem State.clear_ft (s : State) : (s.clear).ft = [] := rfl
@[simp] theorem State.clear_leaves (s : State) : (s.clear).leaves = [] := rfl
@[simp] theorem State.clear_inners (s : State) : (s.clear).inners = [] := rfl
@[simp] theorem State.clear_heap (s : State) : (s.clear).heap = [] := rfl
@[simp] theorem State.clear_code (s : State) : (s.clear).code = List.replicate s.params.maxSyms [] := rfl
@[simp] theorem State.clear_bits (s : State) : (s.clear).bits = [] := rfl
@[simp] theorem State.clear_out (s : State) : (s.clear).out = [] := rfl
@[simp] theorem State.clear_input (s : State) : (s.clear).input = s.input := rfl
@[simp] theorem State.clear_responses (s : State) : (s.clear).responses = s.responses := rfl

/-! ### `plant` -/

@[simp] theorem State.plant_params (s : State) (n : Option Nat) : (s.plant n).params = s.params := rfl
@[simp] theorem State.plant_phase (s : State) (n : Option Nat) : (s.plant n).phase = .tree := rfl
@[simp] theorem State.plant_fault (s : State) (n : Option Nat) : (s.plant n).fault = s.fault := rfl
@[simp] theorem State.plant_finfo (s : State) (n : Option Nat) : (s.plant n).finfo = s.finfo := rfl
@[simp] theorem State.plant_root (s : State) (n : Option Nat) : (s.plant n).root = n := rfl
@[simp] theorem State.plant_cur (s : State) (n : Option Nat) : (s.plant n).cur = n := rfl
@[simp] theorem State.plant_wreg (s : State) (n : Option Nat) : (s.plant n).wreg = s.wreg := rfl
@[simp] theorem State.plant_txt (s : State) (n : Option Nat) : (s.plant n).txt = s.txt := rfl
@[simp] theorem State.plant_ft (s : State) (n : Option Nat) : (s.plant n).ft = s.ft := rfl
@[simp] theorem State.plant_leaves (s : State) (n : Option Nat) : (s.plant n).leaves = s.leaves := rfl
@[simp] theorem State.plant_inners (s : State) (n : Option Nat) : (s.plant n).inners = s.inners := rfl
@[simp] theorem State.plant_heap (s : State) (n : Option Nat) : (s.plant n).heap = s.heap := rfl
@[simp] theorem State.plant_code (s : State) (n : Option Nat) : (s.plant n).code = s.code := rfl
@[simp] theorem State.plant_bits (s : State) (n : Option Nat) : (s.plant n).bits = s.bits := rfl
@[simp] theorem State.plant_out (s : State) (n : Option Nat) : (s.plant n).out = s.out := rfl
@[simp] theorem State.plant_input (s : State) (n : Option Nat) : (s.plant n).input = s.input := rfl
@[simp] theorem State.plant_responses (s : State) (n : Option Nat) : (s.plant n).responses = s.responses := rfl

/-! ### `restartDecoder` -/

@[simp] theorem State.restartDecoder_params (s : State) : (s.restartDecoder).params = s.params := rfl
@[simp] theorem State.restartDecoder_phase (s : State) : (s.restartDecoder).phase = s.phase := rfl
@[simp] theorem State.restartDecoder_fault (s : State) : (s.restartDecoder).fault = s.fault := rfl
@[simp] theorem State.restartDecoder_finfo (s : State) : (s.restartDecoder).finfo = s.finfo := rfl
@[simp] theorem State.restartDecoder_root (s : State) : (s.restartDecoder).root = s.root := rfl
@[simp] theorem State.restartDecoder_cur (s : State) : (s.restartDecoder).cur = s.root := rfl
@[simp] theorem State.restartDecoder_wreg (s : State) : (s.restartDecoder).wreg = s.wreg := rfl
@[simp] theorem State.restartDecoder_txt (s : State) : (s.restartDecoder).txt = s.txt := rfl
@[simp] theorem State.restartDecoder_ft (s : State) : (s.restartDecoder).ft = s.ft := rfl
@[simp] theorem State.restartDecoder_leaves (s : State) : (s.restartDecoder).leaves = s.leaves := rfl
@[simp] theorem State.restartDecoder_inners (s : State) : (s.restartDecoder).inners = s.inners := rfl
@[simp] theorem State.restartDecoder_heap (s : State) : (s.restartDecoder).heap = s.heap := rfl
@[simp] theorem State.restartDecoder_code (s : State) : (s.restartDecoder).code = s.code := rfl
@[simp] theorem State.restartDecoder_bits (s : State) : (s.restartDecoder).bits = s.bits := rfl
@[simp] theorem State.restartDecoder_out (s : State) : (s.restartDecoder).out = [] := rfl
@[simp] theorem State.restartDecoder_input (s : State) : (s.restartDecoder).input = s.input := rfl
@[simp] theorem State.restartDecoder_responses (s : State) : (s.restartDecoder).responses = s.responses := rfl

end Sys2Proof.Machine
end

