-- ==== Sys2Proof/Laws/Ops.lean ====
section
/-! SUPPORT. What the shared operations of Machine/Ops.lean do: checks, the end of a rule, taking a command. -/

namespace Sys2Proof.Machine

/-! ### The bodies of rules -/

theorem bind_eq_ok {α β : Type} {x : Except Stop α} {f : α → Except Stop β} {b : β} :
    (x >>= f) = .ok b ↔ ∃ a, x = .ok a ∧ f a = .ok b := by
  cases x <;> simp [bind, Except.bind]

theorem bind_eq_error {α β : Type} {x : Except Stop α} {f : α → Except Stop β} {e : Stop} :
    (x >>= f) = .error e ↔ x = .error e ∨ ∃ a, x = .ok a ∧ f a = .error e := by
  cases x <;> simp [bind, Except.bind]

@[simp] theorem ok_bind {α β : Type} (a : α) (f : α → Except Stop β) :
    ((.ok a : Except Stop α) >>= f) = f a := rfl

@[simp] theorem error_bind {α β : Type} (e : Stop) (f : α → Except Stop β) :
    ((.error e : Except Stop α) >>= f) = .error e := rfl

@[simp] theorem require_eq_ok {c : Bool} {f : FaultCode} {u : Unit} : require c f = .ok u ↔ c = true := by
  cases c <;> simp [require]

@[simp] theorem require_eq_raise {c : Bool} {f g : FaultCode} :
    require c f = .error (.raise g) ↔ c = false ∧ f = g := by
  cases c <;> simp [require]

@[simp] theorem require_ne_stuck {c : Bool} {f : FaultCode} {r : Fault} :
    require c f ≠ .error (.stuck r) := by
  cases c <;> simp [require]

theorem require_true {f : FaultCode} : require true f = .ok () := rfl

theorem require_false {f : FaultCode} : require false f = .error (.raise f) := rfl

@[simp] theorem present_eq_ok {α : Type} {o : Option α} {a : α} : present o = .ok a ↔ o = some a := by
  cases o <;> simp [present]

@[simp] theorem present_ne_raise {α : Type} {o : Option α} {f : FaultCode} :
    present o ≠ .error (.raise f) := by
  cases o <;> simp [present]

@[simp] theorem present_eq_stuck {α : Type} {o : Option α} {r : Fault} :
    present o = .error (.stuck r) ↔ o = none ∧ r = .strayNode := by
  cases o <;> simp [present, eq_comm]

@[simp] theorem readable_eq_ok {s : State} {ns : List Nat} {u : Unit} :
    s.readable ns = .ok u ↔ ∀ n ∈ ns, s.hasRecord n = true := by
  unfold State.readable
  split <;> simp_all

@[simp] theorem readable_ne_raise {s : State} {ns : List Nat} {f : FaultCode} :
    s.readable ns ≠ .error (.raise f) := by
  unfold State.readable
  split <;> simp

theorem readable_eq_stuck {s : State} {ns : List Nat} {r : Fault} :
    s.readable ns = .error (.stuck r) → ∃ n ∈ ns, s.hasRecord n = false := by
  unfold State.readable
  split <;> simp_all

/-! ### Taking a command (30_encoding.md R88) -/

/-- Everything that running a legal command can come to. -/
theorem runCommand_next {s t : State} {i : Instr} {body : Body} (h : s.runCommand i body = .next t) :
    (s.faulted = true ∧ runsWhenFaulted i = false ∧ t = s.refuse) ∨
      ((s.faulted = false ∨ runsWhenFaulted i = true) ∧
        ((∃ u r, body = .ok (u, r) ∧ t = u.respond r) ∨
          ∃ f, body = .error (.raise f) ∧ t = s.raiseFault (encode i) f)) := by
  unfold State.runCommand at h
  split at h
  · simp_all
  · next hf =>
    right
    refine ⟨by revert hf; cases s.faulted <;> cases runsWhenFaulted i <;> simp, ?_⟩
    split at h <;> simp_all

theorem runCommand_refused {s : State} {i : Instr} (body : Body) (hs : s.faulted = true)
    (hi : runsWhenFaulted i = false) : s.runCommand i body = .next s.refuse := by
  simp [State.runCommand, hs, hi]

theorem runCommand_ok {s u : State} {i : Instr} {r : Response} (h : s.fault = none ∨ runsWhenFaulted i = true) :
    s.runCommand i (.ok (u, r)) = .next (u.respond r) := by
  rcases h with h | h <;> simp [State.runCommand, State.faulted, h]

theorem runCommand_raise {s : State} {i : Instr} {f : FaultCode} (h : s.fault = none) :
    s.runCommand i (.error (.raise f)) = .next (s.raiseFault (encode i) f) := by
  simp [State.runCommand, State.faulted, h]

/-- A command stops the model only where its rule has no state to go to. -/
theorem runCommand_fault {s : State} {i : Instr} {body : Body} {r : Fault}
    (h : s.runCommand i body = .fault r) : body = .error (.stuck r) := by
  unfold State.runCommand at h
  split at h
  · simp at h
  · split at h <;> simp_all

theorem runCommand_not_refused {s : State} {i : Instr} {body : Body} {r : Refusal} :
    s.runCommand i body ≠ .refused r := by
  unfold State.runCommand
  split
  · simp
  · split <;> simp

@[simp] theorem faulted_eq_false {s : State} : s.faulted = false ↔ s.fault = none := by
  simp [State.faulted]

@[simp] theorem faulted_eq_true {s : State} : s.faulted = true ↔ s.fault ≠ none := by
  cases h : s.fault <;> simp [State.faulted, h]

/-- A read-class command runs when faulted. -/
theorem runsWhenFaulted_of_readClass {i : Instr} (h : readClass i = true) : runsWhenFaulted i = true := by
  simp [runsWhenFaulted, h]

/-! ### Node records -/

theorem hasRecord_leaf {s : State} {n : Nat} (h : n < s.params.maxSyms) :
    s.hasRecord n = true ↔ n < s.nleaf := by
  simp [State.hasRecord, State.weightAt, State.leafAt, State.isLeaf, State.nleaf, h]

theorem hasRecord_inner {s : State} {n : Nat} (h : s.params.maxSyms ≤ n) :
    s.hasRecord n = true ↔ n < s.params.maxSyms + s.nint := by
  simp [State.hasRecord, State.weightAt, State.innerAt, State.isLeaf, State.nint, Nat.not_lt.2 h]
  omega

theorem allocated_iff {s : State} {n : Nat} :
    s.allocated n = true ↔ n < s.nleaf ∨ (s.params.maxSyms ≤ n ∧ n < s.params.maxSyms + s.nint) := by
  unfold State.allocated
  exact decide_eq_true_iff

/-- With at most `S` leaves, a node has a record exactly when it is allocated (10_state.md R28, R33). -/
theorem hasRecord_eq_allocated {s : State} (hl : s.nleaf ≤ s.params.maxSyms) (n : Nat) :
    s.hasRecord n = s.allocated n := by
  rw [Bool.eq_iff_iff]
  by_cases h : n < s.params.maxSyms
  · rw [hasRecord_leaf h]
    simp [State.allocated]
    omega
  · rw [hasRecord_inner (by omega)]
    simp [State.allocated]
    omega

@[simp] theorem isLeaf_eq_true {s : State} {n : Nat} : s.isLeaf n = true ↔ n < s.params.maxSyms := by
  simp [State.isLeaf]

@[simp] theorem isLeaf_eq_false {s : State} {n : Nat} : s.isLeaf n = false ↔ s.params.maxSyms ≤ n := by
  simp [State.isLeaf]

theorem leafAt_eq_some {s : State} {n : Nat} {r : LeafNode} :
    s.leafAt n = some r ↔ n < s.params.maxSyms ∧ s.leaves[n]? = some r := by
  simp [State.leafAt, State.isLeaf]

theorem innerAt_eq_some {s : State} {n : Nat} {r : InnerNode} :
    s.innerAt n = some r ↔ s.params.maxSyms ≤ n ∧ s.inners[n - s.params.maxSyms]? = some r := by
  simp [State.innerAt, State.isLeaf]

theorem weigh_leaf {s : State} {n : Nat} {r : LeafNode} (h : s.leafAt n = some r) :
    s.weigh n = r.weight.toNat := by
  have := (leafAt_eq_some.1 h).1
  simp [State.weigh, State.weightAt, State.isLeaf, this, h]

theorem weigh_inner {s : State} {n : Nat} {r : InnerNode} (h : s.innerAt n = some r) :
    s.weigh n = r.weight.toNat := by
  have := (innerAt_eq_some.1 h).1
  simp [State.weigh, State.weightAt, State.isLeaf, Nat.not_lt.2 this, h]

/-- The node helpers depend on the parameters and the node memory only. -/
theorem weigh_congr {s t : State} (hp : t.params = s.params) (hl : t.leaves = s.leaves)
    (hi : t.inners = s.inners) : t.weigh = s.weigh := by
  funext n
  simp [State.weigh, State.weightAt, State.leafAt, State.innerAt, State.isLeaf, hp, hl, hi]

theorem weigh_lt (s : State) (n : Nat) : s.weigh n < 2 ^ 32 := by
  simpa [State.weigh] using BitVec.isLt _

/-! ### Windows of bit strings -/

theorem testBit_bitsToNat (bs : BitString) (b : Nat) : (bitsToNat bs).testBit b = (bs[b]?).getD false := by
  induction bs generalizing b with
  | nil => simp [bitsToNat]
  | cons x xs ih =>
    cases b with
    | zero => cases x <;> simp [bitsToNat, Nat.testBit_zero]
    | succ b =>
      rw [Nat.testBit_succ]
      simp only [bitsToNat, List.getElem?_cons_succ, ← ih]
      congr 1
      cases x
      · simp
      · simp
        omega

/-- Bit `b` of window `w` is string bit `32w + b`, 0 beyond the end (20_memory.md R63). -/
theorem window_getLsbD (bs : BitString) (w : Nat) {b : Nat} (hb : b < 32) :
    (window bs w).getLsbD b = (bs[32 * w + b]?).getD false := by
  simp only [window, natData, BitVec.getLsbD_ofNat, hb, decide_true, Bool.true_and, testBit_bitsToNat]
  rw [List.getElem?_take_of_lt hb, List.getElem?_drop]

end Sys2Proof.Machine
end

