-- ==== Sys2Proof/Laws/Queue.lean ====
section
/-! SUPPORT. The priority queue: the two sifts permute the array and restore the heap order, and the two procedures
do what 41_priority_queue.md R111 and R114 say. -/

namespace Sys2Proof.Machine

/-! ### Slots and swaps -/

theorem slot_eq_getElem {h : List Nat} {i : Nat} (hi : i < h.length) : slot h i = h[i] := by
  simp [slot, hi]

@[simp] theorem swapSlots_length (h : List Nat) (i j : Nat) : (swapSlots h i j).length = h.length := by
  simp [swapSlots]

theorem slot_swapSlots {h : List Nat} {i j : Nat} (hi : i < h.length) (hj : j < h.length) (k : Nat) :
    slot (swapSlots h i j) k = if k = j then slot h i else if k = i then slot h j else slot h k := by
  unfold swapSlots slot
  simp only [List.getD_eq_getElem?_getD, List.getElem?_set, List.length_set]
  grind

theorem swapSlots_perm {h : List Nat} {i j : Nat} (hi : i < h.length) (hj : j < h.length) :
    (swapSlots h i j).Perm h := by
  have := List.set_set_perm (as := h) hi hj
  simpa [swapSlots, slot_eq_getElem hi, slot_eq_getElem hj] using this

theorem parentSlot_lt {i : Nat} (hi : 0 < i) : parentSlot i < i := by
  unfold parentSlot; omega

/-! ### The heap order -/

/-- No key of the array is below its parent's (10_state.md R39). -/
def IsHeap (w : Nat → Nat) (h : List Nat) : Prop :=
  ∀ i, 1 ≤ i → i < h.length → w (slot h (parentSlot i)) ≤ w (slot h i)

/-- The root's key is a minimum (10_state.md R39). -/
theorem IsHeap.root_le {w : Nat → Nat} {h : List Nat} (hh : IsHeap w h) (i : Nat) (hi : i < h.length) :
    w (slot h 0) ≤ w (slot h i) := by
  induction i using Nat.strong_induction_on with
  | _ i ih =>
    rcases Nat.eq_zero_or_pos i with rfl | hpos
    · exact Nat.le_refl _
    · have hp := parentSlot_lt hpos
      exact (ih _ hp (by omega)).trans (hh i hpos hi)

theorem IsHeap.head_le {w : Nat → Nat} {h : List Nat} {m n : Nat} (hh : IsHeap w h)
    (hm : h.head? = some m) (hn : n ∈ h) : w m ≤ w n := by
  obtain ⟨i, hi, rfl⟩ := List.getElem_of_mem hn
  have hroot := hh.root_le i hi
  cases h with
  | nil => simp at hm
  | cons a as =>
    simp only [List.head?_cons, Option.some.injEq] at hm
    subst hm
    rwa [slot_eq_getElem hi] at hroot

/-! ### Sift up -/

/-- The heap order, but for slot `i` being possibly too small for its parent. -/
def UpTo (w : Nat → Nat) (h : List Nat) (i : Nat) : Prop :=
  (∀ j, 1 ≤ j → j < h.length → j ≠ i → w (slot h (parentSlot j)) ≤ w (slot h j)) ∧
    ∀ j, 1 ≤ j → j < h.length → parentSlot j = i → 1 ≤ i → w (slot h (parentSlot i)) ≤ w (slot h j)

theorem siftUp_perm (w : Nat → Nat) : ∀ fuel h i, i < h.length → (siftUp w fuel h i).Perm h
  | 0, h, _, _ => List.Perm.refl h
  | fuel + 1, h, i, hi => by
    unfold siftUp
    split
    · next hc =>
      have hp : parentSlot i < h.length := (parentSlot_lt hc.1).trans hi
      exact (siftUp_perm w fuel _ _ (by simpa using hp)).trans (swapSlots_perm hi hp)
    · exact List.Perm.refl h

theorem upTo_swap {w : Nat → Nat} {h : List Nat} {i : Nat} (hu : UpTo w h i) (hi : i < h.length)
    (hc : 0 < i ∧ w (slot h i) < w (slot h (parentSlot i))) :
    UpTo w (swapSlots h i (parentSlot i)) (parentSlot i) := by
  have hpi := parentSlot_lt hc.1
  have hp : parentSlot i < h.length := hpi.trans hi
  have hs := slot_swapSlots hi hp
  refine ⟨fun j hj hjl hjp => ?_, fun j hj hjl hjp h1 => ?_⟩
  · rw [swapSlots_length] at hjl
    rw [hs, hs, if_neg hjp]
    by_cases hji : j = i
    · subst hji
      rw [if_pos rfl, if_pos rfl]
      exact hc.2.le
    · rw [if_neg hji]
      split
      · next hq =>
        have := hu.1 j hj hjl hji
        rw [hq] at this
        exact hc.2.le.trans this
      · split
        · next hq => exact hu.2 j hj hjl hq hc.1
        · exact hu.1 j hj hjl hji
  · rw [swapSlots_length] at hjl
    have hpp : parentSlot (parentSlot i) < parentSlot i := parentSlot_lt h1
    have hgp := hu.1 (parentSlot i) h1 hp (by omega)
    have hjlt := parentSlot_lt hj
    rw [hs, hs, if_neg (by omega), if_neg (by omega), if_neg (by omega)]
    split
    · exact hgp
    · next hji =>
      have := hu.1 j hj hjl hji
      rw [hjp] at this
      exact hgp.trans this

theorem siftUp_isHeap {w : Nat → Nat} :
    ∀ fuel h i, i ≤ fuel → i < h.length → UpTo w h i → IsHeap w (siftUp w fuel h i)
  | 0, h, i, hf, _, hu => fun j hj hjl => hu.1 j hj hjl (by omega)
  | fuel + 1, h, i, hf, hi, hu => by
    unfold siftUp
    split
    · next hc =>
      have hpi := parentSlot_lt hc.1
      exact siftUp_isHeap fuel _ _ (by omega) (by rw [swapSlots_length]; omega) (upTo_swap hu hi hc)
    · next hc =>
      intro j hj hjl
      by_cases hji : j = i
      · subst hji
        exact Nat.le_of_not_lt fun hlt => hc ⟨hj, hlt⟩
      · exact hu.1 j hj hjl hji

/-- Nothing rises where the new key is not below its parent's: "a node whose weight equals its parent's stays
below it" (41_priority_queue.md R111). -/
theorem siftUp_stays {w : Nat → Nat} {fuel : Nat} {h : List Nat} {i : Nat}
    (hc : w (slot h (parentSlot i)) ≤ w (slot h i)) : siftUp w fuel h i = h := by
  cases fuel with
  | zero => rfl
  | succ => simp [siftUp, Nat.not_lt.2 hc]

/-! ### Sift down -/

theorem smallerSlot_spec (w : Nat → Nat) (h : List Nat) (c i : Nat) :
    (smallerSlot w h c i = i ∧ (c < h.length → w (slot h i) ≤ w (slot h c))) ∨
      (smallerSlot w h c i = c ∧ c < h.length ∧ w (slot h c) < w (slot h i)) := by
  unfold smallerSlot
  split
  · next hc => exact .inr ⟨rfl, hc⟩
  · next hc => exact .inl ⟨rfl, fun hl => Nat.le_of_not_lt fun hlt => hc ⟨hl, hlt⟩⟩

/-- The slot that `smallestSlot` picks is `i` or a present child with a smaller key, and no child's key is below
its own (41_priority_queue.md R114). -/
theorem smallestSlot_spec (w : Nat → Nat) (h : List Nat) (i : Nat) :
    (smallestSlot w h i = i ∨
      ((smallestSlot w h i = leftSlot i ∨ smallestSlot w h i = rightSlot i) ∧
        smallestSlot w h i < h.length ∧ w (slot h (smallestSlot w h i)) < w (slot h i))) ∧
      (leftSlot i < h.length → w (slot h (smallestSlot w h i)) ≤ w (slot h (leftSlot i))) ∧
      (rightSlot i < h.length → w (slot h (smallestSlot w h i)) ≤ w (slot h (rightSlot i))) := by
  unfold smallestSlot
  rcases smallerSlot_spec w h (leftSlot i) i with ⟨hl, hl'⟩ | ⟨hl, hll, hlw⟩ <;> rw [hl]
  · rcases smallerSlot_spec w h (rightSlot i) i with ⟨hr, hr'⟩ | ⟨hr, hrl, hrw⟩ <;> rw [hr]
    · exact ⟨.inl rfl, hl', hr'⟩
    · exact ⟨.inr ⟨.inr rfl, hrl, hrw⟩, fun hx => hrw.le.trans (hl' hx), fun _ => Nat.le_refl _⟩
  · rcases smallerSlot_spec w h (rightSlot i) (leftSlot i) with ⟨hr, hr'⟩ | ⟨hr, hrl, hrw⟩ <;> rw [hr]
    · exact ⟨.inr ⟨.inl rfl, hll, hlw⟩, fun _ => Nat.le_refl _, hr'⟩
    · exact ⟨.inr ⟨.inr rfl, hrl, hrw.trans hlw⟩, fun _ => hrw.le, fun _ => Nat.le_refl _⟩

theorem parentSlot_eq_iff {i j : Nat} (hj : 1 ≤ j) : parentSlot j = i ↔ j = leftSlot i ∨ j = rightSlot i := by
  unfold parentSlot leftSlot rightSlot; omega

/-- The slot picked is `i`, or a child of `i` inside the array with a smaller key. -/
theorem smallestSlot_child {w : Nat → Nat} {h : List Nat} {i : Nat} (hne : smallestSlot w h i ≠ i) :
    parentSlot (smallestSlot w h i) = i ∧ i < smallestSlot w h i ∧ smallestSlot w h i < h.length ∧
      w (slot h (smallestSlot w h i)) < w (slot h i) := by
  obtain ⟨hc | ⟨hc, hl, hw⟩, -⟩ := smallestSlot_spec w h i
  · exact absurd hc hne
  · have h1 : i < smallestSlot w h i := by
      rcases hc with hc | hc <;> rw [hc] <;> simp only [leftSlot, rightSlot] <;> omega
    exact ⟨(parentSlot_eq_iff (by omega)).2 hc, h1, hl, hw⟩

theorem smallestSlot_le {w : Nat → Nat} {h : List Nat} {i j : Nat} (hj : 1 ≤ j) (hjl : j < h.length)
    (hp : parentSlot j = i) : w (slot h (smallestSlot w h i)) ≤ w (slot h j) := by
  obtain ⟨-, hl, hr⟩ := smallestSlot_spec w h i
  rcases (parentSlot_eq_iff hj).1 hp with rfl | rfl
  · exact hl hjl
  · exact hr hjl

/-- The heap order, but for slot `i` being possibly too large for its children. -/
def DownFrom (w : Nat → Nat) (h : List Nat) (i : Nat) : Prop :=
  (∀ j, 1 ≤ j → j < h.length → parentSlot j ≠ i → w (slot h (parentSlot j)) ≤ w (slot h j)) ∧
    ∀ j, 1 ≤ j → j < h.length → parentSlot j = i → 1 ≤ i → w (slot h (parentSlot i)) ≤ w (slot h j)

theorem siftDown_perm (w : Nat → Nat) : ∀ fuel h i, (siftDown w fuel h i).Perm h
  | 0, h, _ => List.Perm.refl h
  | fuel + 1, h, i => by
    unfold siftDown
    split
    · exact List.Perm.refl h
    · next hne =>
      obtain ⟨-, hlt, hl, -⟩ := smallestSlot_child hne
      exact (siftDown_perm w fuel _ _).trans (swapSlots_perm (by omega) hl)

theorem downFrom_swap {w : Nat → Nat} {h : List Nat} {i : Nat} (hd : DownFrom w h i)
    (hne : smallestSlot w h i ≠ i) : DownFrom w (swapSlots h i (smallestSlot w h i)) (smallestSlot w h i) := by
  obtain ⟨hpar, hlt, hl, hw⟩ := smallestSlot_child hne
  have hle : ∀ j, 1 ≤ j → j < h.length → parentSlot j = i → w (slot h (smallestSlot w h i)) ≤ w (slot h j) :=
    fun j => smallestSlot_le
  generalize smallestSlot w h i = c at *
  have hs := slot_swapSlots (show i < h.length by omega) hl
  refine ⟨fun j hj hjl hjp => ?_, fun j hj hjl hjp h1 => ?_⟩
  · rw [swapSlots_length] at hjl
    have hpj := parentSlot_lt hj
    rw [hs, hs, if_neg hjp]
    by_cases hjc : j = c
    · subst hjc
      rw [hpar, if_pos rfl, if_pos rfl]
      exact hw.le
    · rw [if_neg hjc]
      by_cases hpi : parentSlot j = i
      · rw [if_pos hpi, if_neg (by omega)]
        exact hle j hj hjl hpi
      · rw [if_neg hpi]
        split
        · next hji =>
          subst hji
          exact hd.2 c (by omega) hl hpar hj
        · exact hd.1 j hj hjl hpi
  · rw [swapSlots_length] at hjl
    have hpj := parentSlot_lt hj
    rw [hs, hs, hpar, if_neg (by omega), if_pos rfl, if_neg (by omega), if_neg (by omega)]
    have := hd.1 j hj hjl (by omega)
    rwa [hjp] at this

theorem siftDown_isHeap {w : Nat → Nat} :
    ∀ fuel h i, h.length ≤ fuel + i → DownFrom w h i → IsHeap w (siftDown w fuel h i)
  | 0, h, i, hf, hd => fun j hj hjl => by
    have := parentSlot_lt hj
    have hjl' : j < h.length := hjl
    exact hd.1 j hj hjl (by omega)
  | fuel + 1, h, i, hf, hd => by
    unfold siftDown
    split
    · next he =>
      intro j hj hjl
      by_cases hp : parentSlot j = i
      · have := smallestSlot_le (w := w) hj hjl hp
        rwa [he, ← hp] at this
      · exact hd.1 j hj hjl hp
    · next hne =>
      obtain ⟨-, hlt, -⟩ := smallestSlot_child hne
      exact siftDown_isHeap fuel _ _ (by rw [swapSlots_length]; omega) (downFrom_swap hd hne)

/-! ### Insertion and removal -/

theorem heapInsert_perm (w : Nat → Nat) (h : List Nat) (n : Nat) : (heapInsert w h n).Perm (n :: h) :=
  (siftUp_perm w _ _ _ (by simp)).trans (List.perm_append_singleton n h)

theorem heapInsert_isHeap {w : Nat → Nat} {h : List Nat} {n : Nat} (hh : IsHeap w h) :
    IsHeap w (heapInsert w h n) := by
  refine siftUp_isHeap _ _ _ (Nat.le_refl _) (by simp) ⟨fun j hj hjl hjn => ?_, fun j hj hjl hjn h1 => ?_⟩
  · have hjl' : j < h.length := by simp at hjl; omega
    have hp := parentSlot_lt hj
    have e : ∀ k, k < h.length → slot (h ++ [n]) k = slot h k := fun k hk => by
      simp [slot, List.getElem?_append_left hk]
    rw [e _ (by omega), e _ hjl']
    exact hh j hj hjl'
  · have := parentSlot_lt hj
    simp at hjl
    omega

@[simp] theorem heapInsert_length (w : Nat → Nat) (h : List Nat) (n : Nat) :
    (heapInsert w h n).length = h.length + 1 := by
  simpa using (heapInsert_perm w h n).length_eq

theorem swapSlots_last_dropLast_perm {m : Nat} {h : List Nat} :
    ((swapSlots (m :: h) 0 h.length).dropLast).Perm h := by
  rcases List.eq_nil_or_concat h with rfl | ⟨as, a, rfl⟩
  · simp [swapSlots]
  · rw [List.concat_eq_append]
    have h1 : swapSlots (m :: (as ++ [a])) 0 (as ++ [a]).length = a :: (as ++ [m]) := by
      apply List.ext_getElem?
      intro k
      simp only [swapSlots, slot, List.getD_eq_getElem?_getD, List.getElem?_set]
      grind
    rw [h1]
    have h2 : (a :: (as ++ [m])).dropLast = a :: as := by
      rw [show a :: (as ++ [m]) = (a :: as) ++ [m] from rfl, List.dropLast_concat]
    rw [h2]
    exact (List.perm_append_singleton a as).symm

theorem heapRemove_perm {w : Nat → Nat} {h : List Nat} {m : Nat} (hm : h.head? = some m) :
    (m :: heapRemove w h).Perm h := by
  cases h with
  | nil => simp at hm
  | cons a as =>
    simp only [List.head?_cons, Option.some.injEq] at hm
    subst hm
    exact ((siftDown_perm w _ _ _).trans swapSlots_last_dropLast_perm).cons _

theorem heapRemove_isHeap {w : Nat → Nat} {h : List Nat} (hh : IsHeap w h) : IsHeap w (heapRemove w h) := by
  unfold heapRemove
  refine siftDown_isHeap _ _ _ (by simp) ⟨fun j hj hjl hjp => ?_, fun j hj hjl hjp h1 => absurd h1 (by omega)⟩
  have hlen : (swapSlots h 0 (h.length - 1)).dropLast.length = h.length - 1 := by simp
  have hp := parentSlot_lt hj
  have e : ∀ k, 0 < k → k < h.length - 1 → slot (swapSlots h 0 (h.length - 1)).dropLast k = slot h k := by
    intro k hk hkl
    have hd : slot (swapSlots h 0 (h.length - 1)).dropLast k = slot (swapSlots h 0 (h.length - 1)) k := by
      rw [slot_eq_getElem (by omega), slot_eq_getElem (by rw [swapSlots_length]; omega), List.getElem_dropLast]
    rw [hd, slot_swapSlots (by omega) (by omega), if_neg (by omega), if_neg (by omega)]
  rw [e _ (by omega) (by omega), e _ hj (by omega)]
  exact hh j hj (by omega)

theorem heapRemove_length {w : Nat → Nat} {h : List Nat} : (heapRemove w h).length = h.length - 1 := by
  unfold heapRemove
  rw [(siftDown_perm w _ _ _).length_eq]
  simp

/-! ### The two procedures -/

/-- Everything `pq_insert(n)` can do when it succeeds (41_priority_queue.md R111). -/
theorem pqInsert_ok {n : Nat} {s t : State} (h : pqInsert n s = .ok t) :
    t = { s with heap := heapInsert s.weigh s.heap n } ∧ s.hsize < s.params.maxSyms ∧
      ∀ m ∈ n :: s.heap, s.hasRecord m = true := by
  unfold pqInsert at h
  obtain ⟨_, h1, h⟩ := bind_eq_ok.1 h
  obtain ⟨_, h2, h⟩ := bind_eq_ok.1 h
  exact ⟨(Except.ok.inj h).symm, by simpa using h1, readable_eq_ok.1 h2⟩

theorem pqInsert_eq_ok {n : Nat} {s : State} (hc : s.hsize < s.params.maxSyms)
    (hr : ∀ m ∈ n :: s.heap, s.hasRecord m = true) :
    pqInsert n s = .ok { s with heap := heapInsert s.weigh s.heap n } := by
  have h1 : require (decide (s.hsize < s.params.maxSyms)) .cap = .ok () := by simp [hc]
  have h2 : s.readable (n :: s.heap) = .ok () := readable_eq_ok.2 hr
  simp only [pqInsert, h1, h2, ok_bind]

theorem pqInsert_raise {n : Nat} {s : State} {f : FaultCode} (h : pqInsert n s = .error (.raise f)) :
    f = .cap ∧ s.params.maxSyms ≤ s.hsize := by
  unfold pqInsert at h
  rcases bind_eq_error.1 h with h | ⟨_, -, h⟩
  · simp at h; exact ⟨h.2.symm, h.1⟩
  · rcases bind_eq_error.1 h with h | ⟨_, -, h⟩
    · exact absurd h readable_ne_raise
    · cases h

/-- Everything `pq_extract()` can do when it succeeds (41_priority_queue.md R114). -/
theorem pqExtract_ok {s t : State} {m : Nat} (h : pqExtract s = .ok (m, t)) :
    s.heap.head? = some m ∧ t = { s with heap := heapRemove s.weigh s.heap } ∧
      ∀ n ∈ s.heap, s.hasRecord n = true := by
  unfold pqExtract at h
  obtain ⟨m', h1, h⟩ := bind_eq_ok.1 h
  obtain ⟨_, h2, h⟩ := bind_eq_ok.1 h
  obtain ⟨rfl, rfl⟩ := Prod.mk.inj (Except.ok.inj h)
  exact ⟨present_eq_ok.1 h1, rfl, readable_eq_ok.1 h2⟩

theorem pqExtract_eq_ok {s : State} {m : Nat} (hm : s.heap.head? = some m)
    (hr : ∀ n ∈ s.heap, s.hasRecord n = true) :
    pqExtract s = .ok (m, { s with heap := heapRemove s.weigh s.heap }) := by
  have h1 : present s.heap.head? = .ok m := present_eq_ok.2 hm
  have h2 : s.readable s.heap = .ok () := readable_eq_ok.2 hr
  simp only [pqExtract, h1, h2, ok_bind]

theorem pqExtract_ne_raise {s : State} {f : FaultCode} : pqExtract s ≠ .error (.raise f) := by
  intro h
  unfold pqExtract at h
  rcases bind_eq_error.1 h with h | ⟨_, -, h⟩
  · exact absurd h present_ne_raise
  · rcases bind_eq_error.1 h with h | ⟨_, -, h⟩
    · exact absurd h readable_ne_raise
    · cases h

end Sys2Proof.Machine
end

