-- ==== Sys2Proof/Laws/Nodes.lean ====
section
/-! SUPPORT. Node records stay what they are when nodes are allocated (10_state.md R28). -/

namespace Sys2Proof.Machine

/-- `t` has the nodes of `s`, and perhaps more: node memory only grows. -/
structure NodesGrow (s t : State) : Prop where
  params : t.params = s.params
  leaves : s.leaves <+: t.leaves
  inners : s.inners <+: t.inners

theorem NodesGrow.refl (s : State) : NodesGrow s s := ⟨rfl, List.prefix_rfl, List.prefix_rfl⟩

theorem NodesGrow.trans {s t u : State} (h : NodesGrow s t) (h' : NodesGrow t u) : NodesGrow s u :=
  ⟨h'.params.trans h.params, h.leaves.trans h'.leaves, h.inners.trans h'.inners⟩

theorem getElem?_of_prefix {α : Type} {l l' : List α} (h : l <+: l') {i : Nat} {a : α} (ha : l[i]? = some a) :
    l'[i]? = some a := by
  obtain ⟨m, rfl⟩ := h
  have := (List.getElem?_eq_some_iff.1 ha).1
  rw [List.getElem?_append_left this]
  exact ha

theorem NodesGrow.isLeaf {s t : State} (h : NodesGrow s t) (n : Nat) : t.isLeaf n = s.isLeaf n := by
  simp [State.isLeaf, h.params]

theorem NodesGrow.leafAt {s t : State} (h : NodesGrow s t) {n : Nat} {r : LeafNode} (hr : s.leafAt n = some r) :
    t.leafAt n = some r := by
  rw [leafAt_eq_some] at hr ⊢
  exact ⟨by rw [h.params]; exact hr.1, getElem?_of_prefix h.leaves hr.2⟩

theorem NodesGrow.innerAt {s t : State} (h : NodesGrow s t) {n : Nat} {r : InnerNode} (hr : s.innerAt n = some r) :
    t.innerAt n = some r := by
  rw [innerAt_eq_some] at hr ⊢
  rw [h.params]
  exact ⟨hr.1, getElem?_of_prefix h.inners hr.2⟩

/-- A node has a record exactly when it is a leaf or an internal node with a record. -/
theorem hasRecord_iff {s : State} {n : Nat} :
    s.hasRecord n = true ↔ (∃ r, s.leafAt n = some r) ∨ ∃ r, s.innerAt n = some r := by
  by_cases h : s.isLeaf n = true
  · have : s.innerAt n = none := by simp only [State.innerAt, h, if_true]
    simp [State.hasRecord, State.weightAt, this, h, Option.isSome_iff_exists]
  · have h' : s.isLeaf n = false := by simpa using h
    have : s.leafAt n = none := by simp only [State.leafAt, h', Bool.false_eq_true, if_false]
    simp [State.hasRecord, State.weightAt, this, Option.isSome_iff_exists, Nat.not_lt.2 (isLeaf_eq_false.1 h')]

theorem NodesGrow.hasRecord {s t : State} (h : NodesGrow s t) {n : Nat} (hr : s.hasRecord n = true) :
    t.hasRecord n = true := by
  rw [hasRecord_iff] at hr ⊢
  exact hr.imp (fun ⟨r, hr⟩ => ⟨r, h.leafAt hr⟩) fun ⟨r, hr⟩ => ⟨r, h.innerAt hr⟩

theorem NodesGrow.weigh {s t : State} (h : NodesGrow s t) {n : Nat} (hr : s.hasRecord n = true) :
    t.weigh n = s.weigh n := by
  rcases hasRecord_iff.1 hr with ⟨r, hr⟩ | ⟨r, hr⟩
  · rw [weigh_leaf hr, weigh_leaf (h.leafAt hr)]
  · rw [weigh_inner hr, weigh_inner (h.innerAt hr)]

theorem NodesGrow.nleaf {s t : State} (h : NodesGrow s t) : s.nleaf ≤ t.nleaf := h.leaves.length_le

theorem NodesGrow.nint {s t : State} (h : NodesGrow s t) : s.nint ≤ t.nint := h.inners.length_le

theorem NodesGrow.allocated {s t : State} (h : NodesGrow s t) {n : Nat} (ha : s.allocated n = true) :
    t.allocated n = true := by
  rw [allocated_iff] at ha ⊢
  have := h.nleaf
  have := h.nint
  rw [h.params]
  omega

/-- The heap order depends on the weights of the queued nodes only. -/
theorem IsHeap.congr {w w' : Nat → Nat} {h : List Nat} (hh : IsHeap w h) (he : ∀ n ∈ h, w' n = w n) :
    IsHeap w' h := by
  intro i hi hil
  have hp := parentSlot_lt hi
  have hpl : parentSlot i < h.length := by omega
  rw [slot_eq_getElem hil, slot_eq_getElem hpl, he _ (List.getElem_mem _), he _ (List.getElem_mem _),
    ← slot_eq_getElem hil, ← slot_eq_getElem hpl]
  exact hh i hi hil

end Sys2Proof.Machine
end

