-- ==== Sys2Proof/Laws/Builder.lean ====
section
/-! SUPPORT. What the procedures of the tree builder do (42_tree_builder.md R131 to R133). -/

namespace Sys2Proof.Machine

/-- The state with one more internal node. -/
def State.addInner (s : State) (r : InnerNode) : State := { s with inners := s.inners ++ [r] }

/-- The state with one more leaf. -/
def State.addLeaf (s : State) (r : LeafNode) : State := { s with leaves := s.leaves ++ [r] }

/-- The state with another queue. -/
def State.setHeap (s : State) (h : List Nat) : State := { s with heap := h }

theorem nodesGrow_addInner (s : State) (r : InnerNode) : NodesGrow s (s.addInner r) :=
  ⟨rfl, List.prefix_rfl, List.prefix_append _ _⟩

theorem nodesGrow_addLeaf (s : State) (r : LeafNode) : NodesGrow s (s.addLeaf r) :=
  ⟨rfl, List.prefix_append _ _, List.prefix_rfl⟩

theorem nodesGrow_setHeap (s : State) (h : List Nat) : NodesGrow s (s.setHeap h) :=
  ⟨rfl, List.prefix_rfl, List.prefix_rfl⟩

@[simp] theorem weigh_setHeap (s : State) (h : List Nat) : (s.setHeap h).weigh = s.weigh := weigh_congr rfl rfl rfl

theorem innerAt_addInner_new (s : State) (r : InnerNode) :
    (s.addInner r).innerAt (s.params.maxSyms + s.nint) = some r := by
  rw [innerAt_eq_some]
  simp [State.addInner, State.nint]

theorem weigh_addInner_new (s : State) (r : InnerNode) :
    (s.addInner r).weigh (s.params.maxSyms + s.nint) = r.weight.toNat := weigh_inner (innerAt_addInner_new s r)

theorem leafAt_addLeaf_new (s : State) (r : LeafNode) (h : s.nleaf < s.params.maxSyms) :
    (s.addLeaf r).leafAt s.nleaf = some r := by
  rw [leafAt_eq_some]
  exact ⟨h, by simp [State.addLeaf, State.nleaf]⟩

/-! ### `new_internal` -/

theorem newInternal_eq_ok {w l : Nat} {r : Option Nat} {s : State} (hc : s.nint < s.params.maxSyms)
    (hw : w < 2 ^ 32) :
    newInternal w l r s = .ok (s.params.maxSyms + s.nint, s.addInner ⟨BitVec.ofNat 32 w, l, r⟩) := by
  have h1 : require (decide (s.nint < s.params.maxSyms)) .cap = .ok () := by simp [hc]
  have h2 : require (decide (w < 2 ^ 32)) .wovf = .ok () := by simpa using hw
  simp only [newInternal, h1, h2, ok_bind, State.addInner]

theorem newInternal_cap {w l : Nat} {r : Option Nat} {s : State} (hc : s.params.maxSyms ≤ s.nint) :
    newInternal w l r s = .error (.raise .cap) := by
  simp [newInternal, require, Nat.not_lt.2 hc]

theorem newInternal_wovf {w l : Nat} {r : Option Nat} {s : State} (hc : s.nint < s.params.maxSyms)
    (hw : 2 ^ 32 ≤ w) : newInternal w l r s = .error (.raise .wovf) := by
  have h1 : require (decide (s.nint < s.params.maxSyms)) .cap = .ok () := by simp [hc]
  have h2 : require (decide (w < 2 ^ 32)) .wovf = .error (.raise .wovf) := by
    rw [decide_eq_false (Nat.not_lt.2 hw)]
    rfl
  simp only [newInternal, h1, h2, ok_bind, error_bind]

/-- Everything `new_internal` can come to (42_tree_builder.md R131). -/
theorem newInternal_cases (w l : Nat) (r : Option Nat) (s : State) :
    (newInternal w l r s = .error (.raise .cap) ∧ s.params.maxSyms ≤ s.nint) ∨
      (newInternal w l r s = .error (.raise .wovf) ∧ s.nint < s.params.maxSyms ∧ 2 ^ 32 ≤ w) ∨
      (newInternal w l r s = .ok (s.params.maxSyms + s.nint, s.addInner ⟨BitVec.ofNat 32 w, l, r⟩) ∧
        s.nint < s.params.maxSyms ∧ w < 2 ^ 32) := by
  by_cases hc : s.nint < s.params.maxSyms
  · by_cases hw : w < 2 ^ 32
    · exact .inr (.inr ⟨newInternal_eq_ok hc hw, hc, hw⟩)
    · exact .inr (.inl ⟨newInternal_wovf hc (Nat.le_of_not_lt hw), hc, Nat.le_of_not_lt hw⟩)
  · exact .inl ⟨newInternal_cap (Nat.le_of_not_lt hc), Nat.le_of_not_lt hc⟩

/-! ### `merge_step` -/

/-- The queue after one merge of the queue of `s`, its two first nodes extracted. -/
def State.twoLess (s : State) : List Nat := heapRemove s.weigh (heapRemove s.weigh s.heap)

/-- The node that a merge of `a` and `b` makes. -/
def State.joined (s : State) (a b : Nat) : InnerNode := ⟨BitVec.ofNat 32 (s.weigh a + s.weigh b), a, some b⟩

/-- The state after a merge that extracted `a`, then `b` (42_tree_builder.md R132). -/
def State.merged (s : State) (a b : Nat) : State :=
  let t := s.addInner (s.joined a b)
  t.setHeap (heapInsert t.weigh s.twoLess (s.params.maxSyms + s.nint))

theorem heap_cons_cons_of_two_le {h : List Nat} (hh : 2 ≤ h.length) :
    ∃ a, h.head? = some a ∧ ∀ w, ∃ b, (heapRemove w h).head? = some b := by
  cases h with
  | nil => simp at hh
  | cons a as =>
    refine ⟨a, rfl, fun w => ?_⟩
    have : (heapRemove w (a :: as)).length ≠ 0 := by rw [heapRemove_length]; omega
    cases hr : heapRemove w (a :: as) with
    | nil => simp [hr] at this
    | cons b bs => exact ⟨b, rfl⟩

/-- One merge of a queue of two or more nodes that have records, by what `new_internal` answers
(42_tree_builder.md R132). -/
theorem mergeStep_eq {s : State} {a b : Nat} (ha : s.heap.head? = some a)
    (hb : (heapRemove s.weigh s.heap).head? = some b) (hr : ∀ n ∈ s.heap, s.hasRecord n = true)
    (hs : s.hsize ≤ s.params.maxSyms) :
    mergeStep s = (newInternal (s.weigh a + s.weigh b) a (some b) (s.setHeap s.twoLess)) >>= fun _ =>
      .ok (s.params.maxSyms + s.nint, s.merged a b) := by
  have hp1 : (a :: heapRemove s.weigh s.heap).Perm s.heap := heapRemove_perm ha
  have hp2 : (b :: s.twoLess).Perm (heapRemove s.weigh s.heap) := heapRemove_perm hb
  have e1 := pqExtract_eq_ok ha hr
  have hr1 : ∀ n ∈ heapRemove s.weigh s.heap, s.hasRecord n = true := fun n hn =>
    hr n (hp1.subset (List.mem_cons_of_mem _ hn))
  have e2 : pqExtract (s.setHeap (heapRemove s.weigh s.heap)) = .ok (b, s.setHeap s.twoLess) := by
    have := pqExtract_eq_ok (s := s.setHeap (heapRemove s.weigh s.heap)) hb
      (fun n hn => (nodesGrow_setHeap s _).hasRecord (hr1 n hn))
    rw [this, weigh_setHeap]
    rfl
  have e1' : pqExtract s = .ok (a, s.setHeap (heapRemove s.weigh s.heap)) := e1
  simp only [mergeStep, e1', e2, ok_bind, weigh_setHeap]
  rcases newInternal_cases (s.weigh a + s.weigh b) a (some b) (s.setHeap s.twoLess) with
    ⟨e, -⟩ | ⟨e, -, -⟩ | ⟨e, hc, hw⟩
  · rw [e]; rfl
  · rw [e]; rfl
  · rw [e]
    simp only [ok_bind]
    have hg : NodesGrow s ((s.setHeap s.twoLess).addInner (s.joined a b)) :=
      (nodesGrow_setHeap s _).trans (nodesGrow_addInner _ _)
    have hlen : s.twoLess.length + 2 = s.heap.length := by
      have h1 := hp1.length_eq
      have h2 := hp2.length_eq
      simp at h1 h2
      omega
    have e3 := pqInsert_eq_ok (n := s.params.maxSyms + s.nint)
      (s := (s.setHeap s.twoLess).addInner (s.joined a b))
      (by
        show s.twoLess.length < s.params.maxSyms
        have : s.heap.length ≤ s.params.maxSyms := hs
        omega)
      (by
        intro m hm
        rcases List.mem_cons.1 hm with rfl | hm
        · exact hasRecord_iff.2 (.inr ⟨_, innerAt_addInner_new _ _⟩)
        · exact hg.hasRecord (hr1 m (hp2.subset (List.mem_cons_of_mem _ hm))))
    simp only [State.joined, State.setHeap, State.nint] at e3 ⊢
    rw [e3]
    rfl

/-- Everything one merge of a queue of two or more nodes that have records can come to. -/
theorem mergeStep_cases {s : State} (h2 : 2 ≤ s.hsize) (hr : ∀ n ∈ s.heap, s.hasRecord n = true)
    (hs : s.hsize ≤ s.params.maxSyms) :
    ∃ a b, s.heap.head? = some a ∧ (heapRemove s.weigh s.heap).head? = some b ∧ (a :: b :: s.twoLess).Perm s.heap ∧
      ((mergeStep s = .error (.raise .cap) ∧ s.params.maxSyms ≤ s.nint) ∨
        (mergeStep s = .error (.raise .wovf) ∧ s.nint < s.params.maxSyms ∧ 2 ^ 32 ≤ s.weigh a + s.weigh b) ∨
        (mergeStep s = .ok (s.params.maxSyms + s.nint, s.merged a b) ∧ s.nint < s.params.maxSyms ∧
          s.weigh a + s.weigh b < 2 ^ 32)) := by
  obtain ⟨a, ha, hb⟩ := heap_cons_cons_of_two_le (h := s.heap) h2
  obtain ⟨b, hb⟩ := hb s.weigh
  refine ⟨a, b, ha, hb, ((heapRemove_perm hb).cons a).trans (heapRemove_perm ha), ?_⟩
  rw [mergeStep_eq ha hb hr hs]
  rcases newInternal_cases (s.weigh a + s.weigh b) a (some b) (s.setHeap s.twoLess) with
    ⟨e, hc⟩ | ⟨e, hc, hw⟩ | ⟨e, hc, hw⟩
  · exact .inl ⟨by rw [e]; rfl, hc⟩
  · exact .inr (.inl ⟨by rw [e]; rfl, hc, hw⟩)
  · exact .inr (.inr ⟨by rw [e]; rfl, hc, hw⟩)

/-! ### `wrap` -/

/-- The wrapper of leaf `x` (42_tree_builder.md R133). -/
theorem wrap_eq {x : Nat} {s : State} (hr : s.hasRecord x = true) :
    wrap x s = newInternal (s.weigh x) x none s := by
  have h : s.readable [x] = .ok () := readable_eq_ok.2 (by simpa using hr)
  simp only [wrap, h, ok_bind]

/-- The heap left by extracting the last node. -/
theorem pqExtract_last {x : Nat} {s : State} (hx : s.heap = [x]) (hr : s.hasRecord x = true) :
    pqExtract s = .ok (x, s.setHeap []) := by
  have h0 : heapRemove s.weigh s.heap = [] := List.eq_nil_of_length_eq_zero (by rw [heapRemove_length, hx]; rfl)
  rw [pqExtract_eq_ok (m := x) (by rw [hx]; rfl) (by simpa [hx] using hr), h0]
  rfl

end Sys2Proof.Machine
end

