-- ==== Sys2Proof/Laws/Tree.lean ====
section
/-! SUPPORT. The tree that the internal nodes make: parents are unique, paths go down, nodes can be counted
(10_state.md R41; 42_tree_builder.md R140, R142). -/

namespace Sys2Proof.Machine

/-! ### Edges and paths -/

theorem childAt_congr {s t : State} (hp : t.params = s.params) (hi : t.inners = s.inners) :
    t.childAt = s.childAt := by
  funext n b
  simp [State.childAt, State.innerAt, State.isLeaf, hp, hi]

theorem follow_congr {s t : State} (hp : t.params = s.params) (hi : t.inners = s.inners) :
    t.follow = s.follow := by
  funext n p
  induction p generalizing n with
  | nil => rfl
  | cons b p ih =>
    simp only [State.follow, childAt_congr hp hi]
    congr 1
    funext c
    exact ih c

@[simp] theorem follow_nil (s : State) (n : Nat) : s.follow n [] = some n := rfl

@[simp] theorem follow_cons (s : State) (n : Nat) (b : Bool) (p : BitString) :
    s.follow n (b :: p) = (s.childAt n b).bind fun c => s.follow c p := rfl

theorem follow_append (s : State) (n : Nat) (p q : BitString) :
    s.follow n (p ++ q) = (s.follow n p).bind fun m => s.follow m q := by
  induction p generalizing n with
  | nil => rfl
  | cons b p ih =>
    rw [List.cons_append, follow_cons, follow_cons]
    cases s.childAt n b with
    | none => rfl
    | some c => exact ih c

theorem childAt_eq_some {s : State} {n c : Nat} {b : Bool} :
    s.childAt n b = some c ↔ ∃ r, s.innerAt n = some r ∧ r.child b = some c := by
  simp [State.childAt, Option.bind_eq_some_iff]

theorem childAt_leaf {s : State} {n : Nat} {b : Bool} (h : n < s.params.maxSyms) : s.childAt n b = none := by
  have : s.innerAt n = none := by simp [State.innerAt, State.isLeaf, h]
  simp [State.childAt, this]

theorem follow_leaf {s : State} {n m : Nat} {p : BitString} (h : n < s.params.maxSyms)
    (hf : s.follow n p = some m) : p = [] ∧ m = n := by
  cases p with
  | nil => exact ⟨rfl, (Option.some.inj hf).symm⟩
  | cons b p => simp [childAt_leaf h] at hf

theorem child_mem_children {r : InnerNode} {b : Bool} {c : Nat} (h : r.child b = some c) : c ∈ r.children := by
  cases b <;> simp [InnerNode.child] at h <;> simp [InnerNode.children, h]

theorem mem_children {r : InnerNode} {c : Nat} : c ∈ r.children ↔ c = r.left ∨ r.right = some c := by
  cases h : r.right <;> simp [InnerNode.children, h, eq_comm]

theorem exists_child_of_mem_children {r : InnerNode} {c : Nat} (h : c ∈ r.children) : ∃ b, r.child b = some c := by
  rcases mem_children.1 h with rfl | h
  · exact ⟨false, rfl⟩
  · exact ⟨true, h⟩

theorem hasParent_iff {s : State} {n : Nat} : s.hasParent n = true ↔ ∃ r ∈ s.inners, n ∈ r.children := by
  simp [State.hasParent, List.any_eq_true]

theorem hasParent_false_iff {s : State} {n : Nat} :
    s.hasParent n = false ↔ ∀ r ∈ s.inners, n ∉ r.children := by
  rw [← Bool.not_eq_true, hasParent_iff]
  simp only [not_exists, not_and]

theorem hasParent_eq_false_iff_not_mem {s : State} {n : Nat} :
    s.hasParent n = false ↔ n ∉ s.inners.flatMap InnerNode.children := by
  rw [hasParent_false_iff, List.mem_flatMap]
  simp only [not_exists, not_and]

theorem hasParent_of_childAt {s : State} {m c : Nat} {b : Bool} (h : s.childAt m b = some c) :
    s.hasParent c = true := by
  obtain ⟨r, hr, hc⟩ := childAt_eq_some.1 h
  exact hasParent_iff.2 ⟨r, List.mem_of_getElem? (innerAt_eq_some.1 hr).2, child_mem_children hc⟩

/-- A node reached by at least one edge has a parent. -/
theorem hasParent_of_follow {s : State} {n m : Nat} {p : BitString} (hp : p ≠ []) (h : s.follow n p = some m) :
    s.hasParent m = true := by
  rcases List.eq_nil_or_concat p with rfl | ⟨q, b, rfl⟩
  · exact absurd rfl hp
  · rw [List.concat_eq_append, follow_append] at h
    obtain ⟨k, -, hk⟩ := Option.bind_eq_some_iff.1 h
    rw [follow_cons] at hk
    obtain ⟨c, hc, he⟩ := Option.bind_eq_some_iff.1 hk
    obtain rfl : c = m := by simpa using he
    exact hasParent_of_childAt hc

/-! ### The tree invariant -/

variable {s : State}

/-- Two internal nodes that share a child are one (10_state.md R41). -/
theorem TreeInv.parent_unique (h : TreeInv s) {i j : Nat} {r r' : InnerNode} {c : Nat}
    (hi : s.inners[i]? = some r) (hj : s.inners[j]? = some r') (hc : c ∈ r.children) (hc' : c ∈ r'.children) :
    i = j := by
  have hn := (List.nodup_flatMap.1 h.oneParent).2
  rw [List.pairwise_iff_getElem] at hn
  obtain ⟨hil, rfl⟩ := List.getElem?_eq_some_iff.1 hi
  obtain ⟨hjl, rfl⟩ := List.getElem?_eq_some_iff.1 hj
  rcases Nat.lt_trichotomy i j with hlt | rfl | hlt
  · exact absurd hc' (hn i j hil hjl hlt hc)
  · rfl
  · exact absurd hc (hn j i hjl hil hlt hc')

theorem TreeInv.child_unique (h : TreeInv s) {n m c : Nat} {b b' : Bool} (h1 : s.childAt n b = some c)
    (h2 : s.childAt m b' = some c) : n = m ∧ b = b' := by
  obtain ⟨r, hr, hc⟩ := childAt_eq_some.1 h1
  obtain ⟨r', hr', hc'⟩ := childAt_eq_some.1 h2
  rw [innerAt_eq_some] at hr hr'
  have he := h.parent_unique hr.2 hr'.2 (child_mem_children hc) (child_mem_children hc')
  obtain rfl : n = m := by omega
  obtain rfl : r = r' := by simpa [hr.2] using hr'.2
  refine ⟨rfl, ?_⟩
  cases b <;> cases b'
  · rfl
  · have := (h.right _ _ _ hr.2 hc').2
    simp [InnerNode.child] at hc
    exact absurd hc.symm this
  · have := (h.right _ _ _ hr.2 hc).2
    simp [InnerNode.child] at hc'
    exact absurd hc'.symm this
  · rfl

/-! ### Height -/

/-- A bound on the number of edges below a node: 0 for a leaf, `k + 1` for internal node `S + k`. -/
def State.rank (s : State) (n : Nat) : Nat := if n < s.params.maxSyms then 0 else n - s.params.maxSyms + 1

theorem olderThan_rank {k n : Nat} (h : s.olderThan k n) : s.rank n ≤ k := by
  unfold State.olderThan at h
  unfold State.rank
  split <;> omega

theorem TreeInv.older_of_mem_children (h : TreeInv s) {k c : Nat} {r : InnerNode} (hr : s.inners[k]? = some r)
    (hc : c ∈ r.children) : s.olderThan k c := by
  rcases mem_children.1 hc with rfl | hc
  · exact h.left k r hr
  · exact (h.right k r c hr hc).1

theorem TreeInv.rank_child (h : TreeInv s) {n c : Nat} {b : Bool} (hc : s.childAt n b = some c) :
    s.rank c < s.rank n := by
  obtain ⟨r, hr, hc⟩ := childAt_eq_some.1 hc
  rw [innerAt_eq_some] at hr
  have := olderThan_rank (h.older_of_mem_children hr.2 (child_mem_children hc))
  have hn : s.rank n = n - s.params.maxSyms + 1 := by simp [State.rank, Nat.not_lt.2 hr.1]
  omega

theorem TreeInv.length_path (h : TreeInv s) {n m : Nat} {p : BitString} (hf : s.follow n p = some m) :
    s.rank m + p.length ≤ s.rank n := by
  induction p generalizing n with
  | nil => obtain rfl : n = m := by simpa using hf
           simp
  | cons b p ih =>
    rw [follow_cons] at hf
    obtain ⟨c, hc, hf⟩ := Option.bind_eq_some_iff.1 hf
    have := ih hf
    have := h.rank_child hc
    simp only [List.length_cons]
    omega

/-- From a node, at most one path leads to each node (10_state.md R41, R44). -/
theorem TreeInv.path_unique (h : TreeInv s) {n m : Nat} :
    ∀ {p q : BitString}, s.follow n p = some m → s.follow n q = some m → p = q := by
  have loop : ∀ {q : BitString}, s.follow n q = some n → q = [] := fun {q} hq => by
    have := h.length_path hq
    exact List.eq_nil_of_length_eq_zero (by omega)
  intro p
  induction p using List.reverseRecOn generalizing m with
  | nil =>
    intro q hp hq
    obtain rfl : n = m := by simpa using hp
    exact (loop hq).symm
  | append_singleton p b ih =>
    intro q hp hq
    rcases List.eq_nil_or_concat q with rfl | ⟨q, b', rfl⟩
    · obtain rfl : n = m := by simpa using hq
      exact loop hp
    · rw [List.concat_eq_append] at hq ⊢
      rw [follow_append] at hp hq
      obtain ⟨k, hk, hkm⟩ := Option.bind_eq_some_iff.1 hp
      obtain ⟨k', hk', hkm'⟩ := Option.bind_eq_some_iff.1 hq
      have hc : s.childAt k b = some m := by
        simpa [Option.bind_eq_some_iff] using hkm
      have hc' : s.childAt k' b' = some m := by
        simpa [Option.bind_eq_some_iff] using hkm'
      obtain ⟨rfl, rfl⟩ := h.child_unique hc hc'
      rw [ih hk hk']

theorem rank_le_nint (hl : s.nleaf ≤ s.params.maxSyms) {n : Nat} (h : s.allocated n = true) : s.rank n ≤ s.nint := by
  rw [allocated_iff] at h
  unfold State.rank
  split <;> omega

/-! ### Nodes on paths are allocated -/

theorem olderThan_allocated {k n : Nat} (h : s.olderThan k n) (hk : k ≤ s.nint) : s.allocated n = true := by
  rw [allocated_iff]
  unfold State.olderThan at h
  omega

theorem TreeInv.allocated_child (h : TreeInv s) {n c : Nat} {b : Bool} (hc : s.childAt n b = some c) :
    s.allocated c = true := by
  obtain ⟨r, hr, hc⟩ := childAt_eq_some.1 hc
  rw [innerAt_eq_some] at hr
  have hk := (List.getElem?_eq_some_iff.1 hr.2).1
  exact olderThan_allocated (h.older_of_mem_children hr.2 (child_mem_children hc)) (Nat.le_of_lt hk)

theorem TreeInv.allocated_follow (h : TreeInv s) {n m : Nat} {p : BitString} (ha : s.allocated n = true)
    (hf : s.follow n p = some m) : s.allocated m = true := by
  induction p generalizing n with
  | nil => obtain rfl : n = m := by simpa using hf
           exact ha
  | cons b p ih =>
    rw [follow_cons] at hf
    obtain ⟨c, hc, hf⟩ := Option.bind_eq_some_iff.1 hf
    exact ih (h.allocated_child hc) hf

/-- An allocated internal node has a record. -/
theorem exists_innerAt {n : Nat} (hl : s.nleaf ≤ s.params.maxSyms) (ha : s.allocated n = true)
    (hi : s.isLeaf n = false) : ∃ r, s.innerAt n = some r := by
  rw [allocated_iff] at ha
  rw [isLeaf_eq_false] at hi
  have : n - s.params.maxSyms < s.inners.length := by unfold State.nint at ha; omega
  exact ⟨s.inners[n - s.params.maxSyms], innerAt_eq_some.2 ⟨hi, List.getElem?_eq_getElem this⟩⟩

/-- An allocated leaf has a record. -/
theorem exists_leafAt {n : Nat} (ha : s.allocated n = true) (hi : s.isLeaf n = true) :
    ∃ r, s.leafAt n = some r := by
  rw [allocated_iff] at ha
  rw [isLeaf_eq_true] at hi
  have : n < s.leaves.length := by unfold State.nleaf at ha; omega
  exact ⟨s.leaves[n], leafAt_eq_some.2 ⟨hi, List.getElem?_eq_getElem this⟩⟩

/-! ### Counting (42_tree_builder.md R142) -/

/-- The allocated nodes. -/
def State.nodes (s : State) : List Nat := List.range s.nleaf ++ List.range' s.params.maxSyms s.nint

theorem mem_nodes {n : Nat} : n ∈ s.nodes ↔ s.allocated n = true := by
  rw [allocated_iff]
  simp [State.nodes, List.mem_range'_1]

theorem nodes_length : s.nodes.length = s.nleaf + s.nint := by simp [State.nodes]

/-- Distinct allocated nodes without parent, and all children, are distinct allocated nodes. -/
theorem TreeInv.count (h : TreeInv s) {l : List Nat} (hl : l.Nodup) (ha : ∀ n ∈ l, s.allocated n = true)
    (hp : ∀ n ∈ l, s.hasParent n = false) :
    l.length + (s.inners.flatMap InnerNode.children).length ≤ s.nleaf + s.nint := by
  rw [← nodes_length, ← List.length_append]
  refine List.Subperm.length_le (List.Nodup.subperm ?_ ?_)
  · refine List.Nodup.append hl h.oneParent ?_
    intro n hn hc
    exact hasParent_eq_false_iff_not_mem.1 (hp n hn) hc
  · intro n hn
    rcases List.mem_append.1 hn with hn | hn
    · exact mem_nodes.2 (ha n hn)
    · obtain ⟨r, hr, hc⟩ := List.mem_flatMap.1 hn
      obtain ⟨k, hk, rfl⟩ := List.getElem_of_mem hr
      exact mem_nodes.2 (olderThan_allocated (h.older_of_mem_children (List.getElem?_eq_getElem hk) hc)
        (Nat.le_of_lt hk))

theorem children_length (l : List InnerNode) :
    (l.flatMap InnerNode.children).length + l.countP (fun r => r.right.isNone) = 2 * l.length := by
  induction l with
  | nil => rfl
  | cons r l ih =>
    rw [List.flatMap_cons, List.length_append, List.countP_cons, List.length_cons]
    have hc : r.children.length + (if r.right.isNone = true then 1 else 0) = 2 := by
      cases hr : r.right <;> simp [InnerNode.children, hr]
    omega

theorem countP_le_one {α : Type} {p : α → Bool} : ∀ {l : List α},
    (∀ (i j : Nat) (a b : α), l[i]? = some a → p a = true → l[j]? = some b → p b = true → i = j) → l.countP p ≤ 1
  | [], _ => by simp
  | a :: l, h => by
    rw [List.countP_cons]
    by_cases ha : p a = true
    · have : l.countP p = 0 := by
        rw [List.countP_eq_zero]
        intro b hb hpb
        obtain ⟨j, hj, rfl⟩ := List.getElem_of_mem hb
        have := h 0 (j + 1) a l[j] rfl ha (by simp [List.getElem?_eq_getElem hj]) hpb
        omega
      simp [ha, this]
    · rw [if_neg ha]
      exact countP_le_one fun i j b c hi hb hj hc => by
        have := h (i + 1) (j + 1) b c (by simpa using hi) hb (by simpa using hj) hc
        omega

/-- There is at most one wrapper (10_state.md R41). -/
theorem TreeInv.wrappers_le_one (h : TreeInv s) : s.inners.countP (fun r => r.right.isNone) ≤ 1 := by
  refine countP_le_one fun i j a b hi ha hj hb => ?_
  have h1 := (h.wrapper i a hi (by simpa using ha)).2.2
  have h2 := (h.wrapper j b hj (by simpa using hb)).2.2
  rw [h1] at h2
  simpa using h2

/-- Without a root there is no wrapper. -/
theorem TreeInv.no_wrapper (h : TreeInv s) (hr : s.root = none) :
    s.inners.countP (fun r => r.right.isNone) = 0 := by
  rw [List.countP_eq_zero]
  intro r hr' hn
  obtain ⟨k, hk, rfl⟩ := List.getElem_of_mem hr'
  have := (h.wrapper k _ (List.getElem?_eq_getElem hk) (by simpa using hn)).2.2
  simp [hr] at this

/-- Before the tree has a root: parentless nodes and internal nodes together are at most the leaves. -/
theorem TreeInv.count_load (h : TreeInv s) (hr : s.root = none) {l : List Nat} (hl : l.Nodup)
    (ha : ∀ n ∈ l, s.allocated n = true) (hp : ∀ n ∈ l, s.hasParent n = false) :
    l.length + s.nint ≤ s.nleaf := by
  have h1 := h.count hl ha hp
  have h2 := children_length s.inners
  have h3 := h.no_wrapper hr
  unfold State.nint at *
  omega

/-- There are never more internal nodes than leaves: the last internal node has no parent. -/
theorem TreeInv.nint_le_nleaf (h : TreeInv s) : s.nint ≤ s.nleaf := by
  by_cases h0 : s.nint = 0
  · omega
  have hlast : s.hasParent (s.params.maxSyms + (s.nint - 1)) = false := by
    rw [hasParent_false_iff]
    intro r hr hc
    obtain ⟨k, hk, rfl⟩ := List.getElem_of_mem hr
    have := h.older_of_mem_children (List.getElem?_eq_getElem hk) hc
    unfold State.olderThan at this
    unfold State.nint at *
    omega
  have h1 := h.count (l := [s.params.maxSyms + (s.nint - 1)]) (by simp)
    (by intro n hn; rw [List.mem_singleton.1 hn, allocated_iff]; right; omega)
    (by intro n hn; rw [List.mem_singleton.1 hn]; exact hlast)
  have h2 := children_length s.inners
  have h3 := h.wrappers_le_one
  simp only [List.length_singleton] at h1
  unfold State.nint at *
  omega

end Sys2Proof.Machine
end

