-- ==== Sys2Proof/Laws/Structure.lean ====
section
/-! SUPPORT. What keeps the structural invariants (10_state.md R38 to R43): allocating a leaf, changing the queue,
joining two nodes, planting a root. -/

namespace Sys2Proof.Machine

/-! ### States that differ in registers no invariant reads -/

/-- `t` is `s` but for `FAULT`, `FINFO`, `WREG` and the ports. -/
def SameCore (s t : State) : Prop :=
  t = { s with fault := t.fault, finfo := t.finfo, wreg := t.wreg, input := t.input, responses := t.responses }

theorem SameCore.refl (s : State) : SameCore s s := rfl

theorem Structural.of_sameCore {s t : State} (h : Structural s) (ht : SameCore s t) : Structural t := by
  rw [ht]
  have hf : State.follow { s with
      fault := t.fault, finfo := t.finfo, wreg := t.wreg, input := t.input, responses := t.responses } = s.follow :=
    follow_congr rfl rfl
  exact ⟨h.params, h.memory, ⟨h.frequency.distinct, h.frequency.positive, h.frequency.total, h.frequency.counts,
    h.frequency.order⟩, h.heap,
    ⟨h.queue.distinct, h.queue.allocated, h.queue.parentless, h.queue.notRoot, h.queue.size⟩,
    ⟨h.tree.left, h.tree.right, h.tree.oneParent, h.tree.sum, h.tree.wrapper⟩, h.leaf,
    ⟨h.phase.load, h.phase.queueEmpty, h.phase.root, fun hne => (h.phase.cur hne).imp_right
      fun ⟨n, m, p, h1, h2, h3, h4, h5⟩ => ⟨n, m, p, h1, h2, h3, (congrFun (congrFun hf n) p).trans h4, h5⟩,
      h.phase.tree, h.phase.noRoot⟩⟩

variable {s : State}

/-! ### Facts the invariants give -/

theorem Structural.hasRecord (h : Structural s) {n : Nat} (ha : s.allocated n = true) : s.hasRecord n = true := by
  rw [hasRecord_eq_allocated h.memory.2.2.1]
  exact ha

theorem Structural.queue_hasRecord (h : Structural s) : ∀ n ∈ s.heap, s.hasRecord n = true := fun n hn =>
  h.hasRecord (h.queue.allocated n hn)

theorem Structural.root_none (h : Structural s) (hl : s.phase = .load) : s.root = none := (h.phase.load hl).1

/-- A node that can be queued finds room in the queue (42_tree_builder.md R142). -/
theorem Structural.queue_room (h : Structural s) (hl : s.phase = .load) {n : Nat} (ha : s.allocated n = true)
    (hp : s.hasParent n = false) (hq : n ∉ s.heap) : s.hsize < s.params.maxSyms := by
  have := h.tree.count_load (h.root_none hl) (List.nodup_cons.2 ⟨hq, h.queue.distinct⟩)
    (by intro m hm; rcases List.mem_cons.1 hm with rfl | hm; exacts [ha, h.queue.allocated m hm])
    (by intro m hm; rcases List.mem_cons.1 hm with rfl | hm; exacts [hp, h.queue.parentless m hm])
  have := h.memory.2.2.1
  simp only [List.length_cons, State.hsize] at *
  omega

/-- Queued nodes and internal nodes together are at most the leaves (42_tree_builder.md R142). -/
theorem Structural.queue_count (h : Structural s) (hl : s.phase = .load) : s.hsize + s.nint ≤ s.nleaf :=
  h.tree.count_load (h.root_none hl) h.queue.distinct h.queue.allocated h.queue.parentless

theorem inQueue_eq_false {n : Nat} : s.inQueue n = false ↔ n ∉ s.heap := by
  simp [State.inQueue]

/-- A child of an allocated internal node keeps its weight when nodes are allocated. -/
theorem olderThan_hasRecord (hl : s.nleaf ≤ s.params.maxSyms) {k n : Nat} (h : s.olderThan k n) (hk : k ≤ s.nint) :
    s.hasRecord n = true := by
  rw [hasRecord_eq_allocated hl]
  exact olderThan_allocated h hk

/-! ### A new leaf -/

theorem hasParent_congr {t : State} (hi : t.inners = s.inners) : t.hasParent = s.hasParent := by
  funext n
  simp [State.hasParent, hi]

theorem Structural.addLeaf (h : Structural s) (hl : s.phase = .load) {r : LeafNode} (hn : s.nleaf < s.params.maxSyms)
    (hx : ∀ r' ∈ s.leaves, r'.sym ≠ r.sym) : Structural (s.addLeaf r) := by
  have hg := nodesGrow_addLeaf s r
  have hlen : (s.addLeaf r).nleaf = s.nleaf + 1 := by simp [State.addLeaf, State.nleaf]
  have hold : ∀ k n, s.olderThan k n → (s.addLeaf r).olderThan k n := by
    intro k n ho
    unfold State.olderThan at ho ⊢
    rw [hlen]
    show (n < s.params.maxSyms ∧ n < s.nleaf + 1) ∨ (s.params.maxSyms ≤ n ∧ n < s.params.maxSyms + k)
    omega
  have hw : ∀ k n, s.inners[k]? ≠ none → s.olderThan k n → (s.addLeaf r).weigh n = s.weigh n := by
    intro k n hk ho
    have : k < s.inners.length := by
      by_contra hc
      exact hk (List.getElem?_eq_none (by omega))
    exact hg.weigh (olderThan_hasRecord h.memory.2.2.1 ho (Nat.le_of_lt this))
  obtain ⟨m1, m2, m3, m4, m5, m6, m7, m8, m9⟩ := h.memory
  refine ⟨h.params, ⟨m1, m2, by rw [hlen]; exact hn, m4, m5, m6, m7, m8, m9⟩, ⟨h.frequency.distinct,
    h.frequency.positive, h.frequency.total, h.frequency.counts, h.frequency.order⟩, ?_, ?_, ?_, ?_, ?_⟩
  · exact IsHeap.congr (w := s.weigh) h.heap fun n hn' => hg.weigh (h.queue_hasRecord n hn')
  · exact ⟨h.queue.distinct, fun n hn' => hg.allocated (h.queue.allocated n hn'), h.queue.parentless,
      h.queue.notRoot, h.queue.size⟩
  · refine ⟨fun k q hk => hold _ _ (h.tree.left k q hk), fun k q c hk hc =>
      ⟨hold _ _ (h.tree.right k q c hk hc).1, (h.tree.right k q c hk hc).2⟩, h.tree.oneParent, ?_, ?_⟩
    · intro k q c hk hc
      have hk' : s.inners[k]? = some q := hk
      rw [hw k _ (by simp [hk']) (h.tree.left k q hk), hw k _ (by simp [hk']) (h.tree.right k q c hk hc).1]
      exact h.tree.sum k q c hk hc
    · intro k q hk hq
      have hk' : s.inners[k]? = some q := hk
      obtain ⟨h1, h2, h3⟩ := h.tree.wrapper k q hk hq
      rw [hw k _ (by simp [hk']) (h.tree.left k q hk)]
      exact ⟨h1, h2, h3⟩
  · show ((s.leaves ++ [r]).map (·.sym)).Nodup
    rw [List.map_append]
    refine List.Nodup.append h.leaf (by simp) ?_
    intro x hx' hx''
    obtain ⟨r', hr', rfl⟩ := List.mem_map.1 hx'
    simp only [List.map_cons, List.map_nil, List.mem_singleton] at hx''
    exact hx r' hr' hx''
  · exact ⟨h.phase.load, h.phase.queueEmpty, fun hne => absurd hl hne, fun hne => absurd hl hne, h.phase.tree,
      fun hne => absurd hl hne⟩

/-! ### Another queue -/

theorem Structural.setHeap (h : Structural s) (hl : s.phase = .load) {q : List Nat} (hd : q.Nodup)
    (ha : ∀ n ∈ q, s.allocated n = true) (hp : ∀ n ∈ q, s.hasParent n = false) (hh : IsHeap s.weigh q) :
    Structural (s.setHeap q) := by
  obtain ⟨m1, m2, m3, m4, m5, m6, m7, m8, m9⟩ := h.memory
  have hlen : q.length ≤ s.params.maxSyms := by
    have := h.tree.count_load (h.root_none hl) hd ha hp
    omega
  have hr := h.root_none hl
  exact ⟨h.params, ⟨m1, m2, m3, m4, hlen, m6, m7, m8, m9⟩, ⟨h.frequency.distinct,
    h.frequency.positive, h.frequency.total, h.frequency.counts, h.frequency.order⟩, hh,
    ⟨hd, ha, hp, fun n _ hc => (by
      have hc' : s.root = some n := hc
      rw [hr] at hc'
      cases hc'), hlen⟩,
    ⟨h.tree.left, h.tree.right, h.tree.oneParent, h.tree.sum, h.tree.wrapper⟩, h.leaf,
    ⟨h.phase.load, fun hne => absurd hl hne, fun hne => absurd hl hne, fun hne => absurd hl hne, h.phase.tree,
      fun hne => absurd hl hne⟩⟩

/-- Inserting a loose node keeps the invariants (41_priority_queue.md R110). -/
theorem Structural.insert (h : Structural s) (hl : s.phase = .load) {n : Nat} (ha : s.allocated n = true)
    (hp : s.hasParent n = false) (hq : n ∉ s.heap) : Structural (s.setHeap (heapInsert s.weigh s.heap n)) := by
  have hperm := heapInsert_perm s.weigh s.heap n
  refine h.setHeap hl (hperm.nodup_iff.2 (List.nodup_cons.2 ⟨hq, h.queue.distinct⟩)) ?_ ?_ (heapInsert_isHeap h.heap)
  · intro m hm
    rcases List.mem_cons.1 (hperm.subset hm) with rfl | hm
    exacts [ha, h.queue.allocated m hm]
  · intro m hm
    rcases List.mem_cons.1 (hperm.subset hm) with rfl | hm
    exacts [hp, h.queue.parentless m hm]

/-- Extracting a node keeps the invariants and leaves it loose (41_priority_queue.md R112). -/
theorem Structural.extract (h : Structural s) (hl : s.phase = .load) {m : Nat} (hm : s.heap.head? = some m) :
    Structural (s.setHeap (heapRemove s.weigh s.heap)) ∧ m ∉ heapRemove s.weigh s.heap ∧ s.allocated m = true ∧
      s.hasParent m = false := by
  have hperm := heapRemove_perm (w := s.weigh) hm
  have hnd := hperm.nodup_iff.2 h.queue.distinct
  rw [List.nodup_cons] at hnd
  have hmem : m ∈ s.heap := hperm.subset List.mem_cons_self
  exact ⟨h.setHeap hl hnd.2 (fun n hn => h.queue.allocated n (hperm.subset (List.mem_cons_of_mem _ hn)))
    (fun n hn => h.queue.parentless n (hperm.subset (List.mem_cons_of_mem _ hn))) (heapRemove_isHeap h.heap),
    hnd.1, h.queue.allocated m hmem, h.queue.parentless m hmem⟩

/-! ### A new internal node -/

theorem hasParent_addInner {r : InnerNode} {n : Nat} :
    (s.addInner r).hasParent n = false ↔ s.hasParent n = false ∧ n ∉ r.children := by
  rw [hasParent_eq_false_iff_not_mem, hasParent_eq_false_iff_not_mem]
  simp [State.addInner]

theorem new_not_mem (h : Structural s) : s.allocated (s.params.maxSyms + s.nint) = false := by
  rw [← Bool.not_eq_true, allocated_iff]
  have := h.memory.2.2.1
  omega

theorem new_parentless (h : Structural s) : s.hasParent (s.params.maxSyms + s.nint) = false := by
  rw [hasParent_false_iff]
  intro r hr hc
  obtain ⟨k, hk, rfl⟩ := List.getElem_of_mem hr
  have := olderThan_allocated (h.tree.older_of_mem_children (List.getElem?_eq_getElem hk) hc) (Nat.le_of_lt hk)
  rw [new_not_mem h] at this
  cases this

theorem getElem?_addInner {r q : InnerNode} {k : Nat} (hk : (s.addInner r).inners[k]? = some q) :
    s.inners[k]? = some q ∨ (k = s.nint ∧ q = r) := by
  simp only [State.addInner, State.nint] at *
  rw [List.getElem?_append] at hk
  split at hk
  · exact .inl hk
  · right
    rw [List.getElem?_singleton] at hk
    split at hk
    · exact ⟨by omega, (Option.some.inj hk).symm⟩
    · cases hk

/-- The tree invariant with a new internal node over parentless nodes, a wrapper only if it is the root. -/
theorem TreeInv.addInner (h : Structural s) {r : InnerNode} {root : Option Nat} (ha : ∀ n ∈ r.children, s.allocated n = true)
    (hp : ∀ n ∈ r.children, s.hasParent n = false) (hd : r.children.Nodup)
    (hs : ∀ c, r.right = some c → r.weight.toNat = s.weigh r.left + s.weigh c)
    (hw : r.right = none → s.isLeaf r.left = true ∧ r.weight.toNat = s.weigh r.left ∧
      root = some (s.params.maxSyms + s.nint)) (hr : s.root = none) :
    TreeInv { s.addInner r with root := root } := by
  have hg := nodesGrow_addInner s r
  have hwg : ∀ n, s.allocated n = true → State.weigh { s.addInner r with root := root } n = s.weigh n := by
    intro n hn
    rw [← hg.weigh (h.hasRecord hn)]
    rfl
  have hal : ∀ (k : Nat) (q : InnerNode) (c : Nat), s.inners[k]? = some q → c ∈ q.children → s.allocated c = true := fun k q c hk hc =>
    olderThan_allocated (h.tree.older_of_mem_children hk hc) (Nat.le_of_lt (List.getElem?_eq_some_iff.1 hk).1)
  have hnew : ∀ n, s.allocated n = true → s.olderThan s.nint n := by
    intro n hn
    rw [allocated_iff] at hn
    unfold State.olderThan
    have := h.memory.2.2.1
    omega
  have hno : ∀ (k : Nat) (q : InnerNode), s.inners[k]? = some q → q.right ≠ none := by
    intro k q hk hq
    have := (h.tree.wrapper k q hk hq).2.2
    simp [hr] at this
  refine ⟨fun k q hk => ?_, fun k q c hk hc => ?_, ?_, fun k q c hk hc => ?_, fun k q hk hq => ?_⟩
  · rcases getElem?_addInner hk with hk | ⟨rfl, rfl⟩
    · exact h.tree.left k q hk
    · exact hnew _ (ha _ (mem_children.2 (.inl rfl)))
  · rcases getElem?_addInner hk with hk | ⟨rfl, rfl⟩
    · exact h.tree.right k q c hk hc
    · refine ⟨hnew _ (ha _ (mem_children.2 (.inr hc))), ?_⟩
      rintro rfl
      simp [InnerNode.children, hc] at hd
  · show ((s.inners ++ [r]).flatMap InnerNode.children).Nodup
    rw [List.flatMap_append, List.flatMap_cons, List.flatMap_nil, List.append_nil]
    exact List.Nodup.append h.tree.oneParent hd fun n hn hn' =>
      hasParent_eq_false_iff_not_mem.1 (hp n hn') hn
  · rcases getElem?_addInner hk with hk | ⟨rfl, rfl⟩
    · rw [hwg _ (hal k q _ hk (mem_children.2 (.inl rfl))), hwg _ (hal k q _ hk (mem_children.2 (.inr hc)))]
      exact h.tree.sum k q c hk hc
    · rw [hwg _ (ha _ (mem_children.2 (.inl rfl))), hwg _ (ha _ (mem_children.2 (.inr hc)))]
      exact hs c hc
  · rcases getElem?_addInner hk with hk | ⟨rfl, rfl⟩
    · exact absurd hq (hno k q hk)
    · rw [hwg _ (ha _ (mem_children.2 (.inl rfl)))]
      exact hw hq

theorem Structural.addInner (h : Structural s) (hl : s.phase = .load) {a b : Nat} (ha : s.allocated a = true)
    (hb : s.allocated b = true) (hpa : s.hasParent a = false) (hpb : s.hasParent b = false) (hab : a ≠ b)
    (hqa : a ∉ s.heap) (hqb : b ∉ s.heap) (hn : s.nint < s.params.maxSyms) (hw : s.weigh a + s.weigh b < 2 ^ 32) :
    Structural (s.addInner (s.joined a b)) := by
  have hg := nodesGrow_addInner s (s.joined a b)
  have hr := h.root_none hl
  have hch : (s.joined a b).children = [a, b] := rfl
  obtain ⟨m1, m2, m3, m4, m5, m6, m7, m8, m9⟩ := h.memory
  have ht : TreeInv { s.addInner (s.joined a b) with root := none } := by
    refine TreeInv.addInner h ?_ ?_ ?_ ?_ ?_ hr
    · intro n hn'; rw [hch] at hn'; simp at hn'; rcases hn' with rfl | rfl <;> assumption
    · intro n hn'; rw [hch] at hn'; simp at hn'; rcases hn' with rfl | rfl <;> assumption
    · rw [hch]; simpa using hab
    · intro c hc
      obtain rfl : b = c := Option.some.inj hc
      show (BitVec.ofNat 32 (s.weigh a + s.weigh b)).toNat = s.weigh a + s.weigh b
      rw [BitVec.toNat_ofNat, Nat.mod_eq_of_lt hw]
    · intro hc; cases hc
  refine ⟨h.params, ⟨m1, m2, m3, by simp [State.addInner, State.nint] at *; omega, m5, m6, m7, m8, m9⟩,
    ⟨h.frequency.distinct, h.frequency.positive, h.frequency.total, h.frequency.counts, h.frequency.order⟩, ?_, ?_,
    ?_, h.leaf, ⟨h.phase.load, h.phase.queueEmpty, fun hne => absurd hl hne, fun hne => absurd hl hne, h.phase.tree,
      fun hne => absurd hl hne⟩⟩
  · exact IsHeap.congr (w := s.weigh) h.heap fun n hn' => hg.weigh (h.queue_hasRecord n hn')
  · refine ⟨h.queue.distinct, fun n hn' => hg.allocated (h.queue.allocated n hn'), fun n hn' => ?_,
      h.queue.notRoot, h.queue.size⟩
    rw [hasParent_addInner, hch]
    refine ⟨h.queue.parentless n hn', ?_⟩
    rintro hc
    simp only [List.mem_cons, List.not_mem_nil, or_false] at hc
    rcases hc with rfl | rfl
    exacts [hqa hn', hqb hn']
  · have : ({ s.addInner (s.joined a b) with root := none } : State) = s.addInner (s.joined a b) := by
      simp only [State.addInner, ← hr]
    rwa [this] at ht

/-- One merge keeps the invariants (42_tree_builder.md R134). -/
theorem Structural.merged (h : Structural s) (hl : s.phase = .load) {a b : Nat} (ha : s.heap.head? = some a)
    (hb : (heapRemove s.weigh s.heap).head? = some b) (hn : s.nint < s.params.maxSyms)
    (hw : s.weigh a + s.weigh b < 2 ^ 32) : Structural (s.merged a b) := by
  obtain ⟨h1, hqa, haa, hpa⟩ := h.extract hl ha
  have hb' : (s.setHeap (heapRemove s.weigh s.heap)).heap.head? = some b := hb
  have hp2 := heapRemove_perm (w := s.weigh) hb
  obtain ⟨h2, hqb, hab, hpb⟩ := h1.extract hl hb'
  rw [weigh_setHeap] at h2 hqb
  have hne : a ≠ b := by
    rintro rfl
    exact hqa (hp2.subset List.mem_cons_self)
  have h3 := Structural.addInner (s := s.setHeap s.twoLess) h2 hl haa hab hpa hpb hne
    (fun hc => hqa (hp2.subset (List.mem_cons_of_mem _ hc))) hqb hn (by rw [weigh_setHeap]; exact hw)
  have e : (s.setHeap s.twoLess).joined a b = s.joined a b := by
    simp only [State.joined, weigh_setHeap]
  rw [e] at h3
  have hnew : ((s.setHeap s.twoLess).addInner (s.joined a b)).allocated (s.params.maxSyms + s.nint) = true := by
    rw [allocated_iff]
    right
    simp [State.addInner, State.setHeap, State.nint]
  have hold := new_not_mem h
  have hmem : s.params.maxSyms + s.nint ∉ s.twoLess := fun hc => by
    have := h2.queue.allocated _ hc
    have e2 : (s.setHeap s.twoLess).allocated (s.params.maxSyms + s.nint) = s.allocated (s.params.maxSyms + s.nint) := rfl
    have e3 : ((s.setHeap (heapRemove s.weigh s.heap)).setHeap s.twoLess).allocated (s.params.maxSyms + s.nint) =
      s.allocated (s.params.maxSyms + s.nint) := rfl
    have : s.allocated (s.params.maxSyms + s.nint) = true := this
    rw [hold] at this
    cases this
  have hpar : ((s.setHeap s.twoLess).addInner (s.joined a b)).hasParent (s.params.maxSyms + s.nint) = false := by
    rw [hasParent_addInner]
    refine ⟨new_parentless h2, ?_⟩
    intro hc
    have hc' : s.params.maxSyms + s.nint ∈ [a, b] := hc
    simp only [List.mem_cons, List.not_mem_nil, or_false] at hc'
    rcases hc' with hc' | hc'
    · rw [hc', haa] at hold
      cases hold
    · rw [hc'] at hold
      have hab' : s.allocated b = true := hab
      rw [hab'] at hold
      cases hold
  have h4 := h3.insert hl hnew hpar hmem
  have hwe : ((s.setHeap s.twoLess).addInner (s.joined a b)).weigh = (s.addInner (s.joined a b)).weigh :=
    weigh_congr rfl rfl rfl
  rw [hwe] at h4
  exact h4

/-! ### Planting a root -/

theorem Structural.plant (h : Structural s) (hl : s.phase = .load) (hq : s.heap = []) {n : Nat}
    (ha : s.allocated n = true) (hi : s.isLeaf n = false) (hp : s.hasParent n = false) :
    Structural (s.plant (some n)) := by
  have hr := h.root_none hl
  obtain ⟨m1, m2, m3, m4, m5, m6, m7, m8, m9⟩ := h.memory
  have hno : ∀ (k : Nat) (q : InnerNode), s.inners[k]? = some q → q.right ≠ none := by
    intro k q hk hq
    have := (h.tree.wrapper k q hk hq).2.2
    simp [hr] at this
  have hq' : (s.plant (some n)).heap = [] := hq
  refine ⟨h.params, ⟨m1, m2, m3, m4, m5, m6, m7, m8, m9⟩,
    ⟨h.frequency.distinct, h.frequency.positive, h.frequency.total, h.frequency.counts, h.frequency.order⟩, h.heap,
    ⟨h.queue.distinct, h.queue.allocated, h.queue.parentless, ?_, h.queue.size⟩,
    ⟨h.tree.left, h.tree.right, h.tree.oneParent, h.tree.sum, fun k q hk hq => absurd hq (hno k q hk)⟩, h.leaf,
    ⟨fun hc => (by cases hc), fun _ => hq, fun _ m hm => ?_, fun _ => .inl rfl,
      fun _ => ⟨(h.phase.load hl).2.2.1, (h.phase.load hl).2.2.2.2⟩, fun _ hc => (by cases hc)⟩⟩
  · rw [hq']
    intro m hm
    cases hm
  · obtain rfl : n = m := Option.some.inj hm
    exact ⟨ha, hi, hp⟩

theorem Structural.plantWrapper (h : Structural s) (hl : s.phase = .load) (hq : s.heap = []) {x : Nat}
    (ha : s.allocated x = true) (hi : s.isLeaf x = true) (hp : s.hasParent x = false)
    (hn : s.nint < s.params.maxSyms) :
    Structural ((s.addInner ⟨BitVec.ofNat 32 (s.weigh x), x, none⟩).plant (some (s.params.maxSyms + s.nint))) := by
  have hr := h.root_none hl
  have hch : InnerNode.children ⟨BitVec.ofNat 32 (s.weigh x), x, none⟩ = [x] := rfl
  obtain ⟨m1, m2, m3, m4, m5, m6, m7, m8, m9⟩ := h.memory
  have ht := TreeInv.addInner (root := some (s.params.maxSyms + s.nint)) h
    (r := ⟨BitVec.ofNat 32 (s.weigh x), x, none⟩)
    (by intro n hn'; rw [hch] at hn'; simp at hn'; rw [hn']; exact ha)
    (by intro n hn'; rw [hch] at hn'; simp at hn'; rw [hn']; exact hp)
    (by rw [hch]; simp) (by intro c hc; cases hc)
    (by
      intro _
      refine ⟨hi, ?_, rfl⟩
      show (BitVec.ofNat 32 (s.weigh x)).toNat = s.weigh x
      rw [BitVec.toNat_ofNat, Nat.mod_eq_of_lt (weigh_lt s x)]) hr
  refine ⟨h.params, ⟨m1, m2, m3, by simp [State.addInner, State.nint, State.plant] at *; omega, m5, m6, m7, m8, m9⟩,
    ⟨h.frequency.distinct, h.frequency.positive, h.frequency.total, h.frequency.counts, h.frequency.order⟩, ?_, ?_,
    ⟨ht.left, ht.right, ht.oneParent, ht.sum, ht.wrapper⟩, h.leaf,
    ⟨fun hc => (by cases hc), fun _ => hq, fun _ m hm => ?_, fun _ => .inl rfl,
      fun _ => ⟨(h.phase.load hl).2.2.1, (h.phase.load hl).2.2.2.2⟩, fun _ hc => (by cases hc)⟩⟩
  · intro i _ hi'
    simp [State.plant, State.addInner, State.hsize, hq] at hi'
  · have hq' : ((s.addInner ⟨BitVec.ofNat 32 (s.weigh x), x, none⟩).plant
        (some (s.params.maxSyms + s.nint))).heap = [] := hq
    refine ⟨?_, ?_, ?_, ?_, ?_⟩ <;> first
      | (rw [hq']; simp)
      | exact m5
  · obtain rfl : s.params.maxSyms + s.nint = m := Option.some.inj hm
    refine ⟨?_, ?_, ?_⟩
    · rw [allocated_iff]
      right
      simp [State.addInner, State.plant, State.nint]
    · rw [isLeaf_eq_false]
      exact Nat.le_add_right _ _
    · show (s.addInner ⟨BitVec.ofNat 32 (s.weigh x), x, none⟩).hasParent _ = false
      rw [hasParent_addInner, hch]
      refine ⟨new_parentless h, ?_⟩
      intro hc
      have := List.mem_singleton.1 hc
      have hi' := isLeaf_eq_true.1 hi
      omega

theorem Structural.plantNone (h : Structural s) (hl : s.phase = .load) (hf : s.ft = []) (hlv : s.leaves = [])
    (hin : s.inners = []) : Structural (s.plant none) := by
  have hq : s.heap = [] := by
    cases hh : s.heap with
    | nil => rfl
    | cons a as =>
      have := h.queue.allocated a (by rw [hh]; exact List.mem_cons_self)
      rw [allocated_iff] at this
      simp [State.nleaf, State.nint, hlv, hin] at this
      omega
  have hr := h.root_none hl
  obtain ⟨m1, m2, m3, m4, m5, m6, m7, m8, m9⟩ := h.memory
  exact ⟨h.params, ⟨m1, m2, m3, m4, m5, m6, m7, m8, m9⟩,
    ⟨h.frequency.distinct, h.frequency.positive, h.frequency.total, h.frequency.counts, h.frequency.order⟩, h.heap,
    ⟨h.queue.distinct, h.queue.allocated, h.queue.parentless, fun _ _ hc => (by cases hc), h.queue.size⟩,
    ⟨h.tree.left, h.tree.right, h.tree.oneParent, h.tree.sum, fun k q hk _ => by
      have hk' : s.inners[k]? = some q := hk
      simp [hin] at hk'⟩, h.leaf,
    ⟨fun hc => (by cases hc), fun _ => hq, fun _ m hm => (by cases hm), fun _ => .inl rfl,
      fun _ => ⟨(h.phase.load hl).2.2.1, (h.phase.load hl).2.2.2.2⟩, fun _ _ => ⟨hf, hlv, hin⟩⟩⟩

end Sys2Proof.Machine
end

