-- ==== Sys2Proof/Laws/Build.lean ====
section
/-! SUPPORT. The loops of `BUILD` complete and keep the invariants (42_tree_builder.md R130, R142). -/

namespace Sys2Proof.Machine

/-- The leaf that step 1 of `BUILD` makes of a frequency entry (42_tree_builder.md R130). -/
def FreqEntry.leaf (e : FreqEntry) : LeafNode := ⟨e.sym, e.count⟩

/-- The sum of the weights of the queued nodes. -/
def State.queuedWeight (s : State) : Nat := (s.heap.map s.weigh).sum

variable {s : State}

/-! ### One leaf made and queued -/

/-- The state after step 1 of `BUILD` for one entry, or `MKLEAF` and `PQINS` of the new leaf. -/
def State.leafQueued (s : State) (r : LeafNode) : State :=
  (s.addLeaf r).setHeap (heapInsert (s.addLeaf r).weigh s.heap s.nleaf)

theorem nleaf_not_allocated (hn : s.nleaf < s.params.maxSyms) : s.allocated s.nleaf = false := by
  rw [← Bool.not_eq_true, allocated_iff]
  omega

theorem Structural.nleaf_parentless (h : Structural s) (hn : s.nleaf < s.params.maxSyms) :
    s.hasParent s.nleaf = false := by
  rw [hasParent_false_iff]
  intro r hr hc
  obtain ⟨k, hk, rfl⟩ := List.getElem_of_mem hr
  have := olderThan_allocated (h.tree.older_of_mem_children (List.getElem?_eq_getElem hk) hc) (Nat.le_of_lt hk)
  rw [nleaf_not_allocated hn] at this
  cases this

theorem Structural.leafQueued (h : Structural s) (hl : s.phase = .load) {r : LeafNode}
    (hn : s.nleaf < s.params.maxSyms) (hx : ∀ r' ∈ s.leaves, r'.sym ≠ r.sym) :
    pqInsert s.nleaf (s.addLeaf r) = .ok (s.leafQueued r) ∧ Structural (s.leafQueued r) ∧
      (s.leafQueued r).queuedWeight = s.queuedWeight + r.weight.toNat := by
  have h1 := h.addLeaf hl hn hx
  have hal : (s.addLeaf r).allocated s.nleaf = true := by
    rw [allocated_iff]
    left
    simp [State.addLeaf, State.nleaf]
  have hq : s.nleaf ∉ s.heap := fun hc => by
    have := h.queue.allocated _ hc
    rw [nleaf_not_allocated hn] at this
    cases this
  have hpar : (s.addLeaf r).hasParent s.nleaf = false := h.nleaf_parentless hn
  refine ⟨?_, h1.insert hl hal hpar hq, ?_⟩
  · refine pqInsert_eq_ok (h1.queue_room hl hal hpar hq) fun m hm => ?_
    rcases List.mem_cons.1 hm with rfl | hm
    exacts [h1.hasRecord hal, h1.queue_hasRecord m hm]
  · have hp := heapInsert_perm (s.addLeaf r).weigh s.heap s.nleaf
    have hg := nodesGrow_addLeaf s r
    have e : (s.leafQueued r).weigh = (s.addLeaf r).weigh := weigh_setHeap _ _
    unfold State.queuedWeight
    rw [e]
    show ((heapInsert (s.addLeaf r).weigh s.heap s.nleaf).map (s.addLeaf r).weigh).sum = _
    rw [(hp.map _).sum_eq, List.map_cons, List.sum_cons, weigh_leaf (leafAt_addLeaf_new s r hn),
      List.map_congr_left (g := s.weigh) fun n hn' => hg.weigh (h.queue_hasRecord n hn')]
    omega

/-- Step 1 of `BUILD` completes: the leaves are made in `FT` order and are all queued (42_tree_builder.md R130). -/
theorem insertLeaves_spec : ∀ (es : List FreqEntry) {s : State}, Structural s → s.phase = .load →
    (∀ e ∈ es, ∀ r ∈ s.leaves, r.sym ≠ e.sym) → (es.map (·.sym)).Nodup →
    s.nleaf + es.length ≤ s.params.maxSyms →
    ∃ t, insertLeaves es s = .ok t ∧ Structural t ∧
      t = { s with leaves := s.leaves ++ es.map FreqEntry.leaf, heap := t.heap } ∧
      t.hsize = s.hsize + es.length ∧
      (∀ n ∈ t.heap, n ∈ s.heap ∨ (s.nleaf ≤ n ∧ n < s.nleaf + es.length)) ∧
      t.queuedWeight = s.queuedWeight + (es.map (·.count.toNat)).sum
  | [], s, h, _, _, _, _ => ⟨s, rfl, h, by simp, rfl, fun n hn => .inl hn, by simp⟩
  | e :: es, s, h, hl, hx, hd, hn => by
    have hn' : s.nleaf < s.params.maxSyms := by simp only [List.length_cons] at hn; omega
    obtain ⟨hi, h1, hw⟩ := h.leafQueued (r := e.leaf) hl hn' (hx e List.mem_cons_self)
    rw [List.map_cons, List.nodup_cons] at hd
    have hlv : (s.leafQueued e.leaf).leaves = s.leaves ++ [e.leaf] := rfl
    have hnl : (s.leafQueued e.leaf).nleaf = s.nleaf + 1 := by simp [State.nleaf, hlv]
    obtain ⟨t, ht, hs, heq, hsz, hmem, hqw⟩ := insertLeaves_spec es h1 hl
      (by
        intro e' he' r hr
        rw [hlv, List.mem_append, List.mem_singleton] at hr
        rcases hr with hr | rfl
        · exact hx e' (List.mem_cons_of_mem _ he') r hr
        · intro hc
          exact hd.1 (List.mem_map.2 ⟨e', he', hc.symm⟩))
      hd.2
      (by
        rw [hnl]
        show s.nleaf + 1 + es.length ≤ s.params.maxSyms
        simp only [List.length_cons] at hn
        omega)
    have hhs : (s.leafQueued e.leaf).hsize = s.hsize + 1 := heapInsert_length _ _ _
    refine ⟨t, ?_, hs, ?_, ?_, ?_, ?_⟩
    · have hi' : pqInsert s.nleaf { s with leaves := s.leaves ++ [⟨e.sym, e.count⟩] } = .ok (s.leafQueued e.leaf) := hi
      simp only [insertLeaves, hi', ok_bind, ht]
    · rw [heq]
      simp [State.leafQueued, State.addLeaf, State.setHeap]
    · rw [hsz, hhs, List.length_cons]
      omega
    · intro n hn
      rcases hmem n hn with hn | hn
      · rcases List.mem_cons.1 ((heapInsert_perm _ _ _).subset hn) with rfl | hn
        · right
          simp only [List.length_cons]
          omega
        · exact .inl hn
      · right
        rw [hnl] at hn
        simp only [List.length_cons]
        omega
    · rw [hqw, hw, List.map_cons, List.sum_cons]
      show s.queuedWeight + e.count.toNat + _ = _
      omega

/-! ### The merges -/

theorem merged_frame (s : State) (a b : Nat) :
    s.merged a b = { s with inners := (s.merged a b).inners, heap := (s.merged a b).heap } := rfl

theorem merged_inners (s : State) (a b : Nat) : (s.merged a b).inners = s.inners ++ [s.joined a b] := rfl

theorem merged_hsize (s : State) (a b : Nat) (h2 : 2 ≤ s.hsize) : (s.merged a b).hsize + 1 = s.hsize := by
  have : (s.merged a b).hsize = s.twoLess.length + 1 := heapInsert_length _ _ _
  rw [this]
  unfold State.twoLess
  rw [heapRemove_length, heapRemove_length]
  unfold State.hsize at *
  omega

theorem merged_nint (s : State) (a b : Nat) : (s.merged a b).nint = s.nint + 1 := by
  simp [State.nint, merged_inners]

theorem Structural.merged_queuedWeight (h : Structural s) {a b : Nat} (hp : (a :: b :: s.twoLess).Perm s.heap)
    (hw : s.weigh a + s.weigh b < 2 ^ 32) : (s.merged a b).queuedWeight = s.queuedWeight := by
  have hg := nodesGrow_addInner s (s.joined a b)
  have e : (s.merged a b).weigh = (s.addInner (s.joined a b)).weigh := weigh_setHeap _ _
  have hi := heapInsert_perm (s.addInner (s.joined a b)).weigh s.twoLess (s.params.maxSyms + s.nint)
  unfold State.queuedWeight
  rw [e]
  show ((heapInsert (s.addInner (s.joined a b)).weigh s.twoLess (s.params.maxSyms + s.nint)).map
    (s.addInner (s.joined a b)).weigh).sum = _
  rw [(hi.map _).sum_eq, ← (hp.map s.weigh).sum_eq, List.map_cons, List.sum_cons, weigh_addInner_new,
    List.map_congr_left (g := s.weigh) fun n hn => hg.weigh (h.queue_hasRecord n
      (hp.subset (List.mem_cons_of_mem _ (List.mem_cons_of_mem _ hn))))]
  simp only [State.joined, BitVec.toNat_ofNat, Nat.mod_eq_of_lt hw, List.map_cons, List.sum_cons]
  omega

/-- A queue of two or more nodes whose weights together stay below 2^32 merges (42_tree_builder.md R132, R142). -/
theorem Structural.mergeStep (h : Structural s) (hl : s.phase = .load) (h2 : 2 ≤ s.hsize)
    (hw : s.queuedWeight < 2 ^ 32) :
    ∃ a b, mergeStep s = .ok (s.params.maxSyms + s.nint, s.merged a b) ∧ Structural (s.merged a b) ∧
      (s.merged a b).queuedWeight = s.queuedWeight := by
  obtain ⟨a, b, ha, hb, hp, hc⟩ := mergeStep_cases h2 h.queue_hasRecord h.queue.size
  have hcount := h.queue_count hl
  have hcap := h.memory.2.2.1
  have hsum : s.weigh a + s.weigh b ≤ s.queuedWeight := by
    unfold State.queuedWeight
    rw [← (hp.map s.weigh).sum_eq, List.map_cons, List.map_cons, List.sum_cons, List.sum_cons]
    omega
  rcases hc with ⟨-, hn⟩ | ⟨-, -, hn⟩ | ⟨e, hn, hw'⟩
  · omega
  · omega
  · exact ⟨a, b, e, h.merged hl ha hb hn hw', h.merged_queuedWeight hp hw'⟩

/-- The merge loop completes with one node queued (42_tree_builder.md R130, step 3). -/
theorem mergeAll_spec : ∀ (fuel : Nat) {s : State}, Structural s → s.phase = .load → s.hsize ≤ fuel + 1 →
    s.queuedWeight < 2 ^ 32 →
    ∃ t, mergeAll fuel s = .ok t ∧ Structural t ∧ t = { s with inners := t.inners, heap := t.heap } ∧
      t.queuedWeight = s.queuedWeight ∧ t.hsize ≤ 1 ∧ t.hsize + t.nint = s.hsize + s.nint ∧
      s.inners <+: t.inners ∧
      (s.hsize ≤ 1 → t = s) ∧ (2 ≤ s.hsize → t.heap = [s.params.maxSyms + t.nint - 1])
  | 0, s, h, hl, hf, hw => by
    refine ⟨s, rfl, h, rfl, rfl, by omega, rfl, List.prefix_rfl, fun _ => rfl, fun h2 => by omega⟩
  | fuel + 1, s, h, hl, hf, hw => by
    by_cases h2 : 1 < s.hsize
    · obtain ⟨a, b, e, hs, hq⟩ := h.mergeStep hl h2 hw
      have hsz := merged_hsize s a b h2
      have hni := merged_nint s a b
      obtain ⟨t, ht, hst, heq, hqw, h1, hcnt, hpre, hstay, htwo⟩ := mergeAll_spec fuel hs hl (by omega)
        (by rw [hq]; exact hw)
      refine ⟨t, ?_, hst, ?_, by rw [hqw, hq], h1, by omega, (List.prefix_append _ _).trans hpre,
        fun hc => by omega, fun _ => ?_⟩
      · simp only [mergeAll, if_pos h2, e, ok_bind, ht]
      · rw [heq]
        simp [State.merged, State.addInner, State.setHeap]
      · by_cases h3 : (s.merged a b).hsize ≤ 1
        · obtain rfl := hstay h3
          have hmem : s.params.maxSyms + s.nint ∈ (s.merged a b).heap :=
            (heapInsert_perm _ _ _).symm.subset List.mem_cons_self
          have hlen : (s.merged a b).heap.length = 1 := by
            have : (s.merged a b).heap.length = (s.merged a b).hsize := rfl
            omega
          obtain ⟨x, hx⟩ := List.length_eq_one_iff.1 hlen
          rw [hx, List.mem_singleton] at hmem
          rw [hx, hni, ← hmem]
          rfl
        · exact htwo (by omega)
    · refine ⟨s, by simp only [mergeAll, if_neg h2], h, rfl, rfl, by omega, rfl, List.prefix_rfl, fun _ => rfl,
        fun h3 => by omega⟩

end Sys2Proof.Machine
end

