-- ==== Sys2Proof/Laws/CodeTable.lean ====
section
/-! SUPPORT. What the walk of `GEN` writes: for each leaf below the root, the path to it (43_code_table.md R150,
R151). -/

namespace Sys2Proof.Machine

/-- The leaves below a node, to a given depth, each with the path that leads to it after a given one. -/
def State.paths (s : State) : Nat → Nat → BitString → List (Nat × BitString)
  | 0, _, _ => []
  | depth + 1, n, path =>
    if s.isLeaf n then [(n, path)]
    else
      match s.innerAt n with
      | none => []
      | some r =>
        s.paths depth r.left (path ++ [false]) ++
          (match r.right with
            | none => []
            | some c => s.paths depth c (path ++ [true]))

/-- A table with the codes of a list of leaves written, one after another. -/
def writeCodes (table : List BitString) (l : List (Nat × BitString)) : List BitString :=
  l.foldl (fun t x => t.set x.1 (codeOfPath x.2)) table

theorem writeCodes_append (table : List BitString) (l l' : List (Nat × BitString)) :
    writeCodes table (l ++ l') = writeCodes (writeCodes table l) l' := by
  simp [writeCodes, List.foldl_append]

@[simp] theorem writeCodes_length (table : List BitString) (l : List (Nat × BitString)) :
    (writeCodes table l).length = table.length := by
  induction l generalizing table with
  | nil => rfl
  | cons x l ih => exact (ih (table.set x.1 (codeOfPath x.2))).trans (List.length_set ..)

theorem writeCodes_of_not_mem {l : List (Nat × BitString)} {i : Nat} (hi : i ∉ l.map (·.1)) (table : List BitString) :
    (writeCodes table l)[i]? = table[i]? := by
  induction l generalizing table with
  | nil => rfl
  | cons x l ih =>
    rw [List.map_cons, List.mem_cons, not_or] at hi
    refine (ih hi.2 (table.set x.1 (codeOfPath x.2))).trans ?_
    rw [List.getElem?_set_ne (Ne.symm hi.1)]

theorem writeCodes_of_mem {l : List (Nat × BitString)} (hd : (l.map (·.1)).Nodup) {i : Nat} {p : BitString}
    (hm : (i, p) ∈ l) (table : List BitString) (hi : i < table.length) :
    (writeCodes table l)[i]? = some (codeOfPath p) := by
  induction l generalizing table with
  | nil => cases hm
  | cons x l ih =>
    rw [List.map_cons, List.nodup_cons] at hd
    rcases List.mem_cons.1 hm with rfl | hm
    · refine (writeCodes_of_not_mem hd.1 (table.set i (codeOfPath p))).trans ?_
      rw [List.getElem?_set_self hi]
    · exact ih hd.2 hm (table.set x.1 (codeOfPath x.2)) (by rwa [List.length_set])

theorem codeOfPath_ne_nil (p : BitString) : codeOfPath p ≠ [] := by
  unfold codeOfPath
  split <;> simp_all

theorem countP_set {α : Type} (q : α → Bool) : ∀ (l : List α) (i : Nat) (a : α) (hi : i < l.length),
    q (l[i]) = false → q a = true → (l.set i a).countP q = l.countP q + 1
  | b :: l, 0, a, _, hb, ha => by
    have hb' : q b = false := hb
    simp [hb', ha]
  | b :: l, i + 1, a, hi, hb, ha => by
    have hi' : i < l.length := by simpa using hi
    have := countP_set q l i a hi' (by simpa using hb) ha
    simp only [List.set_cons_succ, List.countP_cons, this]
    omega

/-- The codes written into empty entries can be counted. -/
theorem countP_writeCodes {l : List (Nat × BitString)} (hd : (l.map (·.1)).Nodup) (table : List BitString)
    (hi : ∀ x ∈ l, table[x.1]? = some []) :
    (writeCodes table l).countP (· ≠ []) = table.countP (· ≠ []) + l.length := by
  induction l generalizing table with
  | nil => rfl
  | cons x l ih =>
    rw [List.map_cons, List.nodup_cons] at hd
    have hx := hi x List.mem_cons_self
    obtain ⟨hlen, hget⟩ := List.getElem?_eq_some_iff.1 hx
    have := ih hd.2 (table.set x.1 (codeOfPath x.2)) fun y hy => by
      rw [List.getElem?_set_ne, hi y (List.mem_cons_of_mem _ hy)]
      intro hc
      exact hd.1 (List.mem_map.2 ⟨y, hy, hc.symm⟩)
    have hc := countP_set (fun b : BitString => decide (b ≠ [])) table x.1 (codeOfPath x.2) hlen
      (by simpa using hget) (by simpa using codeOfPath_ne_nil x.2)
    show (writeCodes (table.set x.1 (codeOfPath x.2)) l).countP (· ≠ []) = _
    rw [this, hc, List.length_cons, Nat.add_assoc, Nat.add_comm 1]

variable {s : State}

/-- The walk completes below an allocated node of a tree, and writes the leaves' paths (43_code_table.md R151). -/
theorem walk_spec (h : Structural s) : ∀ (depth n : Nat) (path : BitString) (table : List BitString) (count : Nat),
    s.allocated n = true → s.rank n < depth →
    walk s depth n path (table, count) =
      .ok (writeCodes table (s.paths depth n path), count + (s.paths depth n path).length)
  | 0, _, _, _, _, _, hr => absurd hr (Nat.not_lt_zero _)
  | depth + 1, n, path, table, count, ha, hr => by
    unfold walk State.paths
    by_cases hl : s.isLeaf n = true
    · obtain ⟨r, hr'⟩ := exists_leafAt ha hl
      simp only [hl, if_true, hr', present, ok_bind]
      rfl
    · have hl' : s.isLeaf n = false := by simpa using hl
      obtain ⟨r, hr'⟩ := exists_innerAt h.memory.2.2.1 ha hl'
      have hleft : s.childAt n false = some r.left := childAt_eq_some.2 ⟨r, hr', rfl⟩
      have ih1 := walk_spec h depth r.left (path ++ [false]) table count (h.tree.allocated_child hleft)
        (by have := h.tree.rank_child hleft; omega)
      simp only [hl', Bool.false_eq_true, if_false, hr', present, ok_bind, ih1]
      cases hc : r.right with
      | none => simp
      | some c =>
        have hright : s.childAt n true = some c := childAt_eq_some.2 ⟨r, hr', hc⟩
        have ih2 := walk_spec h depth c (path ++ [true]) (writeCodes table (s.paths depth r.left (path ++ [false])))
          (count + (s.paths depth r.left (path ++ [false])).length) (h.tree.allocated_child hright)
          (by have := h.tree.rank_child hright; omega)
        simp only [ih2, writeCodes_append, List.length_append, Nat.add_assoc]

/-- The leaves that the walk meets are those below the node, each with its path. -/
theorem mem_paths (h : Structural s) : ∀ (depth n : Nat) (path : BitString) (i : Nat) (q : BitString),
    s.allocated n = true → s.rank n < depth →
    ((i, q) ∈ s.paths depth n path ↔ s.isLeaf i = true ∧ ∃ p, q = path ++ p ∧ s.follow n p = some i)
  | 0, _, _, _, _, _, hr => absurd hr (Nat.not_lt_zero _)
  | depth + 1, n, path, i, q, ha, hr => by
    unfold State.paths
    by_cases hl : s.isLeaf n = true
    · rw [if_pos hl, List.mem_singleton, Prod.mk.injEq]
      constructor
      · rintro ⟨rfl, rfl⟩
        exact ⟨hl, [], by simp, rfl⟩
      · rintro ⟨-, p, rfl, hf⟩
        obtain ⟨rfl, rfl⟩ := follow_leaf (isLeaf_eq_true.1 hl) hf
        exact ⟨rfl, by simp⟩
    · have hl' : s.isLeaf n = false := by simpa using hl
      obtain ⟨r, hr'⟩ := exists_innerAt h.memory.2.2.1 ha hl'
      have hleft : s.childAt n false = some r.left := childAt_eq_some.2 ⟨r, hr', rfl⟩
      have ih1 := mem_paths h depth r.left (path ++ [false]) i q (h.tree.allocated_child hleft)
        (by have := h.tree.rank_child hleft; omega)
      have hR : (i, q) ∈ (match r.right with
          | none => []
          | some c => s.paths depth c (path ++ [true])) ↔
          s.isLeaf i = true ∧ ∃ p, q = path ++ [true] ++ p ∧ ∃ c, s.childAt n true = some c ∧ s.follow c p = some i := by
        cases hc : r.right with
        | none =>
          have : s.childAt n true = none := by
            simp only [State.childAt, hr', Option.bind_some, InnerNode.child, if_true, hc]
          simp [this]
        | some c =>
          have hright : s.childAt n true = some c := childAt_eq_some.2 ⟨r, hr', hc⟩
          have := mem_paths h depth c (path ++ [true]) i q (h.tree.allocated_child hright)
            (by have := h.tree.rank_child hright; omega)
          rw [this]
          simp [hright]
      simp only [hl', Bool.false_eq_true, if_false, hr', List.mem_append, ih1, hR]
      constructor
      · rintro (⟨hi, p, rfl, hf⟩ | ⟨hi, p, rfl, c, hc, hf⟩)
        · exact ⟨hi, false :: p, by simp, by rw [follow_cons, hleft]; exact hf⟩
        · exact ⟨hi, true :: p, by simp, by rw [follow_cons, hc]; exact hf⟩
      · rintro ⟨hi, p, rfl, hf⟩
        cases p with
        | nil =>
          obtain rfl : n = i := by simpa using hf
          rw [hl'] at hi
          cases hi
        | cons b p =>
          rw [follow_cons] at hf
          obtain ⟨c, hc, hfc⟩ := Option.bind_eq_some_iff.1 hf
          cases b
          · rw [hleft] at hc
            obtain rfl : r.left = c := Option.some.inj hc
            exact .inl ⟨hi, p, by simp, hfc⟩
          · exact .inr ⟨hi, p, by simp, c, hc, hfc⟩

/-- The walk meets each leaf once (43_code_table.md R151). -/
theorem paths_nodup (h : Structural s) : ∀ (depth n : Nat) (path : BitString), s.allocated n = true →
    s.rank n < depth → ((s.paths depth n path).map (·.1)).Nodup
  | 0, _, _, _, hr => absurd hr (Nat.not_lt_zero _)
  | depth + 1, n, path, ha, hr => by
    unfold State.paths
    by_cases hl : s.isLeaf n = true
    · rw [if_pos hl]
      simp
    · have hl' : s.isLeaf n = false := by simpa using hl
      obtain ⟨r, hr'⟩ := exists_innerAt h.memory.2.2.1 ha hl'
      have hleft : s.childAt n false = some r.left := childAt_eq_some.2 ⟨r, hr', rfl⟩
      have ral : s.rank r.left < depth := by have := h.tree.rank_child hleft; omega
      have ih1 := paths_nodup h depth r.left (path ++ [false]) (h.tree.allocated_child hleft) ral
      simp only [hl', Bool.false_eq_true, if_false, hr']
      cases hc : r.right with
      | none => simpa using ih1
      | some c =>
        have hright : s.childAt n true = some c := childAt_eq_some.2 ⟨r, hr', hc⟩
        have rac : s.rank c < depth := by have := h.tree.rank_child hright; omega
        have ih2 := paths_nodup h depth c (path ++ [true]) (h.tree.allocated_child hright) rac
        simp only [List.map_append]
        refine List.Nodup.append ih1 ih2 ?_
        intro i hi hi'
        obtain ⟨⟨i1, q1⟩, hm1, rfl⟩ := List.mem_map.1 hi
        obtain ⟨⟨i2, q2⟩, hm2, he⟩ := List.mem_map.1 hi'
        simp only at he
        subst he
        obtain ⟨-, p1, -, hf1⟩ := (mem_paths h depth r.left _ _ _ (h.tree.allocated_child hleft) ral).1 hm1
        obtain ⟨-, p2, -, hf2⟩ := (mem_paths h depth c _ _ _ (h.tree.allocated_child hright) rac).1 hm2
        have g1 : s.follow n (false :: p1) = some i2 := by rw [follow_cons, hleft]; exact hf1
        have g2 : s.follow n (true :: p2) = some i2 := by rw [follow_cons, hright]; exact hf2
        have := h.tree.path_unique g1 g2
        cases this

end Sys2Proof.Machine
end

