-- ==== Sys2Proof/Laws/Decode.lean ====
section
/-! SUPPORT. The two fields of a command word, and the fields of its operand. -/

namespace Sys2Proof

@[simp] theorem opcodeOf_mkWord (op : BitVec 8) (arg : Arg) : opcodeOf (mkWord op arg) = op := by
  apply BitVec.eq_of_getLsbD_eq
  intro i hi
  simp only [opcodeOf, mkWord, BitVec.getLsbD_append, BitVec.getLsbD_extractLsb']
  simp [hi]

@[simp] theorem argOf_mkWord (op : BitVec 8) (arg : Arg) : argOf (mkWord op arg) = arg := by
  apply BitVec.eq_of_getLsbD_eq
  intro i hi
  simp only [argOf, mkWord, BitVec.getLsbD_append, BitVec.getLsbD_extractLsb']
  simp [hi]

@[simp] theorem mkWord_opcodeOf_argOf (w : Word) : mkWord (opcodeOf w) (argOf w) = w := by
  apply BitVec.eq_of_getLsbD_eq
  intro i hi
  simp only [opcodeOf, argOf, mkWord, BitVec.getLsbD_append, BitVec.getLsbD_extractLsb']
  by_cases h : i < 24
  · simp [h]
  · simp [h, show i - 24 < 8 by omega, show 24 + (i - 24) = i by omega]

theorem encode_opcode (i : Instr) : opcodeOf (encode i) = i.opcode := by simp [encode]

theorem encode_arg (i : Instr) : argOf (encode i) = i.arg := by simp [encode]

/-- Format `CW`: the two fields of the operand are those it was assembled from. -/
theorem fields_CW (i w : BitVec 12) :
    (w ++ i : Arg).extractLsb' 0 12 = i ∧ (w ++ i : Arg).extractLsb' 12 12 = w := by
  constructor <;> apply BitVec.eq_of_getLsbD_eq <;> intro k hk <;>
    simp only [BitVec.getLsbD_append, BitVec.getLsbD_extractLsb'] <;> simp [hk]

theorem append_fields_CW (arg : Arg) : (arg.extractLsb' 12 12 ++ arg.extractLsb' 0 12 : Arg) = arg := by
  apply BitVec.eq_of_getLsbD_eq
  intro i hi
  simp only [BitVec.getLsbD_append, BitVec.getLsbD_extractLsb']
  by_cases h : i < 12
  · simp [h]
  · simp [h, show i - 12 < 12 by omega, show 12 + (i - 12) = i by omega]

/-- Format `NF`: the fields of the operand are those it was assembled from. -/
theorem fields_NF (n : BitVec 16) (f : BitVec 3) :
    (0#5 ++ f ++ n : Arg).extractLsb' 0 16 = n ∧ (0#5 ++ f ++ n : Arg).extractLsb' 16 3 = f ∧
      (0#5 ++ f ++ n : Arg).extractLsb' 19 5 = 0 := by
  refine ⟨?_, ?_, ?_⟩ <;> apply BitVec.eq_of_getLsbD_eq <;> intro k hk <;>
    simp only [BitVec.getLsbD_append, BitVec.getLsbD_extractLsb']
  · simp [hk]
  · simp [hk]
  · simp [show ¬ 19 + k < 16 by omega, show ¬ 19 + k - 16 < 3 by omega]

theorem append_fields_NF {arg : Arg} (h : arg.extractLsb' 19 5 = 0) :
    (0#5 ++ arg.extractLsb' 16 3 ++ arg.extractLsb' 0 16 : Arg) = arg := by
  apply BitVec.eq_of_getLsbD_eq
  intro i hi
  simp only [BitVec.getLsbD_append, BitVec.getLsbD_extractLsb']
  by_cases h1 : i < 16
  · simp [h1]
  · by_cases h2 : i - 16 < 3
    · simp [h1, h2, show 16 + (i - 16) = i by omega]
    · have := congrArg (·.getLsbD (i - 19)) h
      simp [show i - 19 < 5 by omega, show 19 + (i - 19) = i by omega] at this
      simp [h1, h2, this]

/-- Format `B`: the bit of the operand is the one it was assembled from. -/
theorem fields_B (b : Bool) :
    (0#23 ++ BitVec.ofBool b : Arg).getLsbD 0 = b ∧ (0#23 ++ BitVec.ofBool b : Arg).extractLsb' 1 23 = 0 := by
  cases b <;> decide

theorem append_fields_B {arg : Arg} (h : arg.extractLsb' 1 23 = 0) :
    (0#23 ++ BitVec.ofBool (arg.getLsbD 0) : Arg) = arg := by
  apply BitVec.eq_of_getLsbD_eq
  intro i hi
  simp only [BitVec.getLsbD_append]
  by_cases h1 : i < 1
  · have : i = 0 := by omega
    subst this
    simp
  · have := congrArg (·.getLsbD (i - 1)) h
    simp [show i - 1 < 23 by omega, show 1 + (i - 1) = i by omega] at this
    simp [h1, this]

end Sys2Proof
end

