-- ==== Sys2Proof/Laws/Exec.lean ====
section
/-! SUPPORT. What a command and a step can come to, said once for all commands. -/

namespace Sys2Proof.Machine

/-- The body of the rule of a command on a state: `exec` runs it (30_encoding.md R88). -/
def bodyOf (i : Instr) (s : State) : Body :=
  match i with
  | .nop => .ok (s, okData 0#32)
  | .clr => .ok (s.clear, okData 0#32)
  | .rdreg r => .ok (s, okOrNone ((regOfNumber r.toNat).map s.readReg))
  | .sym x => symBody x s
  | .setw imm => .ok ({ s with wreg := zext imm }, okData (zext imm))
  | .mkleaf x => mkleafBody x s
  | .pqins n => pqinsBody n.toNat s
  | .pqext => pqextBody s
  | .pqsize => .ok (s, okData (natData s.hsize))
  | .build => buildBody s
  | .merge => mergeBody s
  | .finish => finishBody s
  | .gen => genBody s
  | .lookup x => .ok (s, okOrNone ((s.codedLeaf x).map natData))
  | .rdclen k => .ok (s, okOrNone (s.codeLength k.toNat))
  | .rdcode k w => .ok (s, okOrNone (s.codeWindow k.toNat w.toNat))
  | .enc => encBody s
  | .encs x => encsBody x s
  | .encinit => encinitBody s
  | .rdbits w => .ok (s, okOrNone (s.bitsWindow w.toNat))
  | .dec => decBody s
  | .decinit => decinitBody s
  | .decb b => decbBody b s
  | .rdout k => .ok (s, okOrNone (s.out[k.toNat]?.map symData))
  | .rdtxt k => .ok (s, okOrNone (s.txt[k.toNat]?.map symData))
  | .rdfsym k => .ok (s, okOrNone (s.ft[k.toNat]?.map fun e => symData e.sym))
  | .rdfcnt k => .ok (s, okOrNone (s.ft[k.toNat]?.map (·.count)))
  | .rdnode n f => .ok (s, okOrNone (s.nodeField n.toNat f.toNat))
  | .rdheap k => .ok (s, okOrNone (s.heap[k.toNat]?.map natData))

theorem exec_eq_runCommand (i : Instr) (s : State) : exec i s = s.runCommand i (bodyOf i s) := by
  cases i <;> rfl

/-! ### From the body of a rule to `exec` -/

theorem exec_of_body_ok {i : Instr} {s u : State} {r : Response} (hf : s.fault = none)
    (h : bodyOf i s = .ok (u, r)) : exec i s = .next (u.respond r) := by
  rw [exec_eq_runCommand, h]
  exact runCommand_ok (.inl hf)

theorem exec_of_body_raise {i : Instr} {s : State} {f : FaultCode} (hf : s.fault = none)
    (h : bodyOf i s = .error (.raise f)) : exec i s = .next (s.raiseFault (encode i) f) := by
  rw [exec_eq_runCommand, h]
  exact runCommand_raise hf

/-- A read-class command answers `OK` or `NONE` in the same state, faulted or not (20_memory.md R67). -/
theorem bodyOf_readClass {i : Instr} (h : readClass i = true) (s : State) :
    ∃ r, bodyOf i s = .ok (s, r) ∧ (r.status = .ok ∨ r = noneData) := by
  have key : ∀ o : Option Word, (okOrNone o).status = .ok ∨ okOrNone o = noneData := by
    intro o
    cases o
    · exact .inr rfl
    · exact .inl rfl
  cases i <;> simp [readClass] at h <;> first
    | exact ⟨_, rfl, key _⟩
    | exact ⟨_, rfl, .inl rfl⟩

theorem exec_of_readClass {i : Instr} {s : State} {r : Response} (h : readClass i = true)
    (hb : bodyOf i s = .ok (s, r)) : exec i s = .next (s.respond r) := by
  rw [exec_eq_runCommand, hb]
  exact runCommand_ok (.inr (runsWhenFaulted_of_readClass h))

/-- The commands that run when faulted raise no fault and are never stuck. -/
theorem bodyOf_runsWhenFaulted {i : Instr} (h : runsWhenFaulted i = true) (s : State) :
    ∃ u r, bodyOf i s = .ok (u, r) := by
  have h' : readClass i = true ∨ i = .nop ∨ i = .clr := by
    simpa [runsWhenFaulted, or_assoc] using h
  rcases h' with h' | rfl | rfl
  · obtain ⟨r, hr, -⟩ := bodyOf_readClass h' s
    exact ⟨s, r, hr⟩
  · exact ⟨_, _, rfl⟩
  · exact ⟨_, _, rfl⟩

/-- Everything `exec` can come to when it answers a next state: refused, executed, or a fault taken. -/
theorem exec_next {i : Instr} {s t : State} (h : exec i s = .next t) :
    (s.fault ≠ none ∧ runsWhenFaulted i = false ∧ t = s.refuse) ∨
      ((s.fault = none ∨ runsWhenFaulted i = true) ∧ ∃ u r, bodyOf i s = .ok (u, r) ∧ t = u.respond r) ∨
      (s.fault = none ∧ ∃ f, bodyOf i s = .error (.raise f) ∧ t = s.raiseFault (encode i) f) := by
  rw [exec_eq_runCommand] at h
  rcases runCommand_next h with ⟨hf, hi, ht⟩ | ⟨hf, ⟨u, r, hb, ht⟩ | ⟨f, hb, ht⟩⟩
  · exact .inl ⟨faulted_eq_true.1 hf, hi, ht⟩
  · exact .inr (.inl ⟨by simpa using hf, u, r, hb, ht⟩)
  · refine .inr (.inr ⟨?_, f, hb, ht⟩)
    rcases hf with hf | hf
    · simpa using hf
    · obtain ⟨u, r, hok⟩ := bodyOf_runsWhenFaulted hf s
      rw [hok] at hb
      cases hb

/-- A command stops the model only where its rule is stuck. -/
theorem exec_stops {i : Instr} {s : State} (h : ∀ t, exec i s ≠ .next t) : ∃ r, bodyOf i s = .error (.stuck r) := by
  cases hb : bodyOf i s with
  | ok p =>
    obtain ⟨u, r⟩ := p
    by_cases hf : s.fault = none
    · exact absurd (exec_of_body_ok hf hb) (h _)
    · by_cases hi : runsWhenFaulted i = true
      · exact absurd (by rw [exec_eq_runCommand, hb]; exact runCommand_ok (.inr hi)) (h (u.respond r))
      · exact absurd (by rw [exec_eq_runCommand]; exact runCommand_refused _ (by simpa using hf) (by simpa using hi))
          (h s.refuse)
  | error e =>
    cases e with
    | stuck r => exact ⟨r, rfl⟩
    | raise f =>
      by_cases hf : s.fault = none
      · exact absurd (exec_of_body_raise hf hb) (h _)
      · by_cases hi : runsWhenFaulted i = true
        · obtain ⟨u, r, hok⟩ := bodyOf_runsWhenFaulted hi s
          rw [hok] at hb
          cases hb
        · exact absurd (by rw [exec_eq_runCommand]; exact runCommand_refused _ (by simpa using hf) (by simpa using hi))
            (h s.refuse)

/-! ### What a step can come to -/

theorem step_of_command {s : State} {w : Word} {rest : List HostAction} (h : s.input = .command w :: rest) :
    step s = match decode s.params.symW w with
      | .ok i => exec i { s with input := rest }
      | .error _ => .next ({ s with input := rest }.takeIllegal w) := by
  cases hd : decode s.params.symW w <;> simp only [step, State.takeAction, h, hd]

theorem step_of_reset {s : State} {rest : List HostAction} (h : s.input = .reset :: rest) :
    step s = .next { State.resetOf s.params with input := rest, responses := s.responses } := by
  simp only [step, State.takeAction, h]
  rfl

theorem step_of_silence {s : State} (h : s.input = []) : step s = .next s := by
  simp only [step, State.takeAction, h]

/-- Everything a step can come to when it answers a next state. -/
theorem step_next {s t : State} (h : step s = .next t) :
    (s.input = [] ∧ t = s) ∨
      (∃ rest, s.input = .reset :: rest ∧
        t = { State.resetOf s.params with input := rest, responses := s.responses }) ∨
      ∃ w rest, s.input = .command w :: rest ∧
        ((∃ e, decode s.params.symW w = .error e ∧ t = { s with input := rest }.takeIllegal w) ∨
          ∃ i, decode s.params.symW w = .ok i ∧ exec i { s with input := rest } = .next t) := by
  cases hin : s.input with
  | nil =>
    rw [step_of_silence hin] at h
    exact .inl ⟨rfl, (Host.Outcome.next.inj h).symm⟩
  | cons a rest =>
    cases a with
    | reset =>
      rw [step_of_reset hin] at h
      exact .inr (.inl ⟨rest, rfl, (Host.Outcome.next.inj h).symm⟩)
    | command w =>
      rw [step_of_command hin] at h
      refine .inr (.inr ⟨w, rest, rfl, ?_⟩)
      split at h
      · next i hd => exact .inr ⟨i, hd, h⟩
      · next e hd => exact .inl ⟨e, hd, (Host.Outcome.next.inj h).symm⟩

end Sys2Proof.Machine
end

