-- ==== Sys2Proof/Laws/Decoder.lean ====
section
/-! SUPPORT. What one transition of the decoder does, case by case (45_decoder.md R192). -/

namespace Sys2Proof.Machine

theorem decoderPhase_iff {s : State} : s.decoderPhase = true ↔ s.phase ≠ .load := by
  unfold State.decoderPhase
  cases s.phase <;> decide

/-- "absent root ... decode[s] to empty text" (45_decoder.md R198). -/
theorem decbStep_noRoot {b : Bool} {s : State} (hr : s.root = none) : decbStep b s = .ok (s, noneData) := by
  simp only [decbStep, hr]

theorem decbStep_noChild {b : Bool} {s : State} {n c : Nat} {r : InnerNode} (hr : s.root = some n)
    (hc : s.cur = some c) (hi : s.innerAt c = some r) (hm : r.child b = none) :
    decbStep b s = .error (.raise .nochild) := by
  simp only [decbStep, hr, hc, hi, present, ok_bind, hm]

theorem decbStep_inner {b : Bool} {s : State} {n c m : Nat} {r : InnerNode} (hr : s.root = some n)
    (hc : s.cur = some c) (hi : s.innerAt c = some r) (hm : r.child b = some m) (hl : s.isLeaf m = false) :
    decbStep b s = .ok ({ s with cur := some m }, noneData) := by
  simp only [decbStep, hr, hc, hi, present, ok_bind, hm, hl, Bool.false_eq_true, if_false]

theorem decbStep_full {b : Bool} {s : State} {n c m : Nat} {r : InnerNode} (hr : s.root = some n)
    (hc : s.cur = some c) (hi : s.innerAt c = some r) (hm : r.child b = some m) (hl : s.isLeaf m = true)
    (hL : s.params.maxLen ≤ s.olen) : decbStep b s = .error (.raise .cap) := by
  simp only [decbStep, hr, hc, hi, present, ok_bind, hm, hl, if_true, Nat.not_lt.2 hL, decide_false,
    require_false, error_bind]

theorem decbStep_leaf {b : Bool} {s : State} {n c m : Nat} {r : InnerNode} {l : LeafNode} (hr : s.root = some n)
    (hc : s.cur = some c) (hi : s.innerAt c = some r) (hm : r.child b = some m) (hl : s.leafAt m = some l)
    (hL : s.olen < s.params.maxLen) :
    decbStep b s = .ok ({ s with out := s.out ++ [l.sym], cur := s.root }, okData (symData l.sym)) := by
  have h1 : s.isLeaf m = true := isLeaf_eq_true.2 (leafAt_eq_some.1 hl).1
  simp only [decbStep, hr, hc, hi, present, ok_bind, hm, h1, if_true, hL, decide_true, require_true, hl]

/-- Everything one transition can come to when it responds. -/
theorem decbStep_ok {b : Bool} {s t : State} {a : Response} (h : decbStep b s = .ok (t, a)) :
    (s.root = none ∧ t = s ∧ a = noneData) ∨
      ∃ n c m r, s.root = some n ∧ s.cur = some c ∧ s.innerAt c = some r ∧ r.child b = some m ∧
        ((s.isLeaf m = false ∧ t = { s with cur := some m } ∧ a = noneData) ∨
          ∃ l, s.leafAt m = some l ∧ s.olen < s.params.maxLen ∧
            t = { s with out := s.out ++ [l.sym], cur := s.root } ∧ a = okData (symData l.sym)) := by
  cases hr : s.root with
  | none =>
    rw [decbStep_noRoot hr] at h
    obtain ⟨rfl, rfl⟩ := Prod.mk.inj (Except.ok.inj h)
    exact .inl ⟨rfl, rfl, rfl⟩
  | some n =>
    right
    simp only [decbStep, hr] at h
    obtain ⟨c, hc, h⟩ := bind_eq_ok.1 h
    obtain ⟨r, hi, h⟩ := bind_eq_ok.1 h
    rw [present_eq_ok] at hc hi
    cases hm : r.child b with
    | none => simp [hm] at h
    | some m =>
      refine ⟨n, c, m, r, rfl, hc, hi, hm, ?_⟩
      simp only [hm] at h
      split at h
      · obtain ⟨_, hL, h⟩ := bind_eq_ok.1 h
        obtain ⟨l, hl, h⟩ := bind_eq_ok.1 h
        obtain ⟨rfl, rfl⟩ := Prod.mk.inj (Except.ok.inj h)
        exact .inr ⟨l, present_eq_ok.1 hl, by simpa using hL, rfl, rfl⟩
      · next hl =>
        obtain ⟨rfl, rfl⟩ := Prod.mk.inj (Except.ok.inj h)
        exact .inl ⟨by simpa using hl, rfl, rfl⟩

/-- The faults one transition can raise. -/
theorem decbStep_raise {b : Bool} {s : State} {f : FaultCode} (h : decbStep b s = .error (.raise f)) :
    ∃ n c r, s.root = some n ∧ s.cur = some c ∧ s.innerAt c = some r ∧
      ((f = .nochild ∧ b = true ∧ r.right = none) ∨
        ∃ m, r.child b = some m ∧ s.isLeaf m = true ∧ f = .cap ∧ s.params.maxLen ≤ s.olen) := by
  cases hr : s.root with
  | none =>
    rw [decbStep_noRoot hr] at h
    cases h
  | some n =>
    simp only [decbStep, hr] at h
    rcases bind_eq_error.1 h with h | ⟨c, hc, h⟩
    · exact absurd h present_ne_raise
    rcases bind_eq_error.1 h with h | ⟨r, hi, h⟩
    · exact absurd h present_ne_raise
    refine ⟨n, c, r, rfl, present_eq_ok.1 hc, present_eq_ok.1 hi, ?_⟩
    cases hm : r.child b with
    | none =>
      simp only [hm] at h
      refine .inl ⟨?_, ?_⟩
      · cases h; rfl
      · cases b <;> simp_all [InnerNode.child]
    | some m =>
      refine .inr ⟨m, rfl, ?_⟩
      simp only [hm] at h
      split at h
      · next hl =>
        rcases bind_eq_error.1 h with h | ⟨_, -, h⟩
        · obtain ⟨hc, rfl⟩ := require_eq_raise.1 h
          exact ⟨hl, rfl, by simpa using hc⟩
        · rcases bind_eq_error.1 h with h | ⟨_, -, h⟩
          · exact absurd h present_ne_raise
          · cases h
      · cases h

end Sys2Proof.Machine
end

