-- ==== Sys2Proof/Laws/Commands.lean ====
section
/-! SUPPORT. The commands complete in states that meet the structural invariants, and keep those invariants. -/

namespace Sys2Proof.Machine

variable {s : State}

/-! ### Reset -/

theorem structural_resetOf {p : Params} (hp : p.Legal) : Structural (State.resetOf p) := by
  refine ⟨hp, ?_, ⟨?_, ?_, ?_, ?_, ?_⟩, ?_, ⟨?_, ?_, ?_, ?_, ?_⟩, ⟨?_, ?_, ?_, ?_, ?_⟩, ?_, ⟨?_, ?_, ?_, ?_, ?_, ?_⟩⟩
  all_goals simp [State.resetOf, Memory.wf, State.tlen, State.nsym, State.nleaf, State.nint, State.hsize, State.blen,
    State.olen, LeafInv, HeapInv]

theorem Structural.clear (h : Structural s) : Structural s.clear :=
  (structural_resetOf h.params).of_sameCore rfl

/-! ### BUILD -/

/-- `BUILD` completes, in the form its three cases give (42_tree_builder.md R130). -/
theorem buildBody_spec (h : Structural s) (hl : s.phase = .load) (hlv : s.leaves = []) (hin : s.inners = [])
    (hq : s.heap = []) :
    (s.ft = [] ∧ buildBody s = .ok (s.plant none, noneData) ∧ Structural (s.plant none)) ∨
      (∃ e, s.ft = [e] ∧ ∃ t, t = { s with
          leaves := [e.leaf]
          inners := [⟨e.count, 0, none⟩]
          root := some s.params.maxSyms
          cur := some s.params.maxSyms
          phase := .tree } ∧
        buildBody s = .ok (t, okData (natData s.params.maxSyms)) ∧ Structural t) ∨
      (2 ≤ s.nsym ∧ ∃ t, t = { s with
          leaves := s.ft.map FreqEntry.leaf
          inners := t.inners
          root := some (s.params.maxSyms + s.nsym - 2)
          cur := some (s.params.maxSyms + s.nsym - 2)
          phase := .tree } ∧
        buildBody s = .ok (t, okData (natData (s.params.maxSyms + s.nsym - 2))) ∧ Structural t ∧
        t.nint = s.nsym - 1 ∧ (∀ r ∈ t.inners, r.right ≠ none) ∧
        t.weigh (s.params.maxSyms + s.nsym - 2) = s.tlen) := by
  obtain ⟨m1, m2, m3, m4, m5, m6, m7, m8, m9⟩ := h.memory
  obtain ⟨t1, e1, h1, q1, z1, k1, w1⟩ := insertLeaves_spec s.ft h hl (by simp [hlv]) h.frequency.distinct
    (by simp only [State.nleaf, hlv, List.length_nil, Nat.zero_add]; exact m2)
  have hreq : require (s.phase == .load && s.nleaf == 0 && s.nint == 0 && s.hsize == 0) .seq = .ok () := by
    simp [hl, State.nleaf, State.nint, State.hsize, hlv, hin, hq, require]
  have hz : t1.hsize = s.nsym := by
    rw [z1]
    simp [State.hsize, hq, State.nsym]
  have hw : t1.queuedWeight = s.tlen := by
    rw [w1, h.frequency.total]
    simp [State.queuedWeight, hq]
  have htl : s.tlen < 2 ^ 32 := by
    have := h.params.2.2.1
    omega
  rw [hlv, List.nil_append] at q1
  have hcase : s.ft = [] ∨ (∃ e, s.ft = [e]) ∨ 2 ≤ s.nsym := by
    unfold State.nsym
    rcases s.ft with _ | ⟨e, _ | ⟨e', es⟩⟩
    · exact .inl rfl
    · exact .inr (.inl ⟨e, rfl⟩)
    · exact .inr (.inr (by simp))
  rcases hcase with hft | ⟨e, hft⟩ | h2
  · left
    refine ⟨hft, ?_, h.plantNone hl hft hlv hin⟩
    have : insertLeaves [] s = .ok s := rfl
    simp only [buildBody, hreq, ok_bind, hft, this, State.nsym, List.length_nil, if_true]
  · right; left
    have hns : s.nsym = 1 := by simp [State.nsym, hft]
    have hheap : t1.heap = [0] := by
      have hlen : t1.heap.length = 1 := by rw [← hns, ← hz]; rfl
      obtain ⟨x, hx⟩ := List.length_eq_one_iff.1 hlen
      have := k1 x (by rw [hx]; exact List.mem_singleton_self x)
      simp [hq, State.nleaf, hlv, hft] at this
      rw [hx, this]
    have hl1 : t1.phase = .load := by rw [q1]; exact hl
    have ha : t1.allocated 0 = true := h1.queue.allocated 0 (by rw [hheap]; simp)
    have hpar : t1.hasParent 0 = false := h1.queue.parentless 0 (by rw [hheap]; simp)
    have hpm : t1.params = s.params := by rw [q1]
    have hleaf : t1.isLeaf 0 = true := by
      rw [isLeaf_eq_true, hpm]
      have := h.params.2.1.1
      omega
    have hni : t1.nint = 0 := by
      have : t1.inners = s.inners := by rw [q1]
      simp [State.nint, this, hin]
    have hw0 : t1.weigh 0 = e.count.toNat := by
      have : t1.leafAt 0 = some e.leaf := by
        rw [leafAt_eq_some]
        refine ⟨isLeaf_eq_true.1 hleaf, ?_⟩
        rw [q1, hft]
        rfl
      exact weigh_leaf this
    have hx : pqExtract t1 = .ok (0, t1.setHeap []) := pqExtract_last hheap (h1.hasRecord ha)
    have h2 : Structural (t1.setHeap []) := h1.setHeap hl1 (by simp) (by simp) (by simp) (by intro i _ hi; simp at hi)
    have hnc : (t1.setHeap []).nint < (t1.setHeap []).params.maxSyms := by
      show t1.nint < t1.params.maxSyms
      rw [hni]
      exact isLeaf_eq_true.1 hleaf
    have hwr := wrap_eq (x := 0) (s := t1.setHeap []) (h2.hasRecord ha)
    rw [newInternal_eq_ok hnc (weigh_lt _ _), weigh_setHeap, hw0, BitVec.ofNat_toNat, BitVec.setWidth_eq] at hwr
    have h3 := h2.plantWrapper hl1 rfl (x := 0) ha hleaf hpar hnc
    rw [weigh_setHeap, hw0, BitVec.ofNat_toNat, BitVec.setWidth_eq] at h3
    have hroot : (t1.setHeap []).params.maxSyms + (t1.setHeap []).nint = s.params.maxSyms := by
      show t1.params.maxSyms + t1.nint = _
      rw [hni, hpm, Nat.add_zero]
    rw [hroot] at hwr h3
    have hfin : ((t1.setHeap []).addInner ⟨e.count, 0, none⟩).plant (some s.params.maxSyms) = { s with
          leaves := [e.leaf]
          inners := [⟨e.count, 0, none⟩]
          root := some s.params.maxSyms
          cur := some s.params.maxSyms
          phase := .tree } := by
      rw [q1]
      simp [State.plant, State.addInner, State.setHeap, hin, hft, hq]
    refine ⟨e, hft, _, rfl, ?_, ?_⟩
    · simp only [buildBody, hreq, ok_bind, e1, hns, hx, hwr, if_true]
      rw [if_neg (by omega), hfin]
    · rw [← hfin]
      exact h3
  · right; right
    refine ⟨h2, ?_⟩
    have hl1 : t1.phase = .load := by rw [q1]; exact hl
    have hpm : t1.params = s.params := by rw [q1]
    have hni1 : t1.nint = 0 := by
      have : t1.inners = s.inners := by rw [q1]
      simp [State.nint, this, hin]
    obtain ⟨t2, e2, hs2, q2, w2, z2, c2, p2, -, l2⟩ := mergeAll_spec t1.hsize h1 hl1 (by omega) (by rw [hw]; exact htl)
    have hheap := l2 (by omega)
    have hz2 : t2.hsize = 1 := by simp [State.hsize, hheap]
    have hni2 : t2.nint = s.nsym - 1 := by omega
    have hpm2 : t2.params = s.params := by rw [q2]; exact hpm
    have hl2 : t2.phase = .load := by rw [q2]; exact hl1
    have hroot : t1.params.maxSyms + t2.nint - 1 = s.params.maxSyms + s.nsym - 2 := by
      rw [hpm]
      omega
    rw [hroot] at hheap
    have hmem : s.params.maxSyms + s.nsym - 2 ∈ t2.heap := by rw [hheap]; simp
    have ha := hs2.queue.allocated _ hmem
    have hpar := hs2.queue.parentless _ hmem
    have hinner : t2.isLeaf (s.params.maxSyms + s.nsym - 2) = false := by
      rw [isLeaf_eq_false, hpm2]
      omega
    have hx : pqExtract t2 = .ok (s.params.maxSyms + s.nsym - 2, t2.setHeap []) :=
      pqExtract_last hheap (hs2.hasRecord ha)
    have h3 : Structural (t2.setHeap []) :=
      hs2.setHeap hl2 (by simp) (by simp) (by simp) (by intro i _ hi; simp at hi)
    have h4 := h3.plant hl2 rfl ha hinner hpar
    have hfin : (t2.setHeap []).plant (some (s.params.maxSyms + s.nsym - 2)) = { s with
          leaves := s.ft.map FreqEntry.leaf
          inners := t2.inners
          root := some (s.params.maxSyms + s.nsym - 2)
          cur := some (s.params.maxSyms + s.nsym - 2)
          phase := .tree } := by
      rw [q2, q1]
      simp [State.plant, State.setHeap, hq]
    refine ⟨_, hfin.symm ▸ rfl, ?_, h4, hni2, ?_, ?_⟩
    · simp only [buildBody, hreq, ok_bind, e1, e2, hx]
      rw [if_neg (by omega), if_neg (by omega)]
    · intro r hr hn
      obtain ⟨k, hk, rfl⟩ := List.getElem_of_mem hr
      have := (hs2.tree.wrapper k _ (List.getElem?_eq_getElem hk) hn).2.2
      rw [hs2.root_none hl2] at this
      cases this
    · have e : ((t2.setHeap []).plant (some (s.params.maxSyms + s.nsym - 2))).weigh = t2.weigh := weigh_congr rfl rfl rfl
      rw [e, ← hw, ← w2]
      simp [State.queuedWeight, hheap]

/-! ### GEN -/

theorem rank_lt_depth (h : Structural s) {n : Nat} (ha : s.allocated n = true) : s.rank n < s.nint + 1 :=
  Nat.lt_succ_of_le (rank_le_nint h.memory.2.2.1 ha)

/-- The code table that `GEN` writes below root `n`. -/
def State.generated (s : State) (n : Nat) : List BitString := writeCodes s.code (s.paths (s.nint + 1) n [])

theorem genBody_spec (h : Structural s) (hp : s.phase = .tree) {n : Nat} (hr : s.root = some n) :
    genBody s = .ok ({ s with code := s.generated n, phase := .code },
      okData (natData (s.paths (s.nint + 1) n []).length)) := by
  have hne : s.phase ≠ .load := by rw [hp]; decide
  obtain ⟨ha, -, -⟩ := h.phase.root hne n hr
  have := walk_spec h (s.nint + 1) n [] s.code 0 ha (rank_lt_depth h ha)
  simp [genBody, hp, require, hr, this, State.generated]

theorem genBody_noRoot (hp : s.phase = .tree) (hr : s.root = none) :
    genBody s = .ok ({ s with phase := .code }, okData 0#32) := by
  simp [genBody, hp, require, hr]

/-- The entry of leaf `i` in the generated table is the path to it, empty where there is none
(10_state.md R44). -/
theorem generated_spec (h : Structural s) (hp : s.phase = .tree) {n : Nat} (hr : s.root = some n) {i : Nat}
    (hi : i < s.params.maxSyms) :
    (∀ p, s.follow n p = some i → (s.generated n)[i]? = some p) ∧
      ((∀ p, s.follow n p ≠ some i) → (s.generated n)[i]? = some []) := by
  have hne : s.phase ≠ .load := by rw [hp]; decide
  obtain ⟨ha, hin, -⟩ := h.phase.root hne n hr
  have hrk := rank_lt_depth h ha
  have hclen : s.code.length = s.params.maxSyms := h.memory.2.2.2.2.2.1
  constructor
  · intro p hf
    have hm := (mem_paths h (s.nint + 1) n [] i p ha hrk).2 ⟨isLeaf_eq_true.2 hi, p, by simp, hf⟩
    have hne : p ≠ [] := by
      rintro rfl
      obtain rfl : n = i := by simpa using hf
      rw [isLeaf_eq_false] at hin
      omega
    have := writeCodes_of_mem (paths_nodup h _ n [] ha hrk) hm s.code (by omega)
    rw [codeOfPath, if_neg hne] at this
    exact this
  · intro hno
    have : i ∉ (s.paths (s.nint + 1) n []).map (·.1) := by
      intro hc
      obtain ⟨⟨j, q⟩, hm, rfl⟩ := List.mem_map.1 hc
      obtain ⟨-, p, -, hf⟩ := (mem_paths h (s.nint + 1) n [] j q ha hrk).1 hm
      exact hno p hf
    rw [State.generated, writeCodes_of_not_mem this, List.getElem?_eq_getElem (by omega)]
    exact congrArg some ((h.phase.tree hp).2 _ (List.getElem_mem _))

theorem generated_count (h : Structural s) (hp : s.phase = .tree) {n : Nat} (hr : s.root = some n) :
    (s.generated n).countP (· ≠ []) = (s.paths (s.nint + 1) n []).length := by
  have hne : s.phase ≠ .load := by rw [hp]; decide
  obtain ⟨ha, hin, -⟩ := h.phase.root hne n hr
  have hrk := rank_lt_depth h ha
  have hempty := (h.phase.tree hp).2
  have hclen : s.code.length = s.params.maxSyms := h.memory.2.2.2.2.2.1
  have h0 : s.code.countP (· ≠ []) = 0 := by
    rw [List.countP_eq_zero]
    intro c hc
    simp [hempty c hc]
  rw [State.generated, countP_writeCodes (paths_nodup h _ n [] ha hrk), h0, Nat.zero_add]
  rintro ⟨i, q⟩ hx
  obtain ⟨hi, -⟩ := (mem_paths h (s.nint + 1) n [] i q ha hrk).1 hx
  rw [isLeaf_eq_true] at hi
  rw [List.getElem?_eq_getElem (by omega)]
  exact congrArg some (hempty _ (List.getElem_mem _))

/-- A path from the root to a leaf is no longer than `max(1, NLEAF - 1)` (42_tree_builder.md R140). -/
theorem length_path_le (h : Structural s) (hne : s.phase ≠ .load) {n i : Nat} {p : BitString} (hr : s.root = some n)
    (hf : s.follow n p = some i) : p.length ≤ max 1 (s.nleaf - 1) := by
  obtain ⟨ha, hin, hpar⟩ := h.phase.root hne n hr
  have hlen := h.tree.length_path hf
  have hrk := rank_le_nint h.memory.2.2.1 ha
  by_cases hw : s.inners.countP (fun r => r.right.isNone) = 0
  · have h1 := h.tree.count (l := [n]) (by simp) (by simpa using ha) (by simpa using hpar)
    have h2 := children_length s.inners
    simp only [List.length_singleton] at h1
    unfold State.nint at *
    omega
  · obtain ⟨r, hr', hn⟩ : ∃ r ∈ s.inners, r.right.isNone = true := by
      by_contra hc
      push Not at hc
      exact hw (List.countP_eq_zero.2 hc)
    obtain ⟨k, hk, rfl⟩ := List.getElem_of_mem hr'
    have hget := List.getElem?_eq_getElem hk
    obtain ⟨hlf, -, hroot⟩ := h.tree.wrapper k _ hget (by simpa using hn)
    rw [hroot] at hr
    obtain rfl : s.params.maxSyms + k = n := Option.some.inj hr
    have hat : s.innerAt (s.params.maxSyms + k) = some s.inners[k] :=
      innerAt_eq_some.2 ⟨by omega, by simp [hget]⟩
    cases p with
    | nil => simp
    | cons b p =>
      rw [follow_cons] at hf
      obtain ⟨c, hc, hfc⟩ := Option.bind_eq_some_iff.1 hf
      obtain ⟨r', hr'', hch⟩ := childAt_eq_some.1 hc
      rw [hat] at hr''
      obtain rfl := Option.some.inj hr''
      have hcl : c < s.params.maxSyms := by
        cases b
        · obtain rfl : s.inners[k].left = c := Option.some.inj hch
          exact isLeaf_eq_true.1 hlf
        · have : s.inners[k].right = some c := hch
          rw [this] at hn
          cases hn
      obtain ⟨rfl, -⟩ := follow_leaf hcl hfc
      simp

theorem codeAt_of_getElem? {i : Nat} {c : BitString} (h : s.code[i]? = some c) : s.codeAt i = c := by
  simp [State.codeAt, h]

theorem codeAt_of_length_le {i : Nat} (h : s.code.length ≤ i) : s.codeAt i = [] := by
  simp [State.codeAt, List.getElem?_eq_none h]

theorem Structural.generate (h : Structural s) (hp : s.phase = .tree) {n : Nat} (hr : s.root = some n) :
    Structural { s with code := s.generated n, phase := .code } := by
  have hne : s.phase ≠ .load := by rw [hp]; decide
  obtain ⟨m1, m2, m3, m4, m5, m6, m7, m8, m9⟩ := h.memory
  have hS : max 1 (s.nleaf - 1) ≤ s.params.maxSyms := by
    have := h.params.2.1.1
    omega
  have hglen : (s.generated n).length = s.params.maxSyms := by
    rw [State.generated, writeCodes_length]
    exact m6
  refine ⟨h.params, ⟨m1, m2, m3, m4, m5, hglen, ?_, m8, m9⟩,
    ⟨h.frequency.distinct, h.frequency.positive, h.frequency.total, h.frequency.counts, h.frequency.order⟩, h.heap,
    ⟨h.queue.distinct, h.queue.allocated, h.queue.parentless, h.queue.notRoot, h.queue.size⟩,
    ⟨h.tree.left, h.tree.right, h.tree.oneParent, h.tree.sum, h.tree.wrapper⟩, h.leaf, ?_⟩
  · intro c hc
    obtain ⟨i, hi, rfl⟩ := List.getElem_of_mem hc
    have hi' : i < s.params.maxSyms := hglen ▸ hi
    have hget : (s.generated n)[i]? = some (s.generated n)[i] := List.getElem?_eq_getElem hi
    obtain ⟨g1, g2⟩ := generated_spec h hp hr hi'
    show (s.generated n)[i].length ≤ s.params.maxSyms
    by_cases hex : ∃ p, s.follow n p = some i
    · obtain ⟨p, hf⟩ := hex
      have := g1 p hf
      rw [hget] at this
      rw [Option.some.inj this]
      exact (length_path_le h hne hr hf).trans hS
    · push Not at hex
      have := g2 hex
      rw [hget] at this
      rw [Option.some.inj this]
      exact Nat.zero_le _
  · have hf : State.follow { s with code := s.generated n, phase := .code } = s.follow := follow_congr rfl rfl
    exact ⟨fun hc => (by cases hc), fun _ => h.phase.queueEmpty hne, fun _ => h.phase.root hne,
      fun _ => (h.phase.cur hne).imp_right fun ⟨n, m, p, h1, h2, h3, h4, h5⟩ =>
        ⟨n, m, p, h1, h2, h3, (congrFun (congrFun hf n) p).trans h4, h5⟩,
      fun hc => (by cases hc), fun _ => h.phase.noRoot hne⟩

theorem Structural.generateNone (h : Structural s) (hp : s.phase = .tree) :
    Structural { s with phase := .code } := by
  have hne : s.phase ≠ .load := by rw [hp]; decide
  have hf : State.follow { s with phase := .code } = s.follow := follow_congr rfl rfl
  exact ⟨h.params, h.memory,
    ⟨h.frequency.distinct, h.frequency.positive, h.frequency.total, h.frequency.counts, h.frequency.order⟩, h.heap,
    ⟨h.queue.distinct, h.queue.allocated, h.queue.parentless, h.queue.notRoot, h.queue.size⟩,
    ⟨h.tree.left, h.tree.right, h.tree.oneParent, h.tree.sum, h.tree.wrapper⟩, h.leaf,
    ⟨fun hc => (by cases hc), fun _ => h.phase.queueEmpty hne, fun _ => h.phase.root hne,
      fun _ => (h.phase.cur hne).imp_right fun ⟨n, m, p, h1, h2, h3, h4, h5⟩ =>
        ⟨n, m, p, h1, h2, h3, (congrFun (congrFun hf n) p).trans h4, h5⟩,
      fun hc => (by cases hc), fun _ => h.phase.noRoot hne⟩⟩

/-! ### The decoder -/

/-- Where the decoder may stand: the root, or an internal node below it (10_state.md R43). -/
def State.StandsAt (s : State) (c : Option Nat) : Prop :=
  c = s.root ∨ ∃ n m p, s.root = some n ∧ c = some m ∧ p ≠ [] ∧ s.follow n p = some m ∧ s.allocated m = true ∧
    s.isLeaf m = false

theorem Structural.setDecoder (h : Structural s) (hne : s.phase ≠ .load) {c : Option Nat} {o : List Symbol}
    (hc : s.StandsAt c) (ho : o.length ≤ s.params.maxLen) : Structural { s with cur := c, out := o } := by
  obtain ⟨m1, m2, m3, m4, m5, m6, m7, m8, m9⟩ := h.memory
  have hf : State.follow { s with cur := c, out := o } = s.follow := follow_congr rfl rfl
  exact ⟨h.params, ⟨m1, m2, m3, m4, m5, m6, m7, m8, ho⟩,
    ⟨h.frequency.distinct, h.frequency.positive, h.frequency.total, h.frequency.counts, h.frequency.order⟩, h.heap,
    ⟨h.queue.distinct, h.queue.allocated, h.queue.parentless, h.queue.notRoot, h.queue.size⟩,
    ⟨h.tree.left, h.tree.right, h.tree.oneParent, h.tree.sum, h.tree.wrapper⟩, h.leaf,
    ⟨fun hc => absurd hc hne, fun _ => h.phase.queueEmpty hne, fun _ => h.phase.root hne,
      fun _ => hc.imp_right fun ⟨n, m, p, h1, h2, h3, h4, h5⟩ =>
        ⟨n, m, p, h1, h2, h3, (congrFun (congrFun hf n) p).trans h4, h5⟩,
      fun hc => h.phase.tree hc, fun _ => h.phase.noRoot hne⟩⟩

/-- The decoder stands at an internal node that has a record (45_decoder.md R192). -/
theorem Structural.cur_inner (h : Structural s) (hne : s.phase ≠ .load) {n : Nat} (hr : s.root = some n) :
    ∃ c r p, s.cur = some c ∧ s.innerAt c = some r ∧ s.follow n p = some c := by
  obtain ⟨ha, hin, -⟩ := h.phase.root hne n hr
  rcases h.phase.cur hne with hc | ⟨n', m, p, hr', hc, -, hf, ham, hm⟩
  · obtain ⟨r, hr'⟩ := exists_innerAt h.memory.2.2.1 ha hin
    exact ⟨n, r, [], hc.trans hr, hr', rfl⟩
  · obtain rfl : n = n' := by rw [hr] at hr'; exact Option.some.inj hr'
    obtain ⟨r, hr''⟩ := exists_innerAt h.memory.2.2.1 ham hm
    exact ⟨m, r, p, hc, hr'', hf⟩

/-- One transition never stops the model (45_decoder.md R192). -/
theorem Structural.decbStep_ne_stuck (h : Structural s) (hne : s.phase ≠ .load) (b : Bool) (r : Fault) :
    decbStep b s ≠ .error (.stuck r) := by
  cases hr : s.root with
  | none => simp [decbStep_noRoot hr]
  | some n =>
    obtain ⟨c, q, p, hc, hq, hf⟩ := h.cur_inner hne hr
    cases hm : q.child b with
    | none => simp [decbStep_noChild hr hc hq hm]
    | some m =>
      have hch : s.childAt c b = some m := childAt_eq_some.2 ⟨q, hq, hm⟩
      have ham := h.tree.allocated_child hch
      by_cases hl : s.isLeaf m = true
      · by_cases hL : s.olen < s.params.maxLen
        · obtain ⟨l, hl'⟩ := exists_leafAt ham hl
          simp [decbStep_leaf hr hc hq hm hl' hL]
        · simp [decbStep_full hr hc hq hm hl (by omega)]
      · simp [decbStep_inner hr hc hq hm (by simpa using hl)]

/-- One transition keeps the structural invariants and changes `CUR` and `OUT` only. -/
theorem Structural.decbStep (h : Structural s) (hne : s.phase ≠ .load) {b : Bool} {t : State} {a : Response}
    (hd : decbStep b s = .ok (t, a)) : Structural t ∧ t = { s with cur := t.cur, out := t.out } := by
  rcases decbStep_ok hd with ⟨-, rfl, -⟩ | ⟨n, c, m, q, hr, hc, hq, hm, ⟨hl, rfl, -⟩ | ⟨l, hl, hL, rfl, -⟩⟩
  · exact ⟨h, rfl⟩
  · refine ⟨?_, rfl⟩
    obtain ⟨c', q', p, hc', hq', hf⟩ := h.cur_inner hne hr
    obtain rfl : c = c' := by rw [hc] at hc'; exact Option.some.inj hc'
    have hch : s.childAt c b = some m := childAt_eq_some.2 ⟨q, hq, hm⟩
    refine h.setDecoder (o := s.out) hne (.inr ⟨n, m, p ++ [b], hr, rfl, by simp, ?_, h.tree.allocated_child hch, hl⟩)
      h.memory.2.2.2.2.2.2.2.2
    rw [follow_append, hf]
    simp [hch]
  · refine ⟨h.setDecoder hne (.inl rfl) ?_, rfl⟩
    rw [List.length_append, List.length_singleton]
    exact hL

theorem decodeBits_keeps : ∀ (bs : BitString) {s : State}, Structural s → s.phase ≠ .load →
    (∀ r, decodeBits bs s ≠ .error (.stuck r)) ∧
      ∀ t, decodeBits bs s = .ok t → Structural t ∧ t = { s with cur := t.cur, out := t.out }
  | [], s, h, _ => ⟨fun r hc => (by cases hc), fun t ht => (by cases ht; exact ⟨h, rfl⟩)⟩
  | b :: bs, s, h, hne => by
    have hns := h.decbStep_ne_stuck hne b
    unfold decodeBits
    cases hd : Sys2Proof.Machine.decbStep b s with
    | error e =>
      rw [hd] at hns
      refine ⟨fun r hc => hns r ?_, fun t ht => (by cases ht)⟩
      rw [error_bind] at hc
      exact congrArg Except.error (Except.error.inj hc)
    | ok p =>
      obtain ⟨u, a⟩ := p
      obtain ⟨hu, hue⟩ := h.decbStep hne hd
      have hne' : u.phase ≠ .load := by rw [hue]; exact hne
      obtain ⟨g1, g2⟩ := decodeBits_keeps bs hu hne'
      refine ⟨g1, fun t ht => ?_⟩
      obtain ⟨k1, k2⟩ := g2 t ht
      refine ⟨k1, ?_⟩
      rw [k2, hue]

/-! ### The encoder -/

/-- The state with another bitstream. -/
def State.setBits (s : State) (bs : BitString) : State := { s with bits := bs }

theorem Structural.setBits (h : Structural s) (hp : s.phase = .code) {bs : BitString} (hb : bs.length ≤ s.params.maxBits) :
    Structural (s.setBits bs) := by
  have hne : s.phase ≠ .load := by rw [hp]; decide
  have hnt : s.phase ≠ .tree := by rw [hp]; decide
  obtain ⟨m1, m2, m3, m4, m5, m6, m7, m8, m9⟩ := h.memory
  have hf : (s.setBits bs).follow = s.follow := follow_congr rfl rfl
  exact ⟨h.params, ⟨m1, m2, m3, m4, m5, m6, m7, hb, m9⟩,
    ⟨h.frequency.distinct, h.frequency.positive, h.frequency.total, h.frequency.counts, h.frequency.order⟩, h.heap,
    ⟨h.queue.distinct, h.queue.allocated, h.queue.parentless, h.queue.notRoot, h.queue.size⟩,
    ⟨h.tree.left, h.tree.right, h.tree.oneParent, h.tree.sum, h.tree.wrapper⟩, h.leaf,
    ⟨fun hc => absurd hc hne, fun _ => h.phase.queueEmpty hne, fun _ => h.phase.root hne,
      fun _ => (h.phase.cur hne).imp_right fun ⟨n, m, p, h1, h2, h3, h4, h5⟩ =>
        ⟨n, m, p, h1, h2, h3, (congrFun (congrFun hf n) p).trans h4, h5⟩,
      fun hc => absurd hc hnt, fun _ => h.phase.noRoot hne⟩⟩

/-- Everything `encs_step` can come to (44_encoder.md R172). -/
theorem encsStep_cases (x : Symbol) (s : State) :
    (encsStep x s = .error (.raise .nosym) ∧ s.codedLeaf x = none) ∨
      ∃ i, s.codedLeaf x = some i ∧
        ((encsStep x s = .error (.raise .cap) ∧ s.params.maxBits < s.blen + (s.codeAt i).length) ∨
          (encsStep x s = .ok ((s.codeAt i).length, s.setBits (s.bits ++ s.codeAt i)) ∧
            s.blen + (s.codeAt i).length ≤ s.params.maxBits)) := by
  unfold encsStep
  cases hc : s.codedLeaf x with
  | none => exact .inl ⟨rfl, rfl⟩
  | some i =>
    refine .inr ⟨i, rfl, ?_⟩
    by_cases hb : s.blen + (s.codeAt i).length ≤ s.params.maxBits
    · right
      simp [require, hb, State.setBits]
    · left
      simp [require, hb]
      omega

theorem codedLeaf_ne_nil {x : Symbol} {i : Nat} (h : s.codedLeaf x = some i) : s.codeAt i ≠ [] := by
  unfold State.codedLeaf at h
  have := Option.filter_eq_some_iff.1 h
  simpa using this.2

theorem codedLeaf_congr {t : State} (hl : t.leaves = s.leaves) (hc : t.code = s.code) : t.codedLeaf = s.codedLeaf := by
  funext x
  simp [State.codedLeaf, State.findLeaf, State.codeAt, hl, hc]

theorem codeAt_congr {t : State} (hc : t.code = s.code) : t.codeAt = s.codeAt := by
  funext i
  simp [State.codeAt, hc]

theorem codeOfSymbol_congr {t : State} (hl : t.leaves = s.leaves) (hc : t.code = s.code) :
    t.codeOfSymbol = s.codeOfSymbol := by
  funext x
  simp [State.codeOfSymbol, codedLeaf_congr hl hc, codeAt_congr hc]

@[simp] theorem codeOfSymbol_setBits (bs : BitString) : (s.setBits bs).codeOfSymbol = s.codeOfSymbol :=
  codeOfSymbol_congr rfl rfl

theorem encodeText_ne_stuck : ∀ (xs : List Symbol) (s : State) (r : Fault), encodeText xs s ≠ .error (.stuck r)
  | [], _, _, h => by cases h
  | x :: xs, s, r, h => by
    unfold encodeText at h
    rcases encsStep_cases x s with ⟨e, -⟩ | ⟨i, -, ⟨e, -⟩ | ⟨e, -⟩⟩ <;> rw [e] at h
    · cases h
    · cases h
    · exact encodeText_ne_stuck xs _ r h

/-- When the text encodes, the codes of its symbols are appended in order (44_encoder.md R175). -/
theorem encodeText_ok : ∀ (xs : List Symbol) {s t : State}, encodeText xs s = .ok t →
    t = s.setBits (s.bits ++ xs.flatMap s.codeOfSymbol) ∧ (∀ x ∈ xs, s.codeOfSymbol x ≠ []) ∧
      (s.blen ≤ s.params.maxBits → t.blen ≤ s.params.maxBits)
  | [], s, t, h => by
    cases h
    simp [State.setBits]
  | x :: xs, s, t, h => by
    unfold encodeText at h
    rcases encsStep_cases x s with ⟨e, -⟩ | ⟨i, hi, ⟨e, -⟩ | ⟨e, hb⟩⟩ <;> rw [e] at h
    · cases h
    · cases h
    · have hci : s.codeOfSymbol x = s.codeAt i := by simp [State.codeOfSymbol, hi]
      obtain ⟨h1, h2, h3⟩ := encodeText_ok xs h
      rw [codeOfSymbol_setBits] at h1 h2
      refine ⟨?_, ?_, fun _ => h3 ?_⟩
      · rw [h1]
        simp [State.setBits, hci]
      · intro y hy
        rcases List.mem_cons.1 hy with rfl | hy
        · rw [hci]
          exact codedLeaf_ne_nil hi
        · exact h2 y hy
      · show (s.bits ++ s.codeAt i).length ≤ s.params.maxBits
        rw [List.length_append]
        exact hb

end Sys2Proof.Machine
end

