-- ==== Sys2Proof/Laws/Encoder.lean ====
section
/-! SUPPORT. When the text encodes, and what stops it (44_encoder.md R172, R175). -/

namespace Sys2Proof.Machine

variable {s : State}

theorem codeOfSymbol_of_codedLeaf {x : Symbol} {i : Nat} (h : s.codedLeaf x = some i) :
    s.codeOfSymbol x = s.codeAt i := by
  simp [State.codeOfSymbol, h]

theorem codeOfSymbol_eq_nil {x : Symbol} : s.codeOfSymbol x = [] ↔ s.codedLeaf x = none := by
  unfold State.codeOfSymbol
  cases h : s.codedLeaf x with
  | none => simp
  | some i => simpa using codedLeaf_ne_nil h

theorem encsStep_noCode {x : Symbol} (h : s.codeOfSymbol x = []) : encsStep x s = .error (.raise .nosym) := by
  simp [encsStep, codeOfSymbol_eq_nil.1 h]

theorem encsStep_full {x : Symbol} (h : s.codeOfSymbol x ≠ [])
    (hb : s.params.maxBits < s.blen + (s.codeOfSymbol x).length) : encsStep x s = .error (.raise .cap) := by
  rcases encsStep_cases x s with ⟨-, e⟩ | ⟨i, hi, ⟨e, -⟩ | ⟨-, e⟩⟩
  · exact absurd (codeOfSymbol_eq_nil.2 e) h
  · exact e
  · rw [codeOfSymbol_of_codedLeaf hi] at hb
    omega

theorem encsStep_appends {x : Symbol} (h : s.codeOfSymbol x ≠ [])
    (hb : s.blen + (s.codeOfSymbol x).length ≤ s.params.maxBits) :
    encsStep x s = .ok ((s.codeOfSymbol x).length, s.setBits (s.bits ++ s.codeOfSymbol x)) := by
  rcases encsStep_cases x s with ⟨-, e⟩ | ⟨i, hi, ⟨-, e⟩ | ⟨e, -⟩⟩
  · exact absurd (codeOfSymbol_eq_nil.2 e) h
  · rw [codeOfSymbol_of_codedLeaf hi] at hb
    omega
  · rw [codeOfSymbol_of_codedLeaf hi]
    exact e

theorem encodeText_append : ∀ (xs ys : List Symbol) (s : State),
    encodeText (xs ++ ys) s = encodeText xs s >>= encodeText ys
  | [], _, _ => rfl
  | x :: xs, ys, s => by
    show (encsStep x s >>= fun p => encodeText (xs ++ ys) p.2) =
      (encsStep x s >>= fun p => encodeText xs p.2) >>= encodeText ys
    cases encsStep x s with
    | error e => rfl
    | ok p => exact encodeText_append xs ys p.2

/-- A text whose symbols have codes that fit is encoded (44_encoder.md R175). -/
theorem encodeText_eq_ok : ∀ (xs : List Symbol) {s : State}, (∀ x ∈ xs, s.codeOfSymbol x ≠ []) →
    s.blen + (xs.flatMap s.codeOfSymbol).length ≤ s.params.maxBits →
    encodeText xs s = .ok (s.setBits (s.bits ++ xs.flatMap s.codeOfSymbol))
  | [], s, _, _ => by simp [encodeText, State.setBits]
  | x :: xs, s, hx, hb => by
    rw [List.flatMap_cons, List.length_append] at hb
    have e := encsStep_appends (hx x List.mem_cons_self) (by omega)
    have hb' : (s.setBits (s.bits ++ s.codeOfSymbol x)).blen = s.blen + (s.codeOfSymbol x).length :=
      List.length_append
    have ih := encodeText_eq_ok xs (s := s.setBits (s.bits ++ s.codeOfSymbol x))
      (fun y hy => by rw [codeOfSymbol_setBits]; exact hx y (List.mem_cons_of_mem _ hy))
      (by rw [codeOfSymbol_setBits, hb']; show _ ≤ s.params.maxBits; omega)
    rw [codeOfSymbol_setBits] at ih
    show (encsStep x s >>= fun p => encodeText xs p.2) = _
    rw [e, ok_bind, ih]
    simp [State.setBits]

theorem encBody_eq (hp : s.phase = .code) :
    encBody s = encodeText s.txt (s.setBits []) >>= fun t => .ok (t, okData (natData t.blen)) := by
  have : require (s.phase == .code) .seq = .ok () := by rw [hp]; rfl
  simp only [encBody, this, ok_bind]
  rfl

end Sys2Proof.Machine
end

