-- ==== Sys2Proof/Laws/Frame.lean ====
section
/-! SUPPORT. What a command that executes changes, what it answers, and which faults it raises; in every state. -/

namespace Sys2Proof.Machine

/-- The state `s` with the parts that command `i` may write taken from `t` (10_state.md R22, column "written by";
20_memory.md R60, column "written by"; 70_reset_and_hazards.md R276). -/
def written (i : Instr) (s t : State) : State :=
  match i with
  | .nop => s
  | .clr => s.clear
  | .sym _ => { s with txt := t.txt, ft := t.ft }
  | .setw _ => { s with wreg := t.wreg }
  | .mkleaf _ => { s with leaves := t.leaves }
  | .pqins _ => { s with heap := t.heap }
  | .pqext => { s with heap := t.heap }
  | .merge => { s with inners := t.inners, heap := t.heap }
  | .build => { s with
      leaves := t.leaves, inners := t.inners, heap := t.heap, root := t.root, cur := t.cur, phase := .tree }
  | .finish => { s with inners := t.inners, heap := t.heap, root := t.root, cur := t.cur, phase := .tree }
  | .gen => { s with code := t.code, phase := .code }
  | .encinit => { s with bits := t.bits }
  | .encs _ => { s with bits := t.bits }
  | .enc => { s with bits := t.bits }
  | .decinit => { s with cur := t.cur, out := t.out }
  | .decb _ => { s with cur := t.cur, out := t.out }
  | .dec => { s with cur := t.cur, out := t.out }
  | .rdreg _ => s
  | .pqsize => s
  | .lookup _ => s
  | .rdclen _ => s
  | .rdcode _ _ => s
  | .rdbits _ => s
  | .rdout _ => s
  | .rdtxt _ => s
  | .rdfsym _ => s
  | .rdfcnt _ => s
  | .rdnode _ _ => s
  | .rdheap _ => s

/-- `t` has the text and the nodes of `s`, and perhaps more. -/
structure Grows (s t : State) : Prop where
  txt : s.txt <+: t.txt
  leaves : s.leaves <+: t.leaves
  inners : s.inners <+: t.inners

theorem Grows.refl (s : State) : Grows s s := ⟨List.prefix_rfl, List.prefix_rfl, List.prefix_rfl⟩

theorem Grows.trans {s t u : State} (h : Grows s t) (h' : Grows t u) : Grows s u :=
  ⟨h.txt.trans h'.txt, h.leaves.trans h'.leaves, h.inners.trans h'.inners⟩

variable {s t : State}

/-! ### The procedures -/

theorem pqInsert_frame {n : Nat} (h : pqInsert n s = .ok t) : t = { s with heap := t.heap } := by
  obtain ⟨rfl, -, -⟩ := pqInsert_ok h
  rfl

theorem pqExtract_frame {m : Nat} (h : pqExtract s = .ok (m, t)) : t = { s with heap := t.heap } := by
  obtain ⟨-, rfl, -⟩ := pqExtract_ok h
  rfl

theorem newInternal_frame {w l n : Nat} {r : Option Nat} (h : newInternal w l r s = .ok (n, t)) :
    t = { s with inners := t.inners } ∧ Grows s t := by
  rcases newInternal_cases w l r s with ⟨e, -⟩ | ⟨e, -, -⟩ | ⟨e, -, -⟩ <;> rw [e] at h <;> cases h
  exact ⟨rfl, List.prefix_rfl, List.prefix_rfl, List.prefix_append _ _⟩

theorem wrap_frame {x n : Nat} (h : wrap x s = .ok (n, t)) : t = { s with inners := t.inners } ∧ Grows s t := by
  unfold wrap at h
  obtain ⟨_, -, h⟩ := bind_eq_ok.1 h
  exact newInternal_frame h

theorem mergeStep_frame {n : Nat} (h : mergeStep s = .ok (n, t)) :
    t = { s with inners := t.inners, heap := t.heap } ∧ Grows s t := by
  unfold mergeStep at h
  obtain ⟨⟨a, s1⟩, h1, h⟩ := bind_eq_ok.1 h
  obtain ⟨⟨b, s2⟩, h2, h⟩ := bind_eq_ok.1 h
  obtain ⟨⟨m, s3⟩, h3, h⟩ := bind_eq_ok.1 h
  obtain ⟨s4, h4, h⟩ := bind_eq_ok.1 h
  cases h
  have e1 := pqExtract_frame h1
  have e2 := pqExtract_frame h2
  obtain ⟨e3, g3⟩ := newInternal_frame h3
  have e4 := pqInsert_frame h4
  constructor
  · rw [e4, e3, e2, e1]
  · have hs : Grows s s2 := by rw [e2, e1]; exact ⟨List.prefix_rfl, List.prefix_rfl, List.prefix_rfl⟩
    have ht : Grows s3 t := by rw [e4]; exact ⟨List.prefix_rfl, List.prefix_rfl, List.prefix_rfl⟩
    exact (hs.trans g3).trans ht

theorem mergeAll_frame : ∀ (fuel : Nat) {s t : State}, mergeAll fuel s = .ok t →
    t = { s with inners := t.inners, heap := t.heap } ∧ Grows s t
  | 0, s, t, h => by cases h; exact ⟨rfl, Grows.refl _⟩
  | fuel + 1, s, t, h => by
    unfold mergeAll at h
    split at h
    · obtain ⟨⟨n, u⟩, h1, h⟩ := bind_eq_ok.1 h
      obtain ⟨e1, g1⟩ := mergeStep_frame h1
      obtain ⟨e2, g2⟩ := mergeAll_frame fuel h
      exact ⟨by rw [e2, e1], g1.trans g2⟩
    · cases h
      exact ⟨rfl, Grows.refl _⟩

theorem insertLeaves_frame : ∀ (es : List FreqEntry) {s t : State}, insertLeaves es s = .ok t →
    t = { s with leaves := t.leaves, heap := t.heap } ∧ Grows s t
  | [], s, t, h => by cases h; exact ⟨rfl, Grows.refl _⟩
  | e :: es, s, t, h => by
    unfold insertLeaves at h
    obtain ⟨u, h1, h⟩ := bind_eq_ok.1 h
    have e1 := pqInsert_frame h1
    obtain ⟨e2, g2⟩ := insertLeaves_frame es h
    refine ⟨by rw [e2, e1], Grows.trans ?_ g2⟩
    rw [e1]
    exact ⟨List.prefix_rfl, List.prefix_append _ _, List.prefix_rfl⟩

theorem decbStep_frame {b : Bool} {a : Response} (h : decbStep b s = .ok (t, a)) :
    t = { s with cur := t.cur, out := t.out } := by
  rcases decbStep_ok h with ⟨-, rfl, -⟩ | ⟨n, c, m, q, -, -, -, -, ⟨-, rfl, -⟩ | ⟨l, -, -, rfl, -⟩⟩ <;> rfl

theorem decodeBits_frame : ∀ (bs : BitString) {s t : State}, decodeBits bs s = .ok t →
    t = { s with cur := t.cur, out := t.out }
  | [], s, t, h => by cases h; rfl
  | b :: bs, s, t, h => by
    unfold decodeBits at h
    obtain ⟨⟨u, a⟩, h1, h⟩ := bind_eq_ok.1 h
    rw [decodeBits_frame bs h, decbStep_frame h1]

/-! ### The commands -/

theorem requirePhase {p : Phase} {u : Unit} (h : require (s.phase == p) .seq = .ok u) : s.phase = p := by
  simpa using h

/-- What a command that executes changes; that its phase is legal; that text and nodes only grow, but for `CLR`. -/
theorem bodyOf_frame {i : Instr} {r : Response} (h : bodyOf i s = .ok (t, r)) :
    t = written i s t ∧ legalIn i s.phase = true ∧ (i ≠ .clr → Grows s t) := by
  have hread : readClass i = true → t = written i s t ∧ legalIn i s.phase = true ∧ (i ≠ .clr → Grows s t) := by
    intro hc
    obtain ⟨a, ha, -⟩ := bodyOf_readClass hc s
    rw [ha] at h
    obtain ⟨rfl, rfl⟩ := Prod.mk.inj (Except.ok.inj h)
    refine ⟨?_, ?_, fun _ => Grows.refl _⟩ <;> cases i <;> first | rfl | cases hc
  have same : ∀ {u : State}, Grows s u = (s.txt <+: u.txt ∧ s.leaves <+: u.leaves ∧ s.inners <+: u.inners) :=
    fun {u} => propext ⟨fun g => ⟨g.1, g.2, g.3⟩, fun g => ⟨g.1, g.2.1, g.2.2⟩⟩
  cases i with
  | rdreg | pqsize | lookup | rdclen | rdcode | rdbits | rdout | rdtxt | rdfsym | rdfcnt | rdnode | rdheap =>
    exact hread rfl
  | nop => cases h; exact ⟨rfl, rfl, fun _ => Grows.refl _⟩
  | clr => cases h; exact ⟨rfl, rfl, fun hc => absurd rfl hc⟩
  | setw imm => cases h; exact ⟨rfl, rfl, fun _ => ⟨List.prefix_rfl, List.prefix_rfl, List.prefix_rfl⟩⟩
  | sym x =>
    simp only [bodyOf, symBody] at h
    obtain ⟨_, hp, h⟩ := bind_eq_ok.1 h
    obtain ⟨_, -, h⟩ := bind_eq_ok.1 h
    have hl : legalIn (.sym x) s.phase = true := by simp [legalIn, requirePhase hp]
    split at h
    · obtain ⟨_, -, h⟩ := bind_eq_ok.1 h
      cases h
      exact ⟨rfl, hl, fun _ => ⟨List.prefix_append _ _, List.prefix_rfl, List.prefix_rfl⟩⟩
    · cases h
      exact ⟨rfl, hl, fun _ => ⟨List.prefix_append _ _, List.prefix_rfl, List.prefix_rfl⟩⟩
  | mkleaf x =>
    simp only [bodyOf, mkleafBody] at h
    obtain ⟨_, hp, h⟩ := bind_eq_ok.1 h
    obtain ⟨_, -, h⟩ := bind_eq_ok.1 h
    obtain ⟨_, -, h⟩ := bind_eq_ok.1 h
    cases h
    exact ⟨rfl, by simp [legalIn, requirePhase hp], fun _ =>
      ⟨List.prefix_rfl, List.prefix_append _ _, List.prefix_rfl⟩⟩
  | pqins n =>
    simp only [bodyOf, pqinsBody] at h
    obtain ⟨_, hp, h⟩ := bind_eq_ok.1 h
    obtain ⟨_, -, h⟩ := bind_eq_ok.1 h
    obtain ⟨u, hi, h⟩ := bind_eq_ok.1 h
    cases h
    have e := pqInsert_frame hi
    exact ⟨e, by simp [legalIn, requirePhase hp], fun _ => by
      rw [e]; exact ⟨List.prefix_rfl, List.prefix_rfl, List.prefix_rfl⟩⟩
  | pqext =>
    simp only [bodyOf, pqextBody] at h
    obtain ⟨_, hp, h⟩ := bind_eq_ok.1 h
    have hl : legalIn .pqext s.phase = true := by simp [legalIn, requirePhase hp]
    split at h
    · cases h
      exact ⟨rfl, hl, fun _ => Grows.refl _⟩
    · obtain ⟨⟨m, u⟩, hi, h⟩ := bind_eq_ok.1 h
      cases h
      have e := pqExtract_frame hi
      exact ⟨e, hl, fun _ => by rw [e]; exact ⟨List.prefix_rfl, List.prefix_rfl, List.prefix_rfl⟩⟩
  | merge =>
    simp only [bodyOf, mergeBody] at h
    obtain ⟨_, hp, h⟩ := bind_eq_ok.1 h
    obtain ⟨_, -, h⟩ := bind_eq_ok.1 h
    obtain ⟨⟨n, u⟩, hi, h⟩ := bind_eq_ok.1 h
    cases h
    obtain ⟨e, g⟩ := mergeStep_frame hi
    exact ⟨e, by simp [legalIn, requirePhase hp], fun _ => g⟩
  | finish =>
    simp only [bodyOf, finishBody] at h
    obtain ⟨_, hp, h⟩ := bind_eq_ok.1 h
    obtain ⟨_, -, h⟩ := bind_eq_ok.1 h
    obtain ⟨⟨x, u⟩, hi, h⟩ := bind_eq_ok.1 h
    have hl : legalIn .finish s.phase = true := by simp [legalIn, requirePhase hp]
    have e1 := pqExtract_frame hi
    split at h
    · obtain ⟨⟨n, v⟩, hw, h⟩ := bind_eq_ok.1 h
      cases h
      obtain ⟨e2, g⟩ := wrap_frame hw
      refine ⟨?_, hl, fun _ => ?_⟩
      · rw [e2, e1]; rfl
      · rw [same]
        have := g.inners
        rw [e1] at this
        refine ⟨?_, ?_, this⟩
        · rw [e2, e1]; exact List.prefix_rfl
        · rw [e2, e1]; exact List.prefix_rfl
    · cases h
      refine ⟨?_, hl, fun _ => ?_⟩
      · rw [e1]; rfl
      · rw [e1]; exact ⟨List.prefix_rfl, List.prefix_rfl, List.prefix_rfl⟩
  | build =>
    simp only [bodyOf, buildBody] at h
    obtain ⟨_, hp, h⟩ := bind_eq_ok.1 h
    have hp' : s.phase = .load := by
      simp only [require_eq_ok, Bool.and_eq_true, beq_iff_eq] at hp
      exact hp.1.1.1
    have hl : legalIn .build s.phase = true := by simp [legalIn, hp']
    obtain ⟨u, hi, h⟩ := bind_eq_ok.1 h
    obtain ⟨e1, g1⟩ := insertLeaves_frame _ hi
    have plant : ∀ (v : State) (n : Option Nat), v = { s with leaves := v.leaves, inners := v.inners, heap := v.heap } →
        Grows s v → v.plant n = written .build s (v.plant n) ∧ Grows s (v.plant n) := by
      intro v n ev gv
      constructor
      · rw [ev]; rfl
      · exact ⟨gv.txt, gv.leaves, gv.inners⟩
    split at h
    · cases h
      obtain ⟨k1, k2⟩ := plant u none (by rw [e1]) g1
      exact ⟨k1, hl, fun _ => k2⟩
    · split at h
      · obtain ⟨⟨x, v⟩, hx, h⟩ := bind_eq_ok.1 h
        obtain ⟨⟨n, v'⟩, hw, h⟩ := bind_eq_ok.1 h
        cases h
        have e2 := pqExtract_frame hx
        obtain ⟨e3, g3⟩ := wrap_frame hw
        have g2 : Grows s v := by rw [e2]; exact ⟨g1.txt, g1.leaves, g1.inners⟩
        obtain ⟨k1, k2⟩ := plant v' (some n) (by rw [e3, e2, e1]) (g2.trans g3)
        exact ⟨k1, hl, fun _ => k2⟩
      · obtain ⟨v, hm, h⟩ := bind_eq_ok.1 h
        obtain ⟨⟨n, v'⟩, hx, h⟩ := bind_eq_ok.1 h
        cases h
        obtain ⟨e2, g2⟩ := mergeAll_frame _ hm
        have e3 := pqExtract_frame hx
        have g3 : Grows s v' := by rw [e3]; exact ⟨(g1.trans g2).txt, (g1.trans g2).leaves, (g1.trans g2).inners⟩
        obtain ⟨k1, k2⟩ := plant v' (some n) (by rw [e3, e2, e1]) g3
        exact ⟨k1, hl, fun _ => k2⟩
  | gen =>
    simp only [bodyOf, genBody] at h
    obtain ⟨_, hp, h⟩ := bind_eq_ok.1 h
    have hl : legalIn .gen s.phase = true := by simp [legalIn, requirePhase hp]
    split at h
    · cases h
      exact ⟨rfl, hl, fun _ => ⟨List.prefix_rfl, List.prefix_rfl, List.prefix_rfl⟩⟩
    · obtain ⟨⟨tb, c⟩, -, h⟩ := bind_eq_ok.1 h
      cases h
      exact ⟨rfl, hl, fun _ => ⟨List.prefix_rfl, List.prefix_rfl, List.prefix_rfl⟩⟩
  | enc =>
    simp only [bodyOf, encBody] at h
    obtain ⟨_, hp, h⟩ := bind_eq_ok.1 h
    obtain ⟨u, he, h⟩ := bind_eq_ok.1 h
    cases h
    obtain ⟨e, -, -⟩ := encodeText_ok _ he
    exact ⟨by rw [e]; rfl, by simp [legalIn, requirePhase hp], fun _ => by
      rw [e]; exact ⟨List.prefix_rfl, List.prefix_rfl, List.prefix_rfl⟩⟩
  | encs x =>
    simp only [bodyOf, encsBody] at h
    obtain ⟨_, hp, h⟩ := bind_eq_ok.1 h
    obtain ⟨⟨n, u⟩, he, h⟩ := bind_eq_ok.1 h
    cases h
    have hl : legalIn (.encs x) s.phase = true := by simp [legalIn, requirePhase hp]
    rcases encsStep_cases x s with ⟨e, -⟩ | ⟨i, -, ⟨e, -⟩ | ⟨e, -⟩⟩ <;> rw [e] at he <;> cases he
    exact ⟨rfl, hl, fun _ => ⟨List.prefix_rfl, List.prefix_rfl, List.prefix_rfl⟩⟩
  | encinit =>
    simp only [bodyOf, encinitBody] at h
    obtain ⟨_, hp, h⟩ := bind_eq_ok.1 h
    cases h
    exact ⟨rfl, by simp [legalIn, requirePhase hp], fun _ => ⟨List.prefix_rfl, List.prefix_rfl, List.prefix_rfl⟩⟩
  | dec =>
    simp only [bodyOf, decBody] at h
    obtain ⟨_, hp, h⟩ := bind_eq_ok.1 h
    obtain ⟨u, hd, h⟩ := bind_eq_ok.1 h
    cases h
    have e := decodeBits_frame _ hd
    have hl : legalIn .dec s.phase = true := by
      have := decoderPhase_iff.1 (by simpa using hp)
      simpa [legalIn] using this
    exact ⟨by rw [e]; rfl, hl, fun _ => by rw [e]; exact ⟨List.prefix_rfl, List.prefix_rfl, List.prefix_rfl⟩⟩
  | decinit =>
    simp only [bodyOf, decinitBody] at h
    obtain ⟨_, hp, h⟩ := bind_eq_ok.1 h
    cases h
    have hl : legalIn .decinit s.phase = true := by
      have := decoderPhase_iff.1 (by simpa using hp)
      simpa [legalIn] using this
    exact ⟨rfl, hl, fun _ => ⟨List.prefix_rfl, List.prefix_rfl, List.prefix_rfl⟩⟩
  | decb b =>
    simp only [bodyOf, decbBody] at h
    obtain ⟨_, hp, h⟩ := bind_eq_ok.1 h
    have e := decbStep_frame h
    have hl : legalIn (.decb b) s.phase = true := by
      have := decoderPhase_iff.1 (by simpa using hp)
      simpa [legalIn] using this
    exact ⟨e, hl, fun _ => by rw [e]; exact ⟨List.prefix_rfl, List.prefix_rfl, List.prefix_rfl⟩⟩

/-- A command that executes answers `OK`, or `NONE` with its one value (30_encoding.md R84). -/
theorem bodyOf_response {i : Instr} {r : Response} (h : bodyOf i s = .ok (t, r)) : r.status = .ok ∨ r = noneData := by
  have hok : ∀ d, (okData d).status = .ok := fun _ => rfl
  by_cases hc : readClass i = true
  · obtain ⟨a, ha, hs⟩ := bodyOf_readClass hc s
    rw [ha] at h
    cases h
    exact hs
  · cases i <;> simp [readClass] at hc <;> simp only [bodyOf, symBody, mkleafBody, pqinsBody, pqextBody, mergeBody,
      finishBody, buildBody, genBody, encBody, encsBody, encinitBody, decBody, decinitBody, decbBody] at h
    case nop | clr | setw => cases h; exact .inl rfl
    case decb b =>
      obtain ⟨_, -, h⟩ := bind_eq_ok.1 h
      rcases decbStep_ok h with ⟨-, -, rfl⟩ | ⟨n, c, m, q, -, -, -, -, ⟨-, -, rfl⟩ | ⟨l, -, -, -, rfl⟩⟩
      exacts [.inr rfl, .inr rfl, .inl rfl]
    all_goals
      repeat' first
        | (obtain ⟨_, _, h⟩ := bind_eq_ok.1 h)
        | split at h
      all_goals first
        | (cases h; exact .inl rfl)
        | (cases h; exact .inr rfl)

end Sys2Proof.Machine
end

