-- ==== Sys2Proof/Laws/Faults.lean ====
section
/-! SUPPORT. The faults the shared procedures do not raise: none of them raises `F_SEQ`, which only the check of the phase
raises, and the walk of `GEN` raises none (60_exceptions.md R244). -/

namespace Sys2Proof.Machine

theorem pqInsert_ne_seq {n : Nat} {s : State} : pqInsert n s ≠ .error (.raise .seq) := fun h => by
  have := (pqInsert_raise h).1
  cases this

theorem newInternal_ne_seq {w l : Nat} {r : Option Nat} {s : State} : newInternal w l r s ≠ .error (.raise .seq) := fun h => by
  rcases newInternal_cases w l r s with ⟨e, -⟩ | ⟨e, -, -⟩ | ⟨e, -, -⟩ <;> rw [e] at h <;> cases h

theorem wrap_ne_seq {x : Nat} {s : State} : wrap x s ≠ .error (.raise .seq) := fun h => by
  unfold wrap at h
  rcases bind_eq_error.1 h with h | ⟨_, _, h⟩
  · exact readable_ne_raise h
  · exact newInternal_ne_seq h

theorem mergeStep_ne_seq {s : State} : mergeStep s ≠ .error (.raise .seq) := fun h => by
  unfold mergeStep at h
  rcases bind_eq_error.1 h with h | ⟨⟨_, _⟩, _, h⟩
  · exact pqExtract_ne_raise h
  rcases bind_eq_error.1 h with h | ⟨⟨_, _⟩, _, h⟩
  · exact pqExtract_ne_raise h
  rcases bind_eq_error.1 h with h | ⟨⟨_, _⟩, _, h⟩
  · exact newInternal_ne_seq h
  rcases bind_eq_error.1 h with h | ⟨_, _, h⟩
  · exact pqInsert_ne_seq h
  · cases h

theorem mergeAll_ne_seq : ∀ (f : Nat) {s : State}, mergeAll f s ≠ .error (.raise .seq)
  | 0, s, h => by cases h
  | f+1, s, h => by
    unfold mergeAll at h
    split at h
    · rcases bind_eq_error.1 h with h | ⟨⟨_, _⟩, _, h⟩
      · exact mergeStep_ne_seq h
      · exact mergeAll_ne_seq f h
    · cases h

theorem insertLeaves_ne_seq : ∀ (es : List FreqEntry) {s : State}, insertLeaves es s ≠ .error (.raise .seq)
  | [], s, h => by cases h
  | e :: es, s, h => by
    unfold insertLeaves at h
    rcases bind_eq_error.1 h with h | ⟨_, _, h⟩
    · exact pqInsert_ne_seq h
    · exact insertLeaves_ne_seq es h

theorem encodeText_ne_seq : ∀ (xs : List Symbol) {s : State}, encodeText xs s ≠ .error (.raise .seq)
  | [], s, h => by cases h
  | x :: xs, s, h => by
    unfold encodeText at h
    rcases encsStep_cases x s with ⟨e, -⟩ | ⟨i, -, ⟨e, -⟩ | ⟨e, -⟩⟩ <;> rw [e] at h
    · cases h
    · cases h
    · exact encodeText_ne_seq xs h

theorem decodeBits_ne_seq : ∀ (xs : BitString) {s : State}, decodeBits xs s ≠ .error (.raise .seq)
  | [], s, h => by cases h
  | x :: xs, s, h => by
    unfold decodeBits at h
    rcases bind_eq_error.1 h with h | ⟨⟨_, _⟩, _, h⟩
    · obtain ⟨n, c, r, -, -, -, ⟨h, -⟩ | ⟨m, -, -, h, -⟩⟩ := decbStep_raise h <;> cases h
    · exact decodeBits_ne_seq xs h

theorem walk_ne_raise (s : State) : ∀ (d n : Nat) (p : BitString) (tc : List BitString × Nat) (f : FaultCode), walk s d n p tc ≠ .error (.raise f)
  | 0, n, p, tc, f, h => by cases h
  | d+1, n, p, (t, c), f, h => by
    unfold walk at h
    split at h
    · rcases bind_eq_error.1 h with h | ⟨_, _, h⟩
      · exact present_ne_raise h
      · cases h
    · rcases bind_eq_error.1 h with h | ⟨r, _, h⟩
      · exact present_ne_raise h
      rcases bind_eq_error.1 h with h | ⟨⟨_, _⟩, _, h⟩
      · exact walk_ne_raise s d _ _ _ _ h
      split at h
      · cases h
      · exact walk_ne_raise s d _ _ _ _ h

end Sys2Proof.Machine
end

