-- ==== Sys2Proof/Laws/Load.lean ====
section
/-! SUPPORT. What keeps the frequency invariant (10_state.md R38; 40_load_frequency.md R100). -/

namespace Sys2Proof.Machine

theorem sum_count_of_nodup {l : List Symbol} (hl : l.Nodup) (text : List Symbol) :
    (l.map (text.count ·)).sum = text.countP (· ∈ l) := by
  induction l with
  | nil => simp
  | cons a l ih =>
    rw [List.nodup_cons] at hl
    rw [List.map_cons, List.sum_cons, ih hl.2]
    clear ih
    have hc : text.countP (· ∈ a :: l) = text.countP fun x => x == a || decide (x ∈ l) := by
      refine List.countP_congr fun x _ => ?_
      simp
    rw [hc]
    clear hc
    induction text with
    | nil => rfl
    | cons y text iht =>
      rw [List.count_cons, List.countP_cons, List.countP_cons]
      by_cases hy : y = a
      · subst hy
        simp [hl.1]
        omega
      · simp [hy]
        omega

variable {s : State}

theorem map_count_eq (h : ∀ e ∈ s.ft, e.count.toNat = s.txt.count e.sym) :
    (s.ft.map (·.count.toNat)).sum = s.txt.countP (· ∈ s.ft.map (·.sym)) ∨ ¬ (s.ft.map (·.sym)).Nodup := by
  by_cases hd : (s.ft.map (·.sym)).Nodup
  · left
    rw [← sum_count_of_nodup hd, List.map_map]
    exact congrArg List.sum (List.map_congr_left fun e he => h e he)
  · exact .inr hd

/-- Every symbol of the text has an entry (10_state.md R38). -/
theorem FrequencyInv.covers (h : FrequencyInv s) : ∀ x ∈ s.txt, ∃ e ∈ s.ft, e.sym = x := by
  intro x hx
  have h1 := (map_count_eq h.counts).resolve_right (not_not.2 h.distinct)
  rw [h.total] at h1
  have := List.countP_eq_length.1 h1.symm x hx
  simpa using this

theorem FrequencyInv.mem_txt (h : FrequencyInv s) {e : FreqEntry} (he : e ∈ s.ft) : e.sym ∈ s.txt := by
  rw [← List.count_pos_iff]
  have h1 := h.positive e he
  rw [h.counts e he] at h1
  exact h1

/-- The frequency invariant without its sum, which follows when every symbol has an entry. -/
theorem FrequencyInv.of_covers (hd : (s.ft.map (·.sym)).Nodup)
    (hc : ∀ e ∈ s.ft, e.count.toNat = s.txt.count e.sym) (hm : ∀ e ∈ s.ft, e.sym ∈ s.txt)
    (hx : ∀ x ∈ s.txt, ∃ e ∈ s.ft, e.sym = x) (ho : (s.ft.map fun e => s.txt.idxOf e.sym).Pairwise (· < ·)) :
    FrequencyInv s := by
  refine ⟨hd, fun e he => ?_, ?_, hc, ho⟩
  · rw [hc e he]
    exact List.count_pos_iff.2 (hm e he)
  · rw [(map_count_eq hc).resolve_right (not_not.2 hd)]
    exact List.countP_eq_length.2 fun x hx' => by simpa using hx x hx'

theorem idxOf_append_mem {text : List Symbol} {x y : Symbol} (hy : y ∈ text) :
    (text ++ [x]).idxOf y = text.idxOf y := List.idxOf_append_of_mem hy

/-- `SYM` of a symbol seen for the first time. -/
theorem FrequencyInv.symNew (h : FrequencyInv s) {x : Symbol} (hx : ∀ e ∈ s.ft, e.sym ≠ x) :
    FrequencyInv { s with ft := s.ft ++ [⟨x, 1#32⟩], txt := s.txt ++ [x] } := by
  have hnot : x ∉ s.txt := fun hc => by
    obtain ⟨e, he, hex⟩ := h.covers x hc
    exact hx e he hex
  refine FrequencyInv.of_covers ?_ ?_ ?_ ?_ ?_
  · rw [List.map_append]
    refine List.Nodup.append h.distinct (by simp) ?_
    intro y hy hy'
    obtain ⟨e, he, rfl⟩ := List.mem_map.1 hy
    exact hx e he (by simpa using hy')
  · intro e he
    show e.count.toNat = (s.txt ++ [x]).count e.sym
    rw [List.count_append]
    rcases List.mem_append.1 he with he | he
    · rw [h.counts e he, List.count_singleton]
      have : (x == e.sym) = false := by simpa using Ne.symm (hx e he)
      simp [this]
    · obtain rfl := List.mem_singleton.1 he
      rw [List.count_eq_zero.2 hnot]
      simp
  · intro e he
    show e.sym ∈ s.txt ++ [x]
    rcases List.mem_append.1 he with he | he
    · exact List.mem_append_left _ (h.mem_txt he)
    · obtain rfl := List.mem_singleton.1 he
      simp
  · intro y hy
    rcases List.mem_append.1 hy with hy | hy
    · obtain ⟨e, he, hey⟩ := h.covers y hy
      exact ⟨e, List.mem_append_left _ he, hey⟩
    · exact ⟨⟨x, 1#32⟩, by simp, (List.mem_singleton.1 hy).symm⟩
  · show ((s.ft ++ [FreqEntry.mk x 1#32]).map fun e => (s.txt ++ [x]).idxOf e.sym).Pairwise (· < ·)
    have hold : (s.ft.map fun e => (s.txt ++ [x]).idxOf e.sym) = s.ft.map fun e => s.txt.idxOf e.sym :=
      List.map_congr_left fun e he => idxOf_append_mem (h.mem_txt he)
    rw [List.map_append, hold, List.pairwise_append]
    refine ⟨h.order, by simp, ?_⟩
    intro i hi j hj
    obtain ⟨e, he, rfl⟩ := List.mem_map.1 hi
    obtain rfl : j = (s.txt ++ [x]).idxOf x := by simpa using hj
    have h1 : s.txt.idxOf e.sym < s.txt.length := List.idxOf_lt_length_of_mem (h.mem_txt he)
    have h2 : (s.txt ++ [x]).idxOf x = s.txt.length := by
      rw [List.idxOf_append_of_notMem hnot]
      simp
    omega

/-- `SYM` of a symbol that has entry `j`. -/
theorem FrequencyInv.symBump (h : FrequencyInv s) {x : Symbol} {j : Nat} {e : FreqEntry} (hj : s.ft[j]? = some e)
    (hx : e.sym = x) (hl : s.tlen + 1 < 2 ^ 32) :
    FrequencyInv { s with ft := s.ft.modify j FreqEntry.bump, txt := s.txt ++ [x] } := by
  subst hx
  have hmap : ∀ {α : Type} (f : FreqEntry → α), (∀ e, f e.bump = f e) →
      (s.ft.modify j FreqEntry.bump).map f = s.ft.map f := by
    intro α f hf
    apply List.ext_getElem?
    intro k
    rw [List.getElem?_map, List.getElem?_map, List.getElem?_modify]
    cases s.ft[k]? with
    | none => rfl
    | some q => by_cases hk : j = k <;> simp [hk, hf]
  obtain ⟨hjl, hje⟩ := List.getElem?_eq_some_iff.1 hj
  have hmem : e ∈ s.ft := hje ▸ List.getElem_mem hjl
  have hshape : ∀ q ∈ s.ft.modify j FreqEntry.bump, q = e.bump ∨ (q ∈ s.ft ∧ q.sym ≠ e.sym) := by
    intro q hq
    obtain ⟨k, hk, rfl⟩ := List.getElem_of_mem hq
    rw [List.length_modify] at hk
    rw [List.getElem_modify]
    by_cases hjk : j = k
    · subst hjk
      left
      rw [if_pos rfl, hje]
    · right
      rw [if_neg hjk]
      refine ⟨List.getElem_mem _, fun hc => hjk ?_⟩
      have hd := h.distinct
      rw [List.nodup_iff_injective_getElem] at hd
      have := @hd ⟨j, by simpa using hjl⟩ ⟨k, by simpa using hk⟩ (by simp [hje, hc])
      simpa using this
  refine FrequencyInv.of_covers ?_ ?_ ?_ ?_ ?_
  · show ((s.ft.modify j FreqEntry.bump).map (·.sym)).Nodup
    rw [hmap _ fun _ => rfl]
    exact h.distinct
  · intro q hq
    show q.count.toNat = (s.txt ++ [e.sym]).count q.sym
    rw [List.count_append, List.count_singleton]
    rcases hshape q hq with rfl | ⟨hq', hne⟩
    · have hc := h.counts e hmem
      have : s.txt.count e.sym ≤ s.tlen := List.count_le_length
      show (e.count + 1#32).toNat = s.txt.count e.sym + _
      rw [BitVec.toNat_add, hc, show (1#32).toNat = 1 from rfl, Nat.mod_eq_of_lt (by omega)]
      simp [FreqEntry.bump]
    · rw [h.counts q hq']
      have : (e.sym == q.sym) = false := by simpa using Ne.symm hne
      simp [this]
  · intro q hq
    show q.sym ∈ s.txt ++ [e.sym]
    rcases hshape q hq with rfl | ⟨hq', -⟩
    · simp [FreqEntry.bump]
    · exact List.mem_append_left _ (h.mem_txt hq')
  · intro y hy
    have hcov : ∃ q ∈ s.ft, q.sym = y := by
      rcases List.mem_append.1 hy with hy | hy
      · exact h.covers y hy
      · exact ⟨e, hmem, (List.mem_singleton.1 hy).symm⟩
    have : y ∈ (s.ft.modify j FreqEntry.bump).map (·.sym) := by
      rw [hmap _ fun _ => rfl]
      exact List.mem_map.2 hcov
    exact List.mem_map.1 this
  · show ((s.ft.modify j FreqEntry.bump).map fun q => (s.txt ++ [e.sym]).idxOf q.sym).Pairwise (· < ·)
    have hold : (s.ft.map fun q => (s.txt ++ [e.sym]).idxOf q.sym) = s.ft.map fun q => s.txt.idxOf q.sym :=
      List.map_congr_left fun q hq => idxOf_append_mem (h.mem_txt hq)
    rw [hmap _ fun _ => rfl, hold]
    exact h.order

theorem findEntry_none {x : Symbol} (h : s.findEntry x = none) : ∀ e ∈ s.ft, e.sym ≠ x := by
  simpa [State.findEntry, List.findIdx?_eq_none_iff] using h

theorem findEntry_some {x : Symbol} {j : Nat} (h : s.findEntry x = some j) : ∃ e, s.ft[j]? = some e ∧ e.sym = x := by
  unfold State.findEntry at h
  obtain ⟨hj, he, -⟩ := List.findIdx?_eq_some_iff_getElem.1 h
  exact ⟨s.ft[j], List.getElem?_eq_getElem hj, by simpa using he⟩

/-- Everything `SYM` can come to when it executes (40_load_frequency.md R100). -/
theorem symBody_ok {x : Symbol} {t : State} {r : Response} (h : symBody x s = .ok (t, r)) :
    s.phase = .load ∧ s.tlen < s.params.maxLen ∧
      (((∀ e ∈ s.ft, e.sym ≠ x) ∧ s.nsym < s.params.maxSyms ∧
          t = { s with ft := s.ft ++ [⟨x, 1#32⟩], txt := s.txt ++ [x] }) ∨
        ∃ j e, s.ft[j]? = some e ∧ e.sym = x ∧
          t = { s with ft := s.ft.modify j FreqEntry.bump, txt := s.txt ++ [x] }) := by
  unfold symBody at h
  obtain ⟨_, hp, h⟩ := bind_eq_ok.1 h
  obtain ⟨_, hl, h⟩ := bind_eq_ok.1 h
  refine ⟨by simpa using hp, by simpa using hl, ?_⟩
  cases hf : s.findEntry x with
  | none =>
    rw [hf] at h
    obtain ⟨_, hc, h⟩ := bind_eq_ok.1 h
    cases h
    exact .inl ⟨findEntry_none hf, by simpa using hc, rfl⟩
  | some j =>
    rw [hf] at h
    cases h
    obtain ⟨e, h1, h2⟩ := findEntry_some hf
    exact .inr ⟨j, e, h1, h2, rfl⟩

theorem FrequencyInv.symBody (h : FrequencyInv s) (hp : s.params.maxLen ≤ 2 ^ 24 - 1) {x : Symbol} {t : State}
    {r : Response} (hb : Sys2Proof.Machine.symBody x s = .ok (t, r)) : FrequencyInv t := by
  obtain ⟨-, hl, ⟨hx, -, rfl⟩ | ⟨j, e, hj, he, rfl⟩⟩ := symBody_ok hb
  · exact h.symNew hx
  · exact h.symBump hj he (by omega)

end Sys2Proof.Machine
end

