-- ==== Sys2Proof/Laws/Invariant.lean ====
section
/-! SUPPORT. In a state that meets the structural invariants the rule of every command completes, and its state meets
them again (10_state.md section 5). -/

namespace Sys2Proof.Machine

variable {s : State}

theorem Structural.symBody (h : Structural s) {x : Symbol} {t : State} {r : Response}
    (hb : Sys2Proof.Machine.symBody x s = .ok (t, r)) : Structural t := by
  have hfr := h.frequency.symBody h.params.2.2.1 hb
  obtain ⟨m1, m2, m3, m4, m5, m6, m7, m8, m9⟩ := h.memory
  obtain ⟨hl, htl, hc⟩ := symBody_ok hb
  have hp : t.phase = .load := by rcases hc with ⟨-, -, rfl⟩ | ⟨j, e, -, -, rfl⟩ <;> exact hl
  have hm : Memory.wf t := by
    rcases hc with ⟨-, hn, rfl⟩ | ⟨j, e, -, -, rfl⟩
    · refine ⟨?_, ?_, m3, m4, m5, m6, m7, m8, m9⟩
      · simpa [State.tlen] using htl
      · simpa [State.nsym] using hn
    · refine ⟨?_, ?_, m3, m4, m5, m6, m7, m8, m9⟩
      · simpa [State.tlen] using htl
      · simpa [State.nsym] using m2
  have he : t = { s with txt := t.txt, ft := t.ft } := by rcases hc with ⟨-, -, rfl⟩ | ⟨j, e, -, -, rfl⟩ <;> rfl
  have hph : PhaseInv t := by
    rw [he] at hp ⊢
    exact ⟨h.phase.load, fun hne => absurd hl hne, fun hne => absurd hl hne, fun hne => absurd hl hne, h.phase.tree,
      fun hne => absurd hl hne⟩
  refine ⟨?_, hm, hfr, ?_, ?_, ?_, ?_, hph⟩ <;> rw [he]
  · exact h.params
  · exact h.heap
  · exact ⟨h.queue.distinct, h.queue.allocated, h.queue.parentless, h.queue.notRoot, h.queue.size⟩
  · exact ⟨h.tree.left, h.tree.right, h.tree.oneParent, h.tree.sum, h.tree.wrapper⟩
  · exact h.leaf

theorem findLeaf_none {x : Symbol} (h : s.findLeaf x = none) : ∀ r ∈ s.leaves, r.sym ≠ x := by
  simpa [State.findLeaf, List.findIdx?_eq_none_iff] using h

/-- `FINISH` completes where its checks hold (42_tree_builder.md R137). -/
theorem finishBody_spec (h : Structural s) (hl : s.phase = .load) {x : Nat} (hq : s.heap = [x]) :
    (s.isLeaf x = true ∧ finishBody s = .ok (((s.setHeap []).addInner ⟨BitVec.ofNat 32 (s.weigh x), x, none⟩).plant
        (some (s.params.maxSyms + s.nint)), okData (natData (s.params.maxSyms + s.nint)))) ∨
      (s.isLeaf x = false ∧ finishBody s = .ok ((s.setHeap []).plant (some x), okData (natData x))) := by
  have hx : x ∈ s.heap := by rw [hq]; exact List.mem_singleton_self x
  have ha := h.queue.allocated x hx
  have hr := h.hasRecord ha
  have e := pqExtract_last hq hr
  have hz : s.hsize = 1 := by simp [State.hsize, hq]
  have hcount := h.queue_count hl
  have hcap := h.memory.2.2.1
  by_cases hi : s.isLeaf x = true
  · left
    refine ⟨hi, ?_⟩
    have hi' : (s.setHeap []).isLeaf x = true := hi
    have hn : (s.setHeap []).nint < (s.setHeap []).params.maxSyms := by
      show s.nint < s.params.maxSyms
      omega
    have hw : wrap x (s.setHeap []) = newInternal (s.weigh x) x none (s.setHeap []) := by
      rw [wrap_eq ((nodesGrow_setHeap s []).hasRecord hr), weigh_setHeap]
    rw [newInternal_eq_ok hn (weigh_lt _ _)] at hw
    simp only [finishBody, hl, hz, e, hi', hw, ok_bind, require, beq_self_eq_true, if_true]
    rfl
  · right
    have hi : s.isLeaf x = false := by simpa using hi
    refine ⟨hi, ?_⟩
    have hi' : (s.setHeap []).isLeaf x = false := hi
    simp only [finishBody, hl, hz, e, hi', ok_bind, require, beq_self_eq_true, if_true, Bool.false_eq_true, if_false]

theorem Structural.finished (h : Structural s) (hl : s.phase = .load) {x : Nat} (hq : s.heap = [x]) :
    (s.isLeaf x = true → Structural (((s.setHeap []).addInner ⟨BitVec.ofNat 32 (s.weigh x), x, none⟩).plant
        (some (s.params.maxSyms + s.nint)))) ∧
      (s.isLeaf x = false → Structural ((s.setHeap []).plant (some x))) := by
  have hx : x ∈ s.heap := by rw [hq]; exact List.mem_singleton_self x
  have ha := h.queue.allocated x hx
  have hp := h.queue.parentless x hx
  have h1 : Structural (s.setHeap []) :=
    h.setHeap hl (by simp) (by simp) (by simp) (by intro i _ hi; simp at hi)
  have hz : s.hsize = 1 := by simp [State.hsize, hq]
  have hcount := h.queue_count hl
  have hcap := h.memory.2.2.1
  constructor
  · intro hi
    have := h1.plantWrapper hl rfl (x := x) ha hi hp (by show s.nint < s.params.maxSyms; omega)
    rw [weigh_setHeap] at this
    exact this
  · intro hi
    exact h1.plant hl rfl ha hi hp

theorem heap_singleton {h : List Nat} (hz : h.length = 1) : ∃ x, h = [x] := List.length_eq_one_iff.1 hz

theorem nil_of_length_beq {α : Type} {l : List α} (h : (l.length == 0) = true) : l = [] := by simpa using h

/-- The rule of a command completes in a state that meets the structural invariants (20_memory.md R65), and the state
it leaves meets them. -/
theorem Structural.bodyOf (h : Structural s) (i : Instr) :
    (∀ r, Sys2Proof.Machine.bodyOf i s ≠ .error (.stuck r)) ∧
      ∀ t r, Sys2Proof.Machine.bodyOf i s = .ok (t, r) → Structural t := by
  have ofOk : ∀ {u : State} {a : Response}, Sys2Proof.Machine.bodyOf i s = .ok (u, a) → Structural u →
      (∀ r, Sys2Proof.Machine.bodyOf i s ≠ .error (.stuck r)) ∧
        ∀ t r, Sys2Proof.Machine.bodyOf i s = .ok (t, r) → Structural t := by
    intro u a hb hu
    rw [hb]
    exact ⟨fun r hc => (by cases hc), fun t r ht => (by cases ht; exact hu)⟩
  have ofRaise : ∀ {f : FaultCode}, Sys2Proof.Machine.bodyOf i s = .error (.raise f) →
      (∀ r, Sys2Proof.Machine.bodyOf i s ≠ .error (.stuck r)) ∧
        ∀ t r, Sys2Proof.Machine.bodyOf i s = .ok (t, r) → Structural t := by
    intro f hb
    rw [hb]
    exact ⟨fun r hc => (by cases hc), fun t r ht => (by cases ht)⟩
  have reqT : ∀ {c : Bool} {f : FaultCode}, c = true → require c f = .ok () := fun hc => by rw [hc]; rfl
  have reqF : ∀ {c : Bool} {f : FaultCode}, ¬ c = true → require c f = .error (.raise f) := fun hc => by
    rw [Bool.not_eq_true] at hc
    rw [hc]
    rfl
  cases i with
  | rdreg | pqsize | lookup | rdclen | rdcode | rdbits | rdout | rdtxt | rdfsym | rdfcnt | rdnode | rdheap =>
    exact ofOk rfl h
  | nop => exact ofOk rfl h
  | clr => exact ofOk rfl h.clear
  | setw imm => exact ofOk rfl (h.of_sameCore rfl)
  | sym x =>
    refine ⟨fun r hc => ?_, fun t r ht => h.symBody ht⟩
    simp only [Sys2Proof.Machine.bodyOf, Sys2Proof.Machine.symBody] at hc
    rcases bind_eq_error.1 hc with hc | ⟨_, -, hc⟩
    · exact require_ne_stuck hc
    rcases bind_eq_error.1 hc with hc | ⟨_, -, hc⟩
    · exact require_ne_stuck hc
    split at hc
    · rcases bind_eq_error.1 hc with hc | ⟨_, -, hc⟩
      · exact require_ne_stuck hc
      · cases hc
    · cases hc
  | mkleaf x =>
    by_cases h1 : (s.phase == .load) = true
    · by_cases h2 : (s.findLeaf x).isNone = true
      · by_cases h3 : s.nleaf < s.params.maxSyms
        · exact ofOk (u := s.addLeaf ⟨x, s.wreg⟩) (a := okData (natData s.nleaf))
            (by simp only [Sys2Proof.Machine.bodyOf, mkleafBody, reqT h1, reqT h2, reqT (decide_eq_true h3), ok_bind]; rfl)
            (h.addLeaf (by simpa using h1) h3 (findLeaf_none (by simpa using h2)))
        · exact ofRaise (f := .cap)
            (by simp only [Sys2Proof.Machine.bodyOf, mkleafBody, reqT h1, reqT h2, reqF (mt of_decide_eq_true h3), ok_bind,
              error_bind])
      · exact ofRaise (f := .dup)
          (by simp only [Sys2Proof.Machine.bodyOf, mkleafBody, reqT h1, reqF h2, ok_bind, error_bind])
    · exact ofRaise (f := .seq) (by simp only [Sys2Proof.Machine.bodyOf, mkleafBody, reqF h1, error_bind])
  | pqins n =>
    by_cases h1 : (s.phase == .load) = true
    · have hl : s.phase = .load := by simpa using h1
      by_cases h2 : (s.allocated n.toNat && !s.inQueue n.toNat && !s.hasParent n.toNat) = true
      · have h3 := h2
        simp only [Bool.and_eq_true, Bool.not_eq_true'] at h3
        obtain ⟨⟨ha, hq⟩, hp⟩ := h3
        have hq' := inQueue_eq_false.1 hq
        have e := pqInsert_eq_ok (h.queue_room hl ha hp hq') fun m hm => by
          rcases List.mem_cons.1 hm with rfl | hm
          exacts [h.hasRecord ha, h.queue_hasRecord m hm]
        exact ofOk (by simp only [Sys2Proof.Machine.bodyOf, pqinsBody, reqT h1, reqT h2, e, ok_bind]; rfl) (h.insert hl ha hp hq')
      · exact ofRaise (f := .node)
          (by simp only [Sys2Proof.Machine.bodyOf, pqinsBody, reqT h1, reqF h2, ok_bind, error_bind])
    · exact ofRaise (f := .seq) (by simp only [Sys2Proof.Machine.bodyOf, pqinsBody, reqF h1, error_bind])
  | pqext =>
    by_cases h1 : (s.phase == .load) = true
    · have hl : s.phase = .load := by simpa using h1
      cases hq : s.heap with
      | nil =>
        exact ofOk (u := s) (by
          simp only [Sys2Proof.Machine.bodyOf, pqextBody, reqT h1, ok_bind, State.hsize, hq, List.length_nil, if_true]; rfl) h
      | cons m ms =>
        have hm : s.heap.head? = some m := by rw [hq]; rfl
        have e := pqExtract_eq_ok hm h.queue_hasRecord
        have hz : s.hsize ≠ 0 := by simp [State.hsize, hq]
        exact ofOk (by simp only [Sys2Proof.Machine.bodyOf, pqextBody, reqT h1, ok_bind, if_neg hz, e]; rfl) (h.extract hl hm).1
    · exact ofRaise (f := .seq) (by simp only [Sys2Proof.Machine.bodyOf, pqextBody, reqF h1, error_bind])
  | merge =>
    by_cases h1 : (s.phase == .load) = true
    · have hl : s.phase = .load := by simpa using h1
      by_cases h2 : 2 ≤ s.hsize
      · obtain ⟨a, b, ha, hb, -, hc⟩ := mergeStep_cases h2 h.queue_hasRecord h.queue.size
        rcases hc with ⟨e, -⟩ | ⟨e, -, -⟩ | ⟨e, hn, hw⟩
        · exact ofRaise (f := .cap) (by
            simp only [Sys2Proof.Machine.bodyOf, mergeBody, reqT h1, reqT (decide_eq_true h2), e, ok_bind, error_bind])
        · exact ofRaise (f := .wovf) (by
            simp only [Sys2Proof.Machine.bodyOf, mergeBody, reqT h1, reqT (decide_eq_true h2), e, ok_bind, error_bind])
        · exact ofOk (by
            simp only [Sys2Proof.Machine.bodyOf, mergeBody, reqT h1, reqT (decide_eq_true h2), e, ok_bind]; rfl)
            (h.merged hl ha hb hn hw)
      · exact ofRaise (f := .pq) (by
          simp only [Sys2Proof.Machine.bodyOf, mergeBody, reqT h1, reqF (mt of_decide_eq_true h2), ok_bind, error_bind])
    · exact ofRaise (f := .seq) (by simp only [Sys2Proof.Machine.bodyOf, mergeBody, reqF h1, error_bind])
  | finish =>
    by_cases h1 : (s.phase == .load) = true
    · have hl : s.phase = .load := by simpa using h1
      by_cases h2 : (s.hsize == 1) = true
      · obtain ⟨x, hx⟩ := heap_singleton (h := s.heap) (by simpa [State.hsize] using h2)
        obtain ⟨g1, g2⟩ := h.finished hl hx
        rcases finishBody_spec h hl hx with ⟨hi, e⟩ | ⟨hi, e⟩
        · exact ofOk e (g1 hi)
        · exact ofOk e (g2 hi)
      · exact ofRaise (f := .pq) (by
          simp only [Sys2Proof.Machine.bodyOf, finishBody, reqT h1, reqF h2, ok_bind, error_bind])
    · exact ofRaise (f := .seq) (by simp only [Sys2Proof.Machine.bodyOf, finishBody, reqF h1, error_bind])
  | build =>
    by_cases h1 : (s.phase == .load && s.nleaf == 0 && s.nint == 0 && s.hsize == 0) = true
    · have h3 := h1
      simp only [Bool.and_eq_true, State.nleaf, State.nint, State.hsize] at h3
      obtain ⟨⟨⟨hl, hlv⟩, hin⟩, hq⟩ := h3
      rcases buildBody_spec h (by simpa using hl) (nil_of_length_beq hlv) (nil_of_length_beq hin) (nil_of_length_beq hq)
        with ⟨-, e, hs⟩ | ⟨_, -, t, -, e, hs⟩ | ⟨-, t, -, e, hs, -⟩ <;> exact ofOk e hs
    · exact ofRaise (f := .seq) (by simp only [Sys2Proof.Machine.bodyOf, buildBody, reqF h1, error_bind])
  | gen =>
    by_cases h1 : (s.phase == .tree) = true
    · have hp : s.phase = .tree := by simpa using h1
      cases hr : s.root with
      | none => exact ofOk (genBody_noRoot hp hr) (h.generateNone hp)
      | some n => exact ofOk (genBody_spec h hp hr) (h.generate hp hr)
    · exact ofRaise (f := .seq) (by simp only [Sys2Proof.Machine.bodyOf, genBody, reqF h1, error_bind])
  | enc =>
    by_cases h1 : (s.phase == .code) = true
    · have hp : s.phase = .code := by simpa using h1
      cases he : encodeText s.txt { s with bits := [] } with
      | error e =>
        cases e with
        | raise f =>
          exact ofRaise (f := f) (by
            simp only [Sys2Proof.Machine.bodyOf, encBody, reqT h1, he, ok_bind, error_bind])
        | stuck r => exact absurd he (encodeText_ne_stuck _ _ r)
      | ok t =>
        obtain ⟨e1, -, e3⟩ := encodeText_ok _ he
        have hb := e3 (Nat.zero_le _)
        refine ofOk (u := t) (by simp only [Sys2Proof.Machine.bodyOf, encBody, reqT h1, he, ok_bind]; rfl) ?_
        rw [e1] at hb ⊢
        exact h.setBits hp hb
    · exact ofRaise (f := .seq) (by simp only [Sys2Proof.Machine.bodyOf, encBody, reqF h1, error_bind])
  | encs x =>
    by_cases h1 : (s.phase == .code) = true
    · have hp : s.phase = .code := by simpa using h1
      rcases encsStep_cases x s with ⟨e, -⟩ | ⟨k, -, ⟨e, -⟩ | ⟨e, hb⟩⟩
      · exact ofRaise (f := .nosym) (by
          simp only [Sys2Proof.Machine.bodyOf, encsBody, reqT h1, e, ok_bind, error_bind])
      · exact ofRaise (f := .cap) (by
          simp only [Sys2Proof.Machine.bodyOf, encsBody, reqT h1, e, ok_bind, error_bind])
      · refine ofOk (u := s.setBits (s.bits ++ s.codeAt k))
          (by simp only [Sys2Proof.Machine.bodyOf, encsBody, reqT h1, e, ok_bind]; rfl) (h.setBits hp ?_)
        rw [List.length_append]
        exact hb
    · exact ofRaise (f := .seq) (by simp only [Sys2Proof.Machine.bodyOf, encsBody, reqF h1, error_bind])
  | encinit =>
    by_cases h1 : (s.phase == .code) = true
    · have hp : s.phase = .code := by simpa using h1
      exact ofOk (by simp only [Sys2Proof.Machine.bodyOf, encinitBody, reqT h1, ok_bind]; rfl)
        (h.setBits hp (bs := []) (Nat.zero_le _))
    · exact ofRaise (f := .seq) (by simp only [Sys2Proof.Machine.bodyOf, encinitBody, reqF h1, error_bind])
  | decinit =>
    by_cases h1 : s.decoderPhase = true
    · have hne := decoderPhase_iff.1 h1
      exact ofOk (by simp only [Sys2Proof.Machine.bodyOf, decinitBody, reqT h1, ok_bind]; rfl)
        (h.setDecoder hne (.inl rfl) (o := []) (Nat.zero_le _))
    · exact ofRaise (f := .seq) (by simp only [Sys2Proof.Machine.bodyOf, decinitBody, reqF h1, error_bind])
  | decb b =>
    by_cases h1 : s.decoderPhase = true
    · have hne := decoderPhase_iff.1 h1
      have e : Sys2Proof.Machine.bodyOf (.decb b) s = Sys2Proof.Machine.decbStep b s := by
        simp only [Sys2Proof.Machine.bodyOf, decbBody, reqT h1, ok_bind]
      rw [e]
      exact ⟨h.decbStep_ne_stuck hne b, fun t r ht => (h.decbStep hne ht).1⟩
    · exact ofRaise (f := .seq) (by simp only [Sys2Proof.Machine.bodyOf, decbBody, reqF h1, error_bind])
  | dec =>
    by_cases h1 : s.decoderPhase = true
    · have hne := decoderPhase_iff.1 h1
      have hr : Structural s.restartDecoder := h.setDecoder hne (.inl rfl) (o := []) (Nat.zero_le _)
      obtain ⟨g1, g2⟩ := decodeBits_keeps s.bits hr hne
      cases he : decodeBits s.bits s.restartDecoder with
      | error e =>
        cases e with
        | raise f =>
          exact ofRaise (f := f) (by
            simp only [Sys2Proof.Machine.bodyOf, decBody, reqT h1, he, ok_bind, error_bind])
        | stuck r => exact absurd he (g1 r)
      | ok t =>
        exact ofOk (by simp only [Sys2Proof.Machine.bodyOf, decBody, reqT h1, he, ok_bind]; rfl) (g2 t he).1
    · exact ofRaise (f := .seq) (by simp only [Sys2Proof.Machine.bodyOf, decBody, reqF h1, error_bind])

end Sys2Proof.Machine
end

