-- ==== Sys2Proof/Laws/Memory.lean ====
section
/-! SUPPORT. Every operation over the memories keeps their form: `Memory.wf` (20_memory.md R60; 60_exceptions.md
R243). -/

namespace Sys2Proof.Machine

variable {s t : State}

theorem memoryWf_resetOf (p : Params) : Memory.wf (State.resetOf p) := by
  refine ⟨Nat.zero_le _, Nat.zero_le _, Nat.zero_le _, Nat.zero_le _, Nat.zero_le _, List.length_replicate, ?_,
    Nat.zero_le _, Nat.zero_le _⟩
  intro c hc
  rw [(List.mem_replicate.1 hc).2]
  exact Nat.zero_le _

/-! ### The queue and the nodes -/

theorem memoryWf_setHeap (h : Memory.wf s) {q : List Nat} (hq : q.length ≤ s.params.maxSyms) :
    Memory.wf (s.setHeap q) := by
  obtain ⟨m1, m2, m3, m4, m5, m6, m7, m8, m9⟩ := h
  exact ⟨m1, m2, m3, m4, hq, m6, m7, m8, m9⟩

theorem memoryWf_pqInsert (h : Memory.wf s) {n : Nat} (hi : pqInsert n s = .ok t) : Memory.wf t := by
  obtain ⟨rfl, hc, -⟩ := pqInsert_ok hi
  refine memoryWf_setHeap h ?_
  rw [heapInsert_length]
  exact hc

theorem memoryWf_pqExtract (h : Memory.wf s) {m : Nat} (hx : pqExtract s = .ok (m, t)) : Memory.wf t := by
  obtain ⟨-, rfl, -⟩ := pqExtract_ok hx
  refine memoryWf_setHeap h ?_
  rw [heapRemove_length]
  have : s.heap.length ≤ s.params.maxSyms := h.2.2.2.2.1
  omega

theorem memoryWf_addInner (h : Memory.wf s) {r : InnerNode} (hn : s.nint < s.params.maxSyms) :
    Memory.wf (s.addInner r) := by
  obtain ⟨m1, m2, m3, m4, m5, m6, m7, m8, m9⟩ := h
  refine ⟨m1, m2, m3, ?_, m5, m6, m7, m8, m9⟩
  show (s.inners ++ [r]).length ≤ s.params.maxSyms
  rw [List.length_append, List.length_singleton]
  exact hn

theorem memoryWf_addLeaf (h : Memory.wf s) {r : LeafNode} (hn : s.nleaf < s.params.maxSyms) :
    Memory.wf (s.addLeaf r) := by
  obtain ⟨m1, m2, m3, m4, m5, m6, m7, m8, m9⟩ := h
  refine ⟨m1, m2, ?_, m4, m5, m6, m7, m8, m9⟩
  show (s.leaves ++ [r]).length ≤ s.params.maxSyms
  rw [List.length_append, List.length_singleton]
  exact hn

theorem memoryWf_newInternal (h : Memory.wf s) {w l n : Nat} {r : Option Nat}
    (hn : newInternal w l r s = .ok (n, t)) : Memory.wf t := by
  rcases newInternal_cases w l r s with ⟨e, -⟩ | ⟨e, -, -⟩ | ⟨e, hc, -⟩ <;> rw [e] at hn <;> cases hn
  exact memoryWf_addInner h hc

theorem memoryWf_wrap (h : Memory.wf s) {x n : Nat} (hw : wrap x s = .ok (n, t)) : Memory.wf t := by
  unfold wrap at hw
  obtain ⟨_, -, hw⟩ := bind_eq_ok.1 hw
  exact memoryWf_newInternal h hw

theorem memoryWf_mergeStep (h : Memory.wf s) {n : Nat} (hm : mergeStep s = .ok (n, t)) : Memory.wf t := by
  unfold mergeStep at hm
  obtain ⟨⟨a, s1⟩, h1, hm⟩ := bind_eq_ok.1 hm
  obtain ⟨⟨b, s2⟩, h2, hm⟩ := bind_eq_ok.1 hm
  obtain ⟨⟨m, s3⟩, h3, hm⟩ := bind_eq_ok.1 hm
  obtain ⟨s4, h4, hm⟩ := bind_eq_ok.1 hm
  cases hm
  exact memoryWf_pqInsert (memoryWf_newInternal (memoryWf_pqExtract (memoryWf_pqExtract h h1) h2) h3) h4

theorem memoryWf_mergeAll : ∀ (fuel : Nat) {s t : State}, Memory.wf s → mergeAll fuel s = .ok t → Memory.wf t
  | 0, s, t, h, hm => by cases hm; exact h
  | fuel + 1, s, t, h, hm => by
    unfold mergeAll at hm
    split at hm
    · obtain ⟨⟨n, u⟩, h1, hm⟩ := bind_eq_ok.1 hm
      exact memoryWf_mergeAll fuel (memoryWf_mergeStep h h1) hm
    · cases hm
      exact h

theorem memoryWf_insertLeaves : ∀ (es : List FreqEntry) {s t : State}, Memory.wf s →
    s.nleaf + es.length ≤ s.params.maxSyms → insertLeaves es s = .ok t → Memory.wf t
  | [], s, t, h, _, hi => by cases hi; exact h
  | e :: es, s, t, h, hn, hi => by
    unfold insertLeaves at hi
    obtain ⟨u, h1, hi⟩ := bind_eq_ok.1 hi
    simp only [List.length_cons] at hn
    have hu := memoryWf_pqInsert (memoryWf_addLeaf (r := ⟨e.sym, e.count⟩) h (by omega)) h1
    have he := pqInsert_frame h1
    refine memoryWf_insertLeaves es hu ?_ hi
    rw [he]
    show (s.leaves ++ [(⟨e.sym, e.count⟩ : LeafNode)]).length + es.length ≤ s.params.maxSyms
    rw [List.length_append, List.length_singleton]
    have : s.nleaf = s.leaves.length := rfl
    omega

theorem memoryWf_plant (h : Memory.wf s) (n : Option Nat) : Memory.wf (s.plant n) := h

/-! ### The code table -/

theorem mem_set_cases {α : Type} {l : List α} {i : Nat} {a c : α} (h : c ∈ l.set i a) : c ∈ l ∨ c = a :=
  List.mem_or_eq_of_mem_set h

/-- The walk of `GEN` keeps the table's length and writes no code longer than `NINT` and 1. -/
theorem walk_keeps (s : State) {bound : Nat} (hb : s.nint ≤ bound) (h1 : 1 ≤ bound) : ∀ (depth n : Nat)
    (path : BitString) (table : List BitString) (count : Nat) {table' : List BitString} {count' : Nat},
    path.length + depth ≤ s.nint + 1 → (∀ c ∈ table, c.length ≤ bound) →
    walk s depth n path (table, count) = .ok (table', count') →
    table'.length = table.length ∧ ∀ c ∈ table', c.length ≤ bound
  | 0, _, _, _, _, _, _, _, _, hw => by cases hw
  | depth + 1, n, path, table, count, table', count', hp, ht, hw => by
    unfold walk at hw
    split at hw
    · obtain ⟨_, -, hw⟩ := bind_eq_ok.1 hw
      cases hw
      refine ⟨List.length_set .., fun c hc => ?_⟩
      rcases mem_set_cases hc with hc | rfl
      · exact ht c hc
      · unfold codeOfPath
        split
        · exact h1
        · omega
    · obtain ⟨r, -, hw⟩ := bind_eq_ok.1 hw
      obtain ⟨⟨t1, c1⟩, hl, hw⟩ := bind_eq_ok.1 hw
      obtain ⟨k1, k2⟩ := walk_keeps s hb h1 depth r.left (path ++ [false]) table count
        (by rw [List.length_append, List.length_singleton]; omega) ht hl
      split at hw
      · cases hw
        exact ⟨k1, k2⟩
      · obtain ⟨j1, j2⟩ := walk_keeps s hb h1 depth _ (path ++ [true]) t1 c1
          (by rw [List.length_append, List.length_singleton]; omega) k2 hw
        exact ⟨j1.trans k1, j2⟩

/-! ### Text, bitstream and output -/

theorem memoryWf_decbStep (h : Memory.wf s) {b : Bool} {a : Response} (hd : decbStep b s = .ok (t, a)) :
    Memory.wf t := by
  rcases decbStep_ok hd with ⟨-, rfl, -⟩ | ⟨n, c, m, q, -, -, -, -, ⟨-, rfl, -⟩ | ⟨l, -, hL, rfl, -⟩⟩
  · exact h
  · exact h
  · obtain ⟨m1, m2, m3, m4, m5, m6, m7, m8, m9⟩ := h
    refine ⟨m1, m2, m3, m4, m5, m6, m7, m8, ?_⟩
    show (s.out ++ [l.sym]).length ≤ s.params.maxLen
    rw [List.length_append, List.length_singleton]
    exact hL

theorem memoryWf_decodeBits : ∀ (bs : BitString) {s t : State}, Memory.wf s → decodeBits bs s = .ok t → Memory.wf t
  | [], s, t, h, hd => by cases hd; exact h
  | b :: bs, s, t, h, hd => by
    unfold decodeBits at hd
    obtain ⟨⟨u, a⟩, h1, hd⟩ := bind_eq_ok.1 hd
    exact memoryWf_decodeBits bs (memoryWf_decbStep h h1) hd

theorem memoryWf_setBits (h : Memory.wf s) {bs : BitString} (hb : bs.length ≤ s.params.maxBits) :
    Memory.wf (s.setBits bs) := by
  obtain ⟨m1, m2, m3, m4, m5, m6, m7, m8, m9⟩ := h
  exact ⟨m1, m2, m3, m4, m5, m6, m7, hb, m9⟩

theorem memoryWf_symBody (h : Memory.wf s) {x : Symbol} {r : Response} (hb : symBody x s = .ok (t, r)) :
    Memory.wf t := by
  obtain ⟨m1, m2, m3, m4, m5, m6, m7, m8, m9⟩ := h
  obtain ⟨-, hl, ⟨-, hn, rfl⟩ | ⟨j, e, -, -, rfl⟩⟩ := symBody_ok hb
  · refine ⟨?_, ?_, m3, m4, m5, m6, m7, m8, m9⟩
    · simpa [State.tlen] using hl
    · simpa [State.nsym] using hn
  · refine ⟨?_, ?_, m3, m4, m5, m6, m7, m8, m9⟩
    · simpa [State.tlen] using hl
    · simpa [State.nsym] using m2

/-- A command that executes keeps the form of the memories. -/
theorem memoryWf_bodyOf (hp : s.params.Legal) (h : Memory.wf s) {i : Instr} {r : Response}
    (hb : bodyOf i s = .ok (t, r)) : Memory.wf t := by
  obtain ⟨m1, m2, m3, m4, m5, m6, m7, m8, m9⟩ := id h
  have hread : readClass i = true → Memory.wf t := by
    intro hc
    obtain ⟨a, ha, -⟩ := bodyOf_readClass hc s
    rw [ha] at hb
    cases hb
    exact h
  cases i with
  | rdreg | pqsize | lookup | rdclen | rdcode | rdbits | rdout | rdtxt | rdfsym | rdfcnt | rdnode | rdheap =>
    exact hread rfl
  | nop => cases hb; exact h
  | clr => cases hb; exact memoryWf_resetOf s.params
  | setw imm => cases hb; exact h
  | sym x => exact memoryWf_symBody h hb
  | mkleaf x =>
    simp only [bodyOf, mkleafBody] at hb
    obtain ⟨_, -, hb⟩ := bind_eq_ok.1 hb
    obtain ⟨_, -, hb⟩ := bind_eq_ok.1 hb
    obtain ⟨_, hc, hb⟩ := bind_eq_ok.1 hb
    cases hb
    exact memoryWf_addLeaf h (by simpa using hc)
  | pqins n =>
    simp only [bodyOf, pqinsBody] at hb
    obtain ⟨_, -, hb⟩ := bind_eq_ok.1 hb
    obtain ⟨_, -, hb⟩ := bind_eq_ok.1 hb
    obtain ⟨u, hi, hb⟩ := bind_eq_ok.1 hb
    cases hb
    exact memoryWf_pqInsert h hi
  | pqext =>
    simp only [bodyOf, pqextBody] at hb
    obtain ⟨_, -, hb⟩ := bind_eq_ok.1 hb
    split at hb
    · cases hb; exact h
    · obtain ⟨⟨m, u⟩, hi, hb⟩ := bind_eq_ok.1 hb
      cases hb
      exact memoryWf_pqExtract h hi
  | merge =>
    simp only [bodyOf, mergeBody] at hb
    obtain ⟨_, -, hb⟩ := bind_eq_ok.1 hb
    obtain ⟨_, -, hb⟩ := bind_eq_ok.1 hb
    obtain ⟨⟨n, u⟩, hi, hb⟩ := bind_eq_ok.1 hb
    cases hb
    exact memoryWf_mergeStep h hi
  | finish =>
    simp only [bodyOf, finishBody] at hb
    obtain ⟨_, -, hb⟩ := bind_eq_ok.1 hb
    obtain ⟨_, -, hb⟩ := bind_eq_ok.1 hb
    obtain ⟨⟨x, u⟩, hi, hb⟩ := bind_eq_ok.1 hb
    have hu := memoryWf_pqExtract h hi
    split at hb
    · obtain ⟨⟨n, v⟩, hw, hb⟩ := bind_eq_ok.1 hb
      cases hb
      exact memoryWf_plant (memoryWf_wrap hu hw) _
    · cases hb
      exact memoryWf_plant hu _
  | build =>
    simp only [bodyOf, buildBody] at hb
    obtain ⟨_, hq, hb⟩ := bind_eq_ok.1 hb
    have hz : s.nleaf = 0 := by
      simp only [require_eq_ok, Bool.and_eq_true, beq_iff_eq] at hq
      exact hq.1.1.2
    obtain ⟨u, hi, hb⟩ := bind_eq_ok.1 hb
    have hu := memoryWf_insertLeaves s.ft h (by rw [hz, Nat.zero_add]; exact m2) hi
    split at hb
    · cases hb
      exact memoryWf_plant hu _
    · split at hb
      · obtain ⟨⟨x, v⟩, hx, hb⟩ := bind_eq_ok.1 hb
        obtain ⟨⟨n, v'⟩, hw, hb⟩ := bind_eq_ok.1 hb
        cases hb
        exact memoryWf_plant (memoryWf_wrap (memoryWf_pqExtract hu hx) hw) _
      · obtain ⟨v, hm, hb⟩ := bind_eq_ok.1 hb
        obtain ⟨⟨n, v'⟩, hx, hb⟩ := bind_eq_ok.1 hb
        cases hb
        exact memoryWf_plant (memoryWf_pqExtract (memoryWf_mergeAll _ hu hm) hx) _
  | gen =>
    simp only [bodyOf, genBody] at hb
    obtain ⟨_, -, hb⟩ := bind_eq_ok.1 hb
    split at hb
    · cases hb
      exact h
    · obtain ⟨⟨tb, c⟩, hw, hb⟩ := bind_eq_ok.1 hb
      cases hb
      obtain ⟨k1, k2⟩ := walk_keeps s m4 hp.2.1.1 _ _ _ _ _ (by simp) m7 hw
      exact ⟨m1, m2, m3, m4, m5, k1.trans m6, k2, m8, m9⟩
  | enc =>
    simp only [bodyOf, encBody] at hb
    obtain ⟨_, -, hb⟩ := bind_eq_ok.1 hb
    obtain ⟨u, he, hb⟩ := bind_eq_ok.1 hb
    cases hb
    obtain ⟨e, -, hlen⟩ := encodeText_ok _ he
    have := hlen (Nat.zero_le _)
    rw [e] at this ⊢
    exact memoryWf_setBits (memoryWf_setBits h (bs := []) (Nat.zero_le _)) this
  | encs x =>
    simp only [bodyOf, encsBody] at hb
    obtain ⟨_, -, hb⟩ := bind_eq_ok.1 hb
    obtain ⟨⟨n, u⟩, he, hb⟩ := bind_eq_ok.1 hb
    cases hb
    rcases encsStep_cases x s with ⟨e, -⟩ | ⟨i, -, ⟨e, -⟩ | ⟨e, hlen⟩⟩ <;> rw [e] at he <;> cases he
    refine memoryWf_setBits h ?_
    rw [List.length_append]
    exact hlen
  | encinit =>
    simp only [bodyOf, encinitBody] at hb
    obtain ⟨_, -, hb⟩ := bind_eq_ok.1 hb
    cases hb
    exact memoryWf_setBits h (bs := []) (Nat.zero_le _)
  | dec =>
    simp only [bodyOf, decBody] at hb
    obtain ⟨_, -, hb⟩ := bind_eq_ok.1 hb
    obtain ⟨u, hd, hb⟩ := bind_eq_ok.1 hb
    cases hb
    exact memoryWf_decodeBits _ (s := s.restartDecoder) ⟨m1, m2, m3, m4, m5, m6, m7, m8, Nat.zero_le _⟩ hd
  | decinit =>
    simp only [bodyOf, decinitBody] at hb
    obtain ⟨_, -, hb⟩ := bind_eq_ok.1 hb
    cases hb
    exact ⟨m1, m2, m3, m4, m5, m6, m7, m8, Nat.zero_le _⟩
  | decb b =>
    simp only [bodyOf, decbBody] at hb
    obtain ⟨_, -, hb⟩ := bind_eq_ok.1 hb
    exact memoryWf_decbStep h hb

end Sys2Proof.Machine
end

