-- ==== Sys2Proof/Laws/PerInstr.lean ====
section
/-! SUPPORT. Laws said of each command: the opcode field of its word is its opcode in the map. -/

namespace Sys2Proof.Laws.OpcodeField

/-- The word of a command carries the command's opcode in bits 31:24 and its operand field in bits 23:0
(30_encoding.md R80, R83). -/
def Statement (i : Instr) : Prop := opcodeOf (encode i) = i.opcode ∧ argOf (encode i) = i.arg

theorem holds (i : Instr) : Statement i := ⟨encode_opcode i, encode_arg i⟩

theorem nop : Statement .nop := holds _

theorem clr : Statement .clr := holds _

theorem rdreg (r : BitVec 24) : Statement (.rdreg r) := holds _

theorem sym (x : Symbol) : Statement (.sym x) := holds _

theorem setw (imm : BitVec 24) : Statement (.setw imm) := holds _

theorem mkleaf (x : Symbol) : Statement (.mkleaf x) := holds _

theorem pqins (n : BitVec 24) : Statement (.pqins n) := holds _

theorem pqext : Statement .pqext := holds _

theorem pqsize : Statement .pqsize := holds _

theorem build : Statement .build := holds _

theorem merge : Statement .merge := holds _

theorem finish : Statement .finish := holds _

theorem gen : Statement .gen := holds _

theorem lookup (x : Symbol) : Statement (.lookup x) := holds _

theorem rdclen (i : BitVec 24) : Statement (.rdclen i) := holds _

theorem rdcode (i w : BitVec 12) : Statement (.rdcode i w) := holds _

theorem enc : Statement .enc := holds _

theorem encs (x : Symbol) : Statement (.encs x) := holds _

theorem encinit : Statement .encinit := holds _

theorem rdbits (w : BitVec 24) : Statement (.rdbits w) := holds _

theorem dec : Statement .dec := holds _

theorem decinit : Statement .decinit := holds _

theorem decb (b : Bool) : Statement (.decb b) := holds _

theorem rdout (i : BitVec 24) : Statement (.rdout i) := holds _

theorem rdtxt (i : BitVec 24) : Statement (.rdtxt i) := holds _

theorem rdfsym (i : BitVec 24) : Statement (.rdfsym i) := holds _

theorem rdfcnt (i : BitVec 24) : Statement (.rdfcnt i) := holds _

theorem rdnode (n : BitVec 16) (f : BitVec 3) : Statement (.rdnode n f) := holds _

theorem rdheap (i : BitVec 24) : Statement (.rdheap i) := holds _

end Sys2Proof.Laws.OpcodeField
end

