-- ==== Sys2Proof/Laws/Stream.lean ====
section
/-! SUPPORT. Decoding a run of whole codes gives their symbols (45_decoder.md R192, R195, R196). -/

namespace Sys2Proof.Machine

theorem decodeBits_append : ∀ (xs ys : BitString) (s : State),
    decodeBits (xs ++ ys) s = decodeBits xs s >>= decodeBits ys
  | [], _, _ => rfl
  | b :: xs, ys, s => by
    show (decbStep b s >>= fun p => decodeBits (xs ++ ys) p.1) =
      (decbStep b s >>= fun p => decodeBits xs p.1) >>= decodeBits ys
    cases decbStep b s with
    | error e => rfl
    | ok p => exact decodeBits_append xs ys p.1

theorem decodeBits_cons (b : Bool) (bs : BitString) (s : State) :
    decodeBits (b :: bs) s = decbStep b s >>= fun p => decodeBits bs p.1 := rfl

theorem decodeBits_noRoot : ∀ (bs : BitString) {s : State}, s.root = none → decodeBits bs s = .ok s
  | [], _, _ => rfl
  | b :: bs, s, h => by
    rw [decodeBits_cons, decbStep_noRoot h, ok_bind]
    exact decodeBits_noRoot bs h

/-- The bits of a path from where the decoder stands to a leaf emit the leaf's symbol, or `F_CAP` where `OUT` is
full. -/
theorem decodeBits_path : ∀ (p : BitString) {s : State} {n m i : Nat} {l : LeafNode}, s.root = some n →
    s.cur = some m → p ≠ [] → s.follow m p = some i → s.leafAt i = some l →
    (s.olen < s.params.maxLen → decodeBits p s = .ok { s with out := s.out ++ [l.sym], cur := s.root }) ∧
      (s.params.maxLen ≤ s.olen → decodeBits p s = .error (.raise .cap))
  | [], _, _, _, _, _, _, _, hp, _, _ => absurd rfl hp
  | b :: p, s, n, m, i, l, hr, hc, _, hf, hl => by
    rw [follow_cons] at hf
    obtain ⟨c, hch, hf⟩ := Option.bind_eq_some_iff.1 hf
    obtain ⟨r, hi, hm⟩ := childAt_eq_some.1 hch
    rw [decodeBits_cons]
    by_cases hlf : s.isLeaf c = true
    · obtain ⟨rfl, rfl⟩ := follow_leaf (isLeaf_eq_true.1 hlf) hf
      refine ⟨fun hL => ?_, fun hL => ?_⟩
      · rw [decbStep_leaf hr hc hi hm hl hL]
        rfl
      · rw [decbStep_full hr hc hi hm hlf hL]
        rfl
    · have hlf : s.isLeaf c = false := by simpa using hlf
      have hp : p ≠ [] := by
        rintro rfl
        obtain rfl : c = i := by simpa using hf
        rw [isLeaf_eq_false] at hlf
        have := (leafAt_eq_some.1 hl).1
        omega
      rw [decbStep_inner hr hc hi hm hlf, ok_bind]
      have hfc : State.follow { s with cur := some c } = s.follow := follow_congr rfl rfl
      exact decodeBits_path p (s := { s with cur := some c }) hr rfl hp (by rw [hfc]; exact hf) hl

/-- The symbols of a list of leaves. -/
def State.symbolsOf (s : State) (ids : List Nat) : List Symbol := ids.filterMap fun i => (s.leaves[i]?).map LeafNode.sym

theorem symbolsOf_cons {s : State} {i : Nat} {l : LeafNode} (h : s.leafAt i = some l) (ids : List Nat) :
    s.symbolsOf (i :: ids) = l.sym :: s.symbolsOf ids := by
  simp [State.symbolsOf, (leafAt_eq_some.1 h).2]

/-- Decoding the concatenation of the codes of leaves, from the root. -/
theorem decodeBits_codes (codes : Nat → BitString) : ∀ (ids : List Nat) {s : State} {n : Nat}, s.root = some n →
    s.cur = s.root →
    (∀ i ∈ ids, codes i ≠ [] ∧ s.follow n (codes i) = some i ∧ ∃ l, s.leafAt i = some l) →
    (s.olen + ids.length ≤ s.params.maxLen →
      decodeBits (ids.flatMap codes) s = .ok { s with out := s.out ++ s.symbolsOf ids, cur := s.root }) ∧
      (s.olen ≤ s.params.maxLen → s.params.maxLen < s.olen + ids.length →
        decodeBits (ids.flatMap codes) s = .error (.raise .cap))
  | [], s, n, hr, hc, _ => by
    refine ⟨fun _ => ?_, fun h1 h2 => ?_⟩
    · have e : { s with cur := s.root } = s := by
        cases s
        simp_all
      simp [decodeBits, State.symbolsOf, e]
    · simp only [List.length_nil] at h2
      omega
  | i :: ids, s, n, hr, hc, hi => by
    obtain ⟨hne, hf, l, hl⟩ := hi i List.mem_cons_self
    obtain ⟨g1, g2⟩ := decodeBits_path (codes i) hr (hc.trans hr) hne hf hl
    rw [List.flatMap_cons, decodeBits_append]
    have hfc : State.follow { s with out := s.out ++ [l.sym], cur := s.root } = s.follow := follow_congr rfl rfl
    have ih := decodeBits_codes codes ids (s := { s with out := s.out ++ [l.sym], cur := s.root }) hr rfl
      fun j hj => by
        rw [hfc]
        exact hi j (List.mem_cons_of_mem _ hj)
    have holen : State.olen { s with out := s.out ++ [l.sym], cur := s.root } = s.olen + 1 := by simp [State.olen]
    rw [holen] at ih
    obtain ⟨ih1, ih2⟩ := ih
    simp only [List.length_cons]
    refine ⟨fun hL => ?_, fun h1 h2 => ?_⟩
    · rw [g1 (by omega), ok_bind, ih1 (by show _ ≤ s.params.maxLen; omega), symbolsOf_cons hl]
      simp [State.symbolsOf]
    · by_cases hL : s.olen < s.params.maxLen
      · rw [g1 hL, ok_bind]
        exact ih2 hL (by show s.params.maxLen < _; omega)
      · rw [g2 (by omega)]
        rfl

/-! ### The bitstream is a run of whole codes -/

variable {s : State}

theorem Inv.bits_codes (h : Inv s) {n : Nat} (hr : s.root = some n) {ids : List Nat}
    (hne : ∀ i ∈ ids, s.codeAt i ≠ []) :
    ∀ i ∈ ids, s.codeAt i ≠ [] ∧ s.follow n (s.codeAt i) = some i ∧ ∃ l, s.leafAt i = some l := by
  intro i hi
  have hc := hne i hi
  have hcl : s.phase = .code := by
    by_contra hp
    have hempty : ∀ c ∈ s.code, c = [] := by
      cases hq : s.phase with
      | load => exact (h.structural.phase.load hq).2.2.2.2
      | tree => exact (h.structural.phase.tree hq).2
      | code => exact absurd hq hp
    refine hc ?_
    unfold State.codeAt
    cases hg : s.code[i]? with
    | none => rfl
    | some c => exact hempty c (List.mem_of_getElem? hg)
  obtain ⟨n', hr', hf⟩ := h.code.path hcl i hc
  obtain rfl : n = n' := by rw [hr] at hr'; exact Option.some.inj hr'
  obtain ⟨hi', -⟩ := (h.code.covered hcl i).1 hc
  refine ⟨hc, hf, ?_⟩
  have hS := h.structural.memory.2.2.1
  exact exists_leafAt (allocated_iff.2 (.inl hi')) (isLeaf_eq_true.2 (by omega))

theorem decBody_eq (hp : s.phase ≠ .load) :
    decBody s = decodeBits s.bits s.restartDecoder >>= fun t => .ok (t, okData (natData t.olen)) := by
  have : require s.decoderPhase .seq = .ok () := by rw [decoderPhase_iff.2 hp]; rfl
  simp only [decBody, this, ok_bind]

/-- `DEC` on a run of whole codes (45_decoder.md R195, R198). -/
theorem Inv.decBody (h : Inv s) (hp : s.phase ≠ .load) {n : Nat} (hr : s.root = some n) {ids : List Nat}
    (hne : ∀ i ∈ ids, s.codeAt i ≠ []) (hb : s.bits = ids.flatMap s.codeAt) :
    (ids.length ≤ s.params.maxLen →
      Sys2Proof.Machine.decBody s =
        .ok ({ s with out := s.symbolsOf ids, cur := s.root }, okData (natData ids.length))) ∧
      (s.params.maxLen < ids.length → Sys2Proof.Machine.decBody s = .error (.raise .cap)) := by
  have hfc : s.restartDecoder.follow = s.follow := follow_congr rfl rfl
  have hall := h.bits_codes hr hne
  obtain ⟨g1, g2⟩ := decodeBits_codes s.codeAt ids (s := s.restartDecoder) hr rfl fun i hi => by
    rw [hfc]
    exact hall i hi
  have h0 : s.restartDecoder.olen = 0 := rfl
  rw [h0, Nat.zero_add, ← hb] at g1 g2
  rw [decBody_eq hp]
  refine ⟨fun hL => ?_, fun hL => ?_⟩
  · rw [g1 hL, ok_bind]
    have hlen : (s.symbolsOf ids).length = ids.length := by
      clear g1 g2 hb hL hne
      induction ids with
      | nil => rfl
      | cons i ids ih =>
        obtain ⟨-, -, l, hl⟩ := hall i List.mem_cons_self
        rw [symbolsOf_cons hl, List.length_cons, ih fun j hj => hall j (List.mem_cons_of_mem _ hj), List.length_cons]
    have holen : State.olen { s with out := s.symbolsOf ids, cur := s.root } = ids.length := hlen
    rw [← holen]
    rfl
  · rw [g2 (Nat.zero_le _) hL]
    rfl

/-! ### The codes of a text -/

theorem codedLeaf_spec {x : Symbol} {i : Nat} (h : s.codedLeaf x = some i) :
    s.codeAt i ≠ [] ∧ ∃ r, s.leaves[i]? = some r ∧ r.sym = x := by
  refine ⟨codedLeaf_ne_nil h, ?_⟩
  unfold State.codedLeaf at h
  have := (Option.filter_eq_some_iff.1 h).1
  unfold State.findLeaf at this
  obtain ⟨hi, hx, -⟩ := List.findIdx?_eq_some_iff_getElem.1 this
  exact ⟨s.leaves[i], List.getElem?_eq_getElem hi, by simpa using hx⟩

/-- The codes of a text are the codes of leaves, whose symbols are the text (44_encoder.md R172). -/
theorem exists_leaves_of_text : ∀ (text : List Symbol), (∀ x ∈ text, s.codeOfSymbol x ≠ []) →
    ∃ ids : List Nat, (∀ i ∈ ids, s.codeAt i ≠ []) ∧ text.flatMap s.codeOfSymbol = ids.flatMap s.codeAt ∧
      s.symbolsOf ids = text ∧ ids.length = text.length
  | [], _ => ⟨[], by simp, rfl, rfl, rfl⟩
  | x :: text, h => by
    obtain ⟨ids, h1, h2, h3, h4⟩ := exists_leaves_of_text text fun y hy => h y (List.mem_cons_of_mem _ hy)
    have hx := h x List.mem_cons_self
    cases hc : s.codedLeaf x with
    | none => exact absurd (codeOfSymbol_eq_nil.2 hc) hx
    | some i =>
      obtain ⟨k1, r, k2, k3⟩ := codedLeaf_spec hc
      refine ⟨i :: ids, ?_, ?_, ?_, by simp [h4]⟩
      · intro j hj
        rcases List.mem_cons.1 hj with rfl | hj
        exacts [k1, h1 j hj]
      · rw [List.flatMap_cons, List.flatMap_cons, h2, codeOfSymbol_of_codedLeaf hc]
      · have : s.symbolsOf (i :: ids) = r.sym :: s.symbolsOf ids := by simp [State.symbolsOf, k2]
        rw [this, h3, k3]

theorem decodeBits_out : ∀ (bs : BitString) {s t : State}, decodeBits bs s = .ok t →
    ∀ x ∈ t.out, x ∈ s.out ∨ ∃ r ∈ s.leaves, r.sym = x
  | [], s, t, h, x, hx => by cases h; exact .inl hx
  | b :: bs, s, t, h, x, hx => by
    rw [decodeBits_cons] at h
    obtain ⟨⟨u, a⟩, h1, h⟩ := bind_eq_ok.1 h
    have he := decbStep_frame h1
    have hl : u.leaves = s.leaves := by rw [he]
    rcases decodeBits_out bs h x hx with hx | ⟨r, hr, hx⟩
    · rcases decbStep_ok h1 with ⟨-, rfl, -⟩ | ⟨n, c, m, q, -, -, -, -, ⟨-, rfl, -⟩ | ⟨l, hl', -, rfl, -⟩⟩
      · exact .inl hx
      · exact .inl hx
      · rcases List.mem_append.1 hx with hx | hx
        · exact .inl hx
        · exact .inr ⟨l, List.mem_of_getElem? (leafAt_eq_some.1 hl').2, (List.mem_singleton.1 hx).symm⟩
    · exact .inr ⟨r, hl ▸ hr, hx⟩

end Sys2Proof.Machine
end

