-- ==== Sys2Proof/Laws/Whole.lean ====
section
/-! SUPPORT. A command that executes keeps all the invariants: code, bitstream, symbols and `FINFO` (10_state.md R22,
R44; 45_decoder.md R196; 00_scope.md R12). -/

namespace Sys2Proof.Machine

variable {s t : State}

theorem written_phase {i : Instr} (h : t = written i s t) : t.phase = phaseAfter i s.phase := by
  rw [h]
  cases i <;> rfl

theorem written_params {i : Instr} (h : t = written i s t) : t.params = s.params := by
  rw [h]
  cases i <;> rfl

theorem written_fault {i : Instr} (h : t = written i s t) : t.fault = if i = .clr then none else s.fault := by
  rw [h]
  cases i <;> rfl

theorem written_finfo {i : Instr} (h : t = written i s t) : t.finfo = if i = .clr then 0#32 else s.finfo := by
  rw [h]
  cases i <;> rfl

/-! ### The code invariant -/

theorem codeInv_of_phase (h : t.phase ≠ .code) : CodeInv t :=
  ⟨fun hc => absurd hc h, fun hc => absurd hc h, fun hc => absurd hc h, fun hc => absurd hc h⟩

theorem CodeInv.congr (h : CodeInv s) (hp : t.params = s.params) (hph : t.phase = s.phase) (hr : t.root = s.root)
    (hl : t.leaves = s.leaves) (hi : t.inners = s.inners) (hc : t.code = s.code) : CodeInv t := by
  have e1 : t.codeAt = s.codeAt := codeAt_congr hc
  have e2 : t.follow = s.follow := follow_congr hp hi
  have e3 : t.nleaf = s.nleaf := congrArg List.length hl
  refine ⟨?_, ?_, ?_, ?_⟩ <;> rw [hph] <;> simp only [e1, e2, e3, hr, hp]
  exacts [h.covered, h.path, h.prefixFree, h.length]

theorem Structural.codeInv_generate (h : Structural s) (hp : s.phase = .tree) {n : Nat} (hr : s.root = some n) :
    CodeInv { s with code := s.generated n, phase := .code } := by
  have hne : s.phase ≠ .load := by rw [hp]; decide
  obtain ⟨ha, hin, -⟩ := h.phase.root hne n hr
  have hf : State.follow { s with code := s.generated n, phase := .code } = s.follow := follow_congr rfl rfl
  have hglen : (s.generated n).length = s.params.maxSyms := by
    rw [State.generated, writeCodes_length]
    exact h.memory.2.2.2.2.2.1
  have hS := h.memory.2.2.1
  have hP := h.params.2.1.1
  have hat : ∀ i p, s.follow n p = some i → i < s.params.maxSyms →
      State.codeAt { s with code := s.generated n, phase := .code } i = p := fun i p hfp hi =>
    codeAt_of_getElem? ((generated_spec h hp hr hi).1 p hfp)
  have hex : ∀ i, State.codeAt { s with code := s.generated n, phase := .code } i ≠ [] →
      i < s.params.maxSyms ∧ ∃ p, s.follow n p = some i := by
    intro i hi
    have hlt : i < s.params.maxSyms := by
      by_contra hc
      exact hi (codeAt_of_length_le (by show (s.generated n).length ≤ i; omega))
    refine ⟨hlt, ?_⟩
    by_contra hc
    push Not at hc
    exact hi (codeAt_of_getElem? ((generated_spec h hp hr hlt).2 hc))
  refine ⟨fun _ i => ?_, fun _ i hi => ?_, fun _ i j hij hi hj hpre => ?_, fun _ i hi => ?_⟩
  · rw [hf]
    constructor
    · intro hi
      obtain ⟨hlt, p, hfp⟩ := hex i hi
      have hal := h.tree.allocated_follow ha hfp
      rw [allocated_iff] at hal
      exact ⟨by show i < s.nleaf; omega, n, p, hr, hfp⟩
    · rintro ⟨hlt, n', p, hr', hfp⟩
      have hlt' : i < s.nleaf := hlt
      obtain rfl : n = n' := by
        have : s.root = some n' := hr'
        rw [hr] at this
        exact Option.some.inj this
      rw [hat i p hfp (by omega)]
      rintro rfl
      obtain rfl : n = i := by simpa using hfp
      rw [isLeaf_eq_false] at hin
      omega
  · rw [hf]
    obtain ⟨hlt, p, hfp⟩ := hex i hi
    rw [hat i p hfp hlt]
    exact ⟨n, hr, hfp⟩
  · obtain ⟨hlt, p, hfp⟩ := hex i hi
    obtain ⟨hlt', q, hfq⟩ := hex j hj
    rw [hat i p hfp hlt, hat j q hfq hlt'] at hpre
    obtain ⟨r, rfl⟩ := hpre
    rw [follow_append, hfp, Option.bind_some] at hfq
    exact hij (follow_leaf hlt hfq).2.symm
  · obtain ⟨hlt, p, hfp⟩ := hex i hi
    rw [hat i p hfp hlt]
    refine ⟨length_path_le h hne hr hfp, ?_⟩
    show max 1 (s.nleaf - 1) ≤ s.params.maxSyms
    omega

theorem codeAt_nil_of_tree (h : Structural s) (hp : s.phase = .tree) (i : Nat) : s.codeAt i = [] := by
  unfold State.codeAt
  cases hg : s.code[i]? with
  | none => rfl
  | some c => exact (h.phase.tree hp).2 c (List.mem_of_getElem? hg)

theorem Structural.codeInv_generateNone (h : Structural s) (hp : s.phase = .tree) (hr : s.root = none) :
    CodeInv { s with phase := .code } := by
  have hne : s.phase ≠ .load := by rw [hp]; decide
  have hnil : ∀ i, State.codeAt { s with phase := .code } i = [] := fun i =>
    (congrFun (codeAt_congr rfl) i).trans (codeAt_nil_of_tree h hp i)
  refine ⟨fun _ i => ⟨fun hi => absurd (hnil i) hi, ?_⟩, fun _ i hi => absurd (hnil i) hi,
    fun _ i j _ hi => absurd (hnil i) hi, fun _ i hi => absurd (hnil i) hi⟩
  rintro ⟨-, n, p, hr', -⟩
  have : s.root = some n := hr'
  rw [hr] at this
  cases this

theorem Inv.codeInv_bodyOf (h : Inv s) {i : Instr} {r : Response} (hb : bodyOf i s = .ok (t, r)) : CodeInv t := by
  obtain ⟨he, hl, -⟩ := bodyOf_frame hb
  have hph := written_phase he
  by_cases hg : i = .gen
  · subst hg
    have hp : s.phase = .tree := by simpa [legalIn] using hl
    cases hr : s.root with
    | none =>
      rw [bodyOf, genBody_noRoot hp hr] at hb
      cases hb
      exact h.structural.codeInv_generateNone hp hr
    | some n =>
      rw [bodyOf, genBody_spec h.structural hp hr] at hb
      cases hb
      exact h.structural.codeInv_generate hp hr
  by_cases hc : t.phase = .code
  · have hs : s.phase = .code := by
      rw [hc] at hph
      cases i <;> first | exact hph.symm | exact absurd rfl hg | cases hph
    have hk : t.params = s.params ∧ t.root = s.root ∧ t.leaves = s.leaves ∧ t.inners = s.inners ∧ t.code = s.code := by
      rw [hs] at hl
      rw [hc] at hph
      clear hb
      rw [he]
      cases i <;> first
        | exact ⟨rfl, rfl, rfl, rfl, rfl⟩
        | exact absurd rfl hg
        | cases hph
        | cases hl
    obtain ⟨k1, k2, k3, k4, k5⟩ := hk
    exact h.code.congr k1 (hc.trans hs.symm) k2 k3 k4 k5
  · exact codeInv_of_phase hc

/-! ### The bitstream -/

theorem BitsInv.congr (h : BitsInv s) (hb : t.bits = s.bits) (hc : t.code = s.code) : BitsInv t := by
  obtain ⟨ids, h1, h2⟩ := h
  have e : t.codeAt = s.codeAt := codeAt_congr hc
  exact ⟨ids, by rw [e]; exact h1, by rw [e, hb]; exact h2⟩

theorem bitsInv_nil (h : t.bits = []) : BitsInv t := ⟨[], by simp, h⟩

theorem codeAt_setBits (bs : BitString) : (s.setBits bs).codeAt = s.codeAt := codeAt_congr rfl

theorem BitsInv.append (h : BitsInv s) {i : Nat} (hi : s.codeAt i ≠ []) :
    BitsInv (s.setBits (s.bits ++ s.codeAt i)) := by
  obtain ⟨ids, h1, h2⟩ := h
  refine ⟨ids ++ [i], ?_, ?_⟩
  · rw [codeAt_setBits]
    intro j hj
    rcases List.mem_append.1 hj with hj | hj
    · exact h1 j hj
    · rw [List.mem_singleton.1 hj]
      exact hi
  · rw [codeAt_setBits]
    show s.bits ++ s.codeAt i = _
    rw [h2]
    simp

theorem Inv.bitsInv_bodyOf (h : Inv s) {i : Instr} {r : Response} (hb : bodyOf i s = .ok (t, r)) : BitsInv t := by
  obtain ⟨he, hl, -⟩ := bodyOf_frame hb
  have same : t.bits = s.bits ∧ t.code = s.code → BitsInv t := fun hk => h.bits.congr hk.1 hk.2
  cases i with
  | gen =>
    have hp : s.phase = .tree := by simpa [legalIn] using hl
    refine bitsInv_nil ?_
    rw [he]
    exact (h.structural.phase.tree hp).1
  | clr => exact bitsInv_nil (by rw [he]; rfl)
  | encinit =>
    have hp : s.phase = .code := by simpa [legalIn] using hl
    have e : encinitBody s = .ok (s.setBits [], okData 0#32) := by
      have : require (s.phase == .code) .seq = .ok () := by rw [hp]; rfl
      simp only [encinitBody, this, ok_bind]
      rfl
    rw [bodyOf, e] at hb
    cases hb
    exact bitsInv_nil rfl
  | encs x =>
    have hp : s.phase = .code := by simpa [legalIn] using hl
    have hreq : require (s.phase == .code) .seq = .ok () := by rw [hp]; rfl
    simp only [bodyOf, encsBody, hreq, ok_bind] at hb
    obtain ⟨⟨n, u⟩, he', hb⟩ := bind_eq_ok.1 hb
    cases hb
    rcases encsStep_cases x s with ⟨e, -⟩ | ⟨k, hk, ⟨e, -⟩ | ⟨e, -⟩⟩ <;> rw [e] at he' <;> cases he'
    exact h.bits.append (codedLeaf_ne_nil hk)
  | enc =>
    have hp : s.phase = .code := by simpa [legalIn] using hl
    rw [bodyOf, encBody_eq hp] at hb
    obtain ⟨u, he', hb⟩ := bind_eq_ok.1 hb
    cases hb
    obtain ⟨e1, e2, -⟩ := encodeText_ok _ he'
    rw [codeOfSymbol_setBits] at e1 e2
    obtain ⟨ids, k1, k2, -, -⟩ := exists_leaves_of_text s.txt e2
    have e : t = s.setBits (ids.flatMap s.codeAt) := by rw [e1, k2]; rfl
    rw [e]
    exact ⟨ids, by rw [codeAt_setBits]; exact k1, by rw [codeAt_setBits]; rfl⟩
  | nop | sym | setw | mkleaf | pqins | pqext | merge | build | finish | decinit | decb | dec =>
    exact same (by clear hb; rw [he]; exact ⟨rfl, rfl⟩)
  | rdreg | pqsize | lookup | rdclen | rdcode | rdbits | rdout | rdtxt | rdfsym | rdfcnt | rdnode | rdheap =>
    exact same (by clear hb; rw [he]; exact ⟨rfl, rfl⟩)

/-! ### Symbols -/

theorem SymbolsFit.congr (h : SymbolsFit s) (hp : t.params = s.params) (h1 : t.txt = s.txt) (h2 : t.ft = s.ft)
    (h3 : t.leaves = s.leaves) (h4 : ∀ x ∈ t.out, x ∈ s.out ∨ ∃ r ∈ s.leaves, r.sym = x) : SymbolsFit t := by
  refine ⟨?_, ?_, ?_, ?_⟩ <;> rw [hp]
  · rw [h1]; exact h.txt
  · rw [h2]; exact h.ft
  · rw [h3]; exact h.leaves
  · intro x hx
    rcases h4 x hx with hx | ⟨r, hr, rfl⟩
    exacts [h.out x hx, h.leaves r hr]

theorem Inv.symbolsFit_bodyOf (h : Inv s) {i : Instr} {r : Response} (hw : i.WellFormed s.params.symW = true)
    (hb : bodyOf i s = .ok (t, r)) : SymbolsFit t := by
  obtain ⟨he, hl, -⟩ := bodyOf_frame hb
  have hs := h.symbols
  have same : t.params = s.params ∧ t.txt = s.txt ∧ t.ft = s.ft ∧ t.leaves = s.leaves ∧ t.out = s.out → SymbolsFit t :=
    fun ⟨k1, k2, k3, k4, k5⟩ => hs.congr k1 k2 k3 k4 fun x hx => .inl (k5 ▸ hx)
  cases i with
  | clr =>
    rw [he]
    exact ⟨fun x hx => (by cases hx), fun x hx => (by cases hx), fun x hx => (by cases hx), fun x hx => (by cases hx)⟩
  | sym x =>
    have hx : Symbol.Fits s.params.symW x := by simpa [Instr.WellFormed] using hw
    obtain ⟨-, -, hc⟩ := symBody_ok hb
    have htxt : ∀ y ∈ s.txt ++ [x], Symbol.Fits s.params.symW y := by
      intro y hy
      rcases List.mem_append.1 hy with hy | hy
      · exact hs.txt y hy
      · rw [List.mem_singleton.1 hy]; exact hx
    rcases hc with ⟨-, -, rfl⟩ | ⟨j, e, hj, hex, rfl⟩
    · refine ⟨htxt, ?_, hs.leaves, hs.out⟩
      intro q hq
      rcases List.mem_append.1 hq with hq | hq
      · exact hs.ft q hq
      · rw [List.mem_singleton.1 hq]; exact hx
    · refine ⟨htxt, ?_, hs.leaves, hs.out⟩
      intro q hq
      obtain ⟨k, hk, rfl⟩ := List.getElem_of_mem hq
      rw [List.getElem_modify]
      rw [List.length_modify] at hk
      split
      · show Symbol.Fits s.params.symW (s.ft[k]).sym
        exact hs.ft _ (List.getElem_mem hk)
      · exact hs.ft _ (List.getElem_mem hk)
  | mkleaf x =>
    have hx : Symbol.Fits s.params.symW x := by simpa [Instr.WellFormed] using hw
    simp only [bodyOf, mkleafBody] at hb
    obtain ⟨_, -, hb⟩ := bind_eq_ok.1 hb
    obtain ⟨_, -, hb⟩ := bind_eq_ok.1 hb
    obtain ⟨_, -, hb⟩ := bind_eq_ok.1 hb
    cases hb
    refine ⟨hs.txt, hs.ft, ?_, hs.out⟩
    intro q hq
    rcases List.mem_append.1 hq with hq | hq
    · exact hs.leaves q hq
    · rw [List.mem_singleton.1 hq]; exact hx
  | build =>
    by_cases h1 : (s.phase == .load && s.nleaf == 0 && s.nint == 0 && s.hsize == 0) = true
    · have h3 := h1
      simp only [Bool.and_eq_true, State.nleaf, State.nint, State.hsize] at h3
      obtain ⟨⟨⟨hp, hlv⟩, hin⟩, hq⟩ := h3
      have hleaves : ∀ q ∈ t.leaves, ∃ e ∈ s.ft, e.sym = q.sym := by
        rcases buildBody_spec h.structural (by simpa using hp) (nil_of_length_beq hlv) (nil_of_length_beq hin)
          (nil_of_length_beq hq) with ⟨-, e, -⟩ | ⟨a, ha, u, hu, e, -⟩ | ⟨-, u, hu, e, -⟩ <;>
          rw [bodyOf, e] at hb <;> cases hb
        · intro q hq'
          have : q ∈ s.leaves := hq'
          rw [nil_of_length_beq hlv] at this
          cases this
        · intro q hq'
          rw [hu] at hq'
          rw [List.mem_singleton.1 hq', ha]
          exact ⟨a, by simp, rfl⟩
        · intro q hq'
          rw [hu] at hq'
          obtain ⟨e, he', rfl⟩ := List.mem_map.1 hq'
          exact ⟨e, he', rfl⟩
      have hk : t.params = s.params ∧ t.txt = s.txt ∧ t.ft = s.ft ∧ t.out = s.out := by
        clear hb
        rw [he]
        exact ⟨rfl, rfl, rfl, rfl⟩
      obtain ⟨k1, k2, k3, k4⟩ := hk
      refine ⟨?_, ?_, ?_, ?_⟩ <;> rw [k1]
      · rw [k2]; exact hs.txt
      · rw [k3]; exact hs.ft
      · intro q hq'
        obtain ⟨e, he', hes⟩ := hleaves q hq'
        rw [← hes]
        exact hs.ft e he'
      · rw [k4]; exact hs.out
    · rw [Bool.not_eq_true] at h1
      have hreq : require (s.phase == .load && s.nleaf == 0 && s.nint == 0 && s.hsize == 0) .seq =
          .error (.raise .seq) := by rw [h1]; rfl
      simp only [bodyOf, buildBody, hreq, error_bind] at hb
      cases hb
  | decinit =>
    simp only [bodyOf, decinitBody] at hb
    obtain ⟨_, -, hb⟩ := bind_eq_ok.1 hb
    cases hb
    exact hs.congr rfl rfl rfl rfl fun x hx => (by cases hx)
  | decb b =>
    simp only [bodyOf, decbBody] at hb
    obtain ⟨_, -, hb⟩ := bind_eq_ok.1 hb
    have hd : decodeBits [b] s = .ok t := by rw [decodeBits_cons, hb]; rfl
    refine hs.congr (by rw [he]; rfl) (by rw [he]; rfl) (by rw [he]; rfl) (by rw [he]; rfl) (decodeBits_out [b] hd)
  | dec =>
    simp only [bodyOf, Sys2Proof.Machine.decBody] at hb
    obtain ⟨_, -, hb⟩ := bind_eq_ok.1 hb
    obtain ⟨u, hd, hb⟩ := bind_eq_ok.1 hb
    cases hb
    refine hs.congr (by rw [he]; rfl) (by rw [he]; rfl) (by rw [he]; rfl) (by rw [he]; rfl) fun x hx => ?_
    rcases decodeBits_out _ hd x hx with hx | hx
    · cases hx
    · exact .inr hx
  | nop | setw | pqins | pqext | merge | finish | gen | encinit | encs | enc =>
    exact same (by clear hb; rw [he]; exact ⟨rfl, rfl, rfl, rfl, rfl⟩)
  | rdreg | pqsize | lookup | rdclen | rdcode | rdbits | rdout | rdtxt | rdfsym | rdfcnt | rdnode | rdheap =>
    exact same (by clear hb; rw [he]; exact ⟨rfl, rfl, rfl, rfl, rfl⟩)

/-- The rule of a well-formed command that completes keeps every invariant. -/
theorem Inv.bodyOf (h : Inv s) {i : Instr} {r : Response} (hw : i.WellFormed s.params.symW = true)
    (hb : Sys2Proof.Machine.bodyOf i s = .ok (t, r)) : Inv t := by
  refine ⟨(h.structural.bodyOf i).2 t r hb, h.codeInv_bodyOf hb, h.bitsInv_bodyOf hb, h.symbolsFit_bodyOf hw hb, ?_⟩
  have he := (bodyOf_frame hb).1
  intro hf
  rw [written_finfo he]
  rw [written_fault he] at hf
  split
  · rfl
  · next hc =>
    rw [if_neg hc] at hf
    exact h.faultInfo hf

end Sys2Proof.Machine
end

