-- ==== Sys2Proof/Laws/Runs.lean ====
section
/-! SUPPORT. Commands one after another (30_encoding.md R92 to R95; 41_priority_queue.md R118). -/

namespace Sys2Proof.Machine

theorem execAll_cons {i : Instr} {s t : State} (h : exec i s = .next t) (is : List Instr) :
    execAll (i :: is) s = execAll is t := by
  simp only [execAll, h]

theorem execAll_append : ∀ (xs ys : List Instr) (s : State), execAll (xs ++ ys) s = (execAll xs s).bind (execAll ys)
  | [], _, _ => rfl
  | x :: xs, ys, s => by
    rw [List.cons_append]
    cases h : exec x s with
    | next t =>
      rw [execAll_cons h, execAll_cons h]
      exact execAll_append xs ys t
    | fault _ => simp only [execAll, h, Option.bind_none]
    | refused _ => simp only [execAll, h, Option.bind_none]

variable {s : State}

/-! ### The invariants along a run of commands -/

theorem Structural.exec (h : Structural s) {i : Instr} {t : State} (hx : Sys2Proof.Machine.exec i s = .next t) :
    Structural t := by
  rcases exec_next hx with ⟨-, -, rfl⟩ | ⟨-, u, r, hb, rfl⟩ | ⟨-, f, -, rfl⟩
  · exact h.of_sameCore rfl
  · exact ((h.bodyOf i).2 u r hb).of_sameCore rfl
  · exact h.of_sameCore rfl

theorem Structural.execAll : ∀ (is : List Instr) {s t : State}, Structural s →
    Sys2Proof.Machine.execAll is s = some t → Structural t
  | [], _, _, h, hx => by cases hx; exact h
  | i :: is, s, t, h, hx => by
    cases hi : Sys2Proof.Machine.exec i s with
    | next u =>
      rw [execAll_cons hi] at hx
      exact Structural.execAll is (h.exec hi) hx
    | fault _ => simp [Sys2Proof.Machine.execAll, hi] at hx
    | refused _ => simp [Sys2Proof.Machine.execAll, hi] at hx

/-- No invariant reads the ports. -/
theorem Inv.setPorts (h : Inv s) (input : List HostAction) (responses : List Response) :
    Inv { s with input := input, responses := responses } :=
  ⟨h.structural.of_sameCore rfl, h.code.congr rfl rfl rfl rfl rfl rfl, h.bits.congr rfl rfl,
    h.symbols.congr rfl rfl rfl rfl fun _ hx => .inl hx, h.faultInfo⟩

theorem Inv.raiseFault (h : Inv s) (w : Word) (f : FaultCode) : Inv (s.raiseFault w f) :=
  ⟨h.structural.of_sameCore rfl, h.code.congr rfl rfl rfl rfl rfl rfl, h.bits.congr rfl rfl,
    h.symbols.congr rfl rfl rfl rfl fun _ hx => .inl hx, fun hc => (by cases hc)⟩

theorem Inv.exec (h : Inv s) {i : Instr} {t : State} (hw : i.WellFormed s.params.symW = true)
    (hx : Sys2Proof.Machine.exec i s = .next t) : Inv t := by
  rcases exec_next hx with ⟨-, -, rfl⟩ | ⟨-, u, r, hb, rfl⟩ | ⟨-, f, -, rfl⟩
  · exact h.setPorts s.input _
  · exact (h.bodyOf hw hb).setPorts u.input _
  · exact h.raiseFault _ f

theorem exec_params {i : Instr} {t : State} (hx : Sys2Proof.Machine.exec i s = .next t) : t.params = s.params := by
  rcases exec_next hx with ⟨-, -, rfl⟩ | ⟨-, u, r, hb, rfl⟩ | ⟨-, f, -, rfl⟩
  · rfl
  · exact (written_params (bodyOf_frame hb).1 :)
  · rfl

theorem Inv.execAll : ∀ (is : List Instr) {s t : State}, Inv s → (∀ i ∈ is, i.WellFormed s.params.symW = true) →
    Sys2Proof.Machine.execAll is s = some t → Inv t
  | [], _, _, h, _, hx => by cases hx; exact h
  | i :: is, s, t, h, hw, hx => by
    cases hi : Sys2Proof.Machine.exec i s with
    | next u =>
      rw [execAll_cons hi] at hx
      refine Inv.execAll is (h.exec (hw i List.mem_cons_self) hi) (fun j hj => ?_) hx
      rw [exec_params hi]
      exact hw j (List.mem_cons_of_mem _ hj)
    | fault _ => simp [Sys2Proof.Machine.execAll, hi] at hx
    | refused _ => simp [Sys2Proof.Machine.execAll, hi] at hx

/-! ### Single commands, and the paths from the root -/

/-- A node index fits an operand of `PQINS` (00_scope.md R11; 30_encoding.md R82). -/
theorem toNat_ofNat_of_allocated (hp : s.params.Legal) (hm : Memory.wf s) {n : Nat} (ha : s.allocated n = true) :
    (BitVec.ofNat 24 n).toNat = n := by
  rw [allocated_iff] at ha
  have h1 := hp.2.1.2
  have h2 := hm.2.2.1
  have h3 := hm.2.2.2.1
  rw [BitVec.toNat_ofNat]
  exact Nat.mod_eq_of_lt (by omega)

theorem exec_pqins (h : Structural s) (hf : s.fault = none) (hl : s.phase = .load) {n : Nat}
    (ha : s.allocated n = true) (hp : s.hasParent n = false) (hq : n ∉ s.heap) :
    exec (.pqins (BitVec.ofNat 24 n)) s =
      .next ((s.setHeap (heapInsert s.weigh s.heap n)).respond (okData (natData (s.hsize + 1)))) := by
  have hn := toNat_ofNat_of_allocated h.params h.memory ha
  have e := pqInsert_eq_ok (h.queue_room hl ha hp hq) fun m hm => by
    rcases List.mem_cons.1 hm with rfl | hm
    exacts [h.hasRecord ha, h.queue_hasRecord m hm]
  have hq' := inQueue_eq_false.2 hq
  refine exec_of_body_ok hf ?_
  have hr : require (s.phase == .load) .seq = .ok () := by rw [hl]; rfl
  have hr' : require (s.allocated n && !s.inQueue n && !s.hasParent n) .node = .ok () := by rw [ha, hp, hq']; rfl
  have hz : State.hsize { s with heap := heapInsert s.weigh s.heap n } = s.hsize + 1 := heapInsert_length _ _ _
  simp only [bodyOf, hn, pqinsBody, hr, hr', e, ok_bind, hz]
  rfl

theorem exec_pqext (h : Structural s) (hf : s.fault = none) (hl : s.phase = .load) {m : Nat}
    (hm : s.heap.head? = some m) :
    exec .pqext s = .next ((s.setHeap (heapRemove s.weigh s.heap)).respond (okData (natData m))) := by
  have e := pqExtract_eq_ok hm h.queue_hasRecord
  have hz : s.hsize ≠ 0 := by
    intro hc
    have : s.heap = [] := List.eq_nil_of_length_eq_zero hc
    simp [this] at hm
  refine exec_of_body_ok hf ?_
  have hr : require (s.phase == .load) .seq = .ok () := by rw [hl]; rfl
  simp only [bodyOf, pqextBody, hr, e, ok_bind, if_neg hz]
  rfl

theorem exec_merge (h : Structural s) (hf : s.fault = none) (hl : s.phase = .load) (h2 : 2 ≤ s.hsize)
    (hw : s.queuedWeight < 2 ^ 32) :
    ∃ a b, mergeStep s = .ok (s.params.maxSyms + s.nint, s.merged a b) ∧ Structural (s.merged a b) ∧
      (s.merged a b).queuedWeight = s.queuedWeight ∧
      exec .merge s = .next ((s.merged a b).respond (okData (natData (s.params.maxSyms + s.nint)))) := by
  obtain ⟨a, b, e, h1, h3⟩ := h.mergeStep hl h2 hw
  refine ⟨a, b, e, h1, h3, exec_of_body_ok hf ?_⟩
  have hr : require (decide (2 ≤ s.hsize)) .pq = .ok () := by rw [decide_eq_true h2]; rfl
  have hr' : require (s.phase == .load) .seq = .ok () := by rw [hl]; rfl
  simp only [bodyOf, mergeBody, hr', hr, e, ok_bind]

/-- When the root is the only node without parent, a path leads from it to every node (10_state.md R41). -/
theorem TreeInv.follow_all (h : TreeInv s) (hl : s.nleaf ≤ s.params.maxSyms) {n : Nat}
    (hone : ∀ m, s.allocated m = true → s.hasParent m = false → m = n) :
    ∀ (k m : Nat), s.allocated m = true → s.nint < s.rank m + k → ∃ p, s.follow n p = some m
  | 0, m, ha, hk => by
    have := rank_le_nint hl ha
    omega
  | k + 1, m, ha, hk => by
    cases hp : s.hasParent m with
    | false => exact ⟨[], by rw [hone m ha hp]; rfl⟩
    | true =>
      obtain ⟨r, hr, hc⟩ := hasParent_iff.1 hp
      obtain ⟨j, hj, rfl⟩ := List.getElem_of_mem hr
      obtain ⟨b, hb⟩ := exists_child_of_mem_children hc
      have hget := List.getElem?_eq_getElem hj
      have hat : s.innerAt (s.params.maxSyms + j) = some s.inners[j] :=
        innerAt_eq_some.2 ⟨by omega, by simp [hget]⟩
      have hch : s.childAt (s.params.maxSyms + j) b = some m := childAt_eq_some.2 ⟨_, hat, hb⟩
      have hrk := h.rank_child hch
      obtain ⟨p, hf⟩ := TreeInv.follow_all h hl hone k (s.params.maxSyms + j)
        (allocated_iff.2 (.inr ⟨by omega, by unfold State.nint; omega⟩)) (by omega)
      refine ⟨p ++ [b], ?_⟩
      rw [follow_append, hf]
      simp [hch]

/-- Counting makes the root the only node without parent. -/
theorem TreeInv.parentless_unique (h : TreeInv s) {n m : Nat} (hn : s.allocated n = true) (hm : s.allocated m = true)
    (hpn : s.hasParent n = false) (hpm : s.hasParent m = false)
    (hc : s.nleaf + s.nint ≤ (s.inners.flatMap InnerNode.children).length + 1) : m = n := by
  by_contra hne
  have := h.count (l := [m, n]) (by simpa using hne) (by simp [hn, hm]) (by simp [hpn, hpm])
  simp only [List.length_cons, List.length_nil] at this
  omega

end Sys2Proof.Machine
end

