-- ==== Sys2Proof/Laws/Sift.lean ====
section
/-! SUPPORT. The bounded loops of the queue run to the end that the rules state: no bound is ever exhausted (log 10). -/

namespace Sys2Proof.Machine

theorem siftUp_siftsUp {w : Nat → Nat} : ∀ fuel h i, i ≤ fuel → SiftsUp w h i (siftUp w fuel h i)
  | 0, _, i, hi => .stop fun h0 => absurd hi (by omega)
  | fuel + 1, h, i, hi => by
    unfold siftUp
    split
    · next hc =>
      have := parentSlot_lt hc.1
      exact .swap hc.1 hc.2 (siftUp_siftsUp fuel _ _ (by omega))
    · next hc => exact .stop fun h0 => Nat.le_of_not_lt fun hlt => hc ⟨h0, hlt⟩

/-- One round of the loop of 41_priority_queue.md R114, by the child it takes. -/
theorem smallestSlot_cases (w : Nat → Nat) (h : List Nat) (i : Nat) :
    (smallestSlot w h i = i ∧ (leftSlot i < h.length → w (slot h i) ≤ w (slot h (leftSlot i))) ∧
        (rightSlot i < h.length → w (slot h i) ≤ w (slot h (rightSlot i)))) ∨
      (smallestSlot w h i = leftSlot i ∧ leftSlot i < h.length ∧ w (slot h (leftSlot i)) < w (slot h i) ∧
        (rightSlot i < h.length → w (slot h (leftSlot i)) ≤ w (slot h (rightSlot i)))) ∨
      (smallestSlot w h i = rightSlot i ∧ rightSlot i < h.length ∧ w (slot h (rightSlot i)) < w (slot h i) ∧
        w (slot h (rightSlot i)) < w (slot h (leftSlot i))) := by
  have hlr : leftSlot i < rightSlot i := by unfold leftSlot rightSlot; omega
  unfold smallestSlot
  rcases smallerSlot_spec w h (leftSlot i) i with ⟨e, hl⟩ | ⟨e, hl, hlt⟩ <;> rw [e]
  · rcases smallerSlot_spec w h (rightSlot i) i with ⟨e', hr⟩ | ⟨e', hr, hlt'⟩ <;> rw [e']
    · exact .inl ⟨rfl, hl, hr⟩
    · exact .inr (.inr ⟨rfl, hr, hlt', hlt'.trans_le (hl (by omega))⟩)
  · rcases smallerSlot_spec w h (rightSlot i) (leftSlot i) with ⟨e', hr⟩ | ⟨e', hr, hlt'⟩ <;> rw [e']
    · exact .inr (.inl ⟨rfl, hl, hlt, hr⟩)
    · exact .inr (.inr ⟨rfl, hr, hlt'.trans hlt, hlt'⟩)

theorem siftDown_siftsDown {w : Nat → Nat} :
    ∀ fuel h i, h.length ≤ i + fuel → SiftsDown w h i (siftDown w fuel h i)
  | 0, h, i, hi => .stop (fun hl => by unfold leftSlot at hl; omega) (fun hr => by unfold rightSlot at hr; omega)
  | fuel + 1, h, i, hi => by
    have hil : i < leftSlot i := by unfold leftSlot; omega
    have hir : i < rightSlot i := by unfold rightSlot; omega
    have len : ∀ j, (swapSlots h i j).length = h.length := fun j => swapSlots_length h i j
    unfold siftDown
    rcases smallestSlot_cases w h i with ⟨e, hl, hr⟩ | ⟨e, hl, hlt, hle⟩ | ⟨e, hr, hlt, hlt'⟩ <;> rw [e]
    · rw [if_pos rfl]
      exact .stop hl hr
    · rw [if_neg (by omega)]
      exact .left hl hlt hle (siftDown_siftsDown fuel _ _ (by rw [len]; omega))
    · rw [if_neg (by omega)]
      exact .right hr hlt hlt' (siftDown_siftsDown fuel _ _ (by rw [len]; omega))

theorem heapInsert_inserts (w : Nat → Nat) (h : List Nat) (n : Nat) : Inserts w h n (heapInsert w h n) :=
  siftUp_siftsUp _ _ _ (Nat.le_refl _)

theorem heapRemove_extracts (w : Nat → Nat) (h : List Nat) : Extracts w h (heapRemove w h) :=
  siftDown_siftsDown _ _ _ (by simp)

/-- The heap invariant of the state is the heap order of the array (10_state.md R39). -/
theorem heapInv_iff {s : State} : HeapInv s ↔ IsHeap s.weigh s.heap := Iff.rfl

end Sys2Proof.Machine
end

