-- ==== Sys2Proof/Tests/Slice0.lean ====
section
/-! SUPPORT. The model's own tests: what `WellFormed` refuses, words written out from the spec's encodings, one step
of each command with the result its rule or its example gives, and for each statement states that meet its
hypotheses. -/

namespace Sys2Proof.Tests

open Sys2Proof.Machine

/- Each kernel evaluation waits for the theorems before it, so they are elaborated one after another. -/
set_option Elab.async false

/-! ### Well-formed commands (30_encoding.md R81, R86): each check refuses an ill-formed term -/

theorem test_wellFormed_refuses_wide_symbols :
    (Instr.sym 0x200000#24).WellFormed 21 = false ∧ (Instr.mkleaf 0x200000#24).WellFormed 21 = false ∧
      (Instr.lookup 0x800000#24).WellFormed 21 = false ∧ (Instr.encs 0x200000#24).WellFormed 21 = false ∧
      (Instr.sym 0x100#24).WellFormed 8 = false := by decide

theorem test_wellFormed_takes_every_fitting_symbol :
    (Instr.sym 0x1FFFFF#24).WellFormed 21 = true ∧ (Instr.mkleaf 0#24).WellFormed 1 = true ∧
      (Instr.lookup 0xFFFFFF#24).WellFormed 24 = true ∧ (Instr.encs 0xFF#24).WellFormed 8 = true := by decide

/-! ### Decoding: the word of every command, `opcode << 24 | arg` written out from 30_encoding.md R80 to R83 -/

/-- Format Z: the eight opcode bits and 24 zeros. -/
theorem test_decode_formatZ :
    [0b00000000000000000000000000000000#32, 0b00000001000000000000000000000000#32,
      0b00100001000000000000000000000000#32, 0b00100010000000000000000000000000#32,
      0b00110000000000000000000000000000#32, 0b00110001000000000000000000000000#32,
      0b00110010000000000000000000000000#32, 0b01000000000000000000000000000000#32,
      0b01010000000000000000000000000000#32, 0b01010010000000000000000000000000#32,
      0b01100000000000000000000000000000#32, 0b01100001000000000000000000000000#32].map (decode 21) =
    [.ok .nop, .ok .clr, .ok .pqext, .ok .pqsize, .ok .build, .ok .merge, .ok .finish, .ok .gen, .ok .enc,
      .ok .encinit, .ok .dec, .ok .decinit] := by decide

/-- Format S: `arg[20:0]` is the symbol at `SYM_W = 21`; the symbol here is `'c'`, 0x63. -/
theorem test_decode_formatS :
    [0b00010000000000000000000001100011#32, 0b00010010000000000000000001100011#32,
      0b01000001000000000000000001100011#32, 0b01010001000000000000000001100011#32].map (decode 21) =
    [.ok (.sym 0x63#24), .ok (.mkleaf 0x63#24), .ok (.lookup 0x63#24), .ok (.encs 0x63#24)] := by decide

/-- Format I: the whole field is one number, here with its highest and its lowest bit set. -/
theorem test_decode_formatI :
    [0b00000010100000000000000000000001#32, 0b00010001100000000000000000000001#32,
      0b00100000100000000000000000000001#32, 0b01000010100000000000000000000001#32,
      0b01010011100000000000000000000001#32, 0b01100011100000000000000000000001#32,
      0b01110000100000000000000000000001#32, 0b01110001100000000000000000000001#32,
      0b01110010100000000000000000000001#32, 0b01110100100000000000000000000001#32].map (decode 21) =
    [.ok (.rdreg 0x800001#24), .ok (.setw 0x800001#24), .ok (.pqins 0x800001#24), .ok (.rdclen 0x800001#24),
      .ok (.rdbits 0x800001#24), .ok (.rdout 0x800001#24), .ok (.rdtxt 0x800001#24), .ok (.rdfsym 0x800001#24),
      .ok (.rdfcnt 0x800001#24), .ok (.rdheap 0x800001#24)] := by decide

/-- Formats CW, NF and B: `RDCODE 3, 1`, `RDNODE 8, 2`, `DECB 0`, `DECB 1`. -/
theorem test_decode_formatCW_NF_B :
    [0b01000011000000000001000000000011#32, 0b01110011000000100000000000001000#32,
      0b01100010000000000000000000000000#32, 0b01100010000000000000000000000001#32].map (decode 21) =
    [.ok (.rdcode 3#12 1#12), .ok (.rdnode 8#16 2#3), .ok (.decb false), .ok (.decb true)] := by decide

/-- A must-be-zero bit set, or an opcode that is none of the 29 (30_encoding.md R86). -/
theorem test_decode_illegal :
    [0x00000001#32, 0x22000001#32, 0x62000002#32, 0x73080000#32, 0x10200000#32, 0x41200000#32].map (decode 21) =
      [.error (.mustBeZero 1#24), .error (.mustBeZero 1#24), .error (.mustBeZero 2#24),
        .error (.mustBeZero 0x080000#24), .error (.mustBeZero 0x200000#24), .error (.mustBeZero 0x200000#24)] ∧
    [0x03000000#32, 0x0F000000#32, 0x75000000#32, 0xFFFFFFFF#32].map (decode 21) =
      [.error (.unassignedOpcode 0x03#8), .error (.unassignedOpcode 0x0F#8), .error (.unassignedOpcode 0x75#8),
        .error (.unassignedOpcode 0xFF#8)] := by decide

theorem test_decodeTableWord :
    decodeTableWord 32 0x43001003 = some (.rdcode 3#12 1#12) ∧ decodeTableWord 32 0x75000000 = none := by decide

/-! ### States of the spec's examples -/

/-- Reset of the default hardware. -/
abbrev fresh : State := State.reset

/-- Text `"ab"` loaded: 40_load_frequency.md R100. -/
def ab : State := { fresh with txt := [0x61#24, 0x62#24], ft := [⟨0x61#24, 1#32⟩, ⟨0x62#24, 1#32⟩] }

/-- The tree of `"ab"`: 42_tree_builder.md R130. -/
def abTree : State := { ab with
  leaves := [⟨0x61#24, 1#32⟩, ⟨0x62#24, 1#32⟩]
  inners := [⟨2#32, 0, some 1⟩]
  root := some 256
  cur := some 256
  phase := .tree }

/-- The codes of `"ab"`: 43_code_table.md R150. -/
def abCode : State := { abTree with
  code := [false] :: [true] :: List.replicate 254 []
  phase := .code }

/-- Leaves 0 and 1 with weights 5 and 3, the queue as given: 41_priority_queue.md R110. -/
def two (heap : List Nat) : State := { fresh with
  leaves := [⟨0x61#24, 5#32⟩, ⟨0x62#24, 3#32⟩]
  heap := heap }

/-- `"abracadabra"` encoded: 43_code_table.md R155, 44_encoder.md R177 give its codes and its bits. -/
def abra : State := { fresh with
  phase := .code
  ft := [⟨0x61#24, 5#32⟩, ⟨0x62#24, 2#32⟩, ⟨0x72#24, 2#32⟩, ⟨0x63#24, 1#32⟩, ⟨0x64#24, 1#32⟩]
  leaves := [⟨0x61#24, 5#32⟩, ⟨0x62#24, 2#32⟩, ⟨0x72#24, 2#32⟩, ⟨0x63#24, 1#32⟩, ⟨0x64#24, 1#32⟩]
  inners := [⟨2#32, 3, some 4⟩, ⟨4#32, 1, some 256⟩, ⟨6#32, 2, some 257⟩, ⟨11#32, 0, some 258⟩]
  root := some 259
  cur := some 259
  code := [false] :: [true, true, false] :: [true, false] :: [true, true, true, false] ::
    [true, true, true, true] :: List.replicate 251 []
  bits := [false, true, true, false, true, false, false, true, true, true, false, false, true, true, true, true,
    false, true, true, false, true, false, false] }

/-- The text `"aaaa"` encoded, whose tree is a wrapper: 44_encoder.md R175, 46_result_readout.md R217. -/
def aaaa : State := { fresh with
  phase := .code
  txt := List.replicate 4 0x61#24
  ft := [⟨0x61#24, 4#32⟩]
  leaves := [⟨0x61#24, 4#32⟩]
  inners := [⟨4#32, 0, none⟩]
  root := some 256
  cur := some 256
  code := [false] :: List.replicate 255 []
  bits := [false, false, false, false] }

/-- The next state an outcome gives, if it gives one. -/
def ran : Host.Outcome State Fault Refusal → Option State
  | .next t => some t
  | .fault _ => none
  | .refused _ => none

/-- The answer of a command: its status and its data. -/
def answer (i : Instr) (s : State) : Option Response := (ran (exec i s)).bind fun t => t.responses.head?

/-- The state after a command, without the response. -/
def after (i : Instr) (s : State) : Option State := (ran (exec i s)).map fun t => { t with responses := [] }

/-! ### One step of each command -/

theorem test_step_fetches_the_word :
    ran (step (State.reset.withFetchWord 32 0x10000061)) =
      some { fresh with txt := [0x61#24], ft := [⟨0x61#24, 1#32⟩], responses := [okData 0#32] } := by decide +kernel

theorem test_step_illegal :
    ran (step (State.reset.withFetchWord 32 0x22000001)) =
      some { fresh with
        fault := some .illcmd, finfo := 0x22000001#32, responses := [⟨.fault, 1#32⟩] } := by decide +kernel

theorem test_nop : ran (exec .nop abCode) = some { abCode with responses := [okData 0#32] } := by decide +kernel

theorem test_clr : after .clr { abCode with fault := some .nosym, finfo := 0x5100007A#32, wreg := 7#32 } = some fresh := by
  decide +kernel

/-- 46_result_readout.md R212: after reset register 0 is 0x48, register 20 the identifier, register 21 nothing. -/
theorem test_rdreg :
    answer (.rdreg 0#24) fresh = some (okData 0x48#32) ∧ answer (.rdreg 20#24) fresh = some (okData 0x48430001#32) ∧
      answer (.rdreg 21#24) fresh = some noneData := by decide +kernel

theorem test_sym_second_time :
    after (.sym 0x61#24) { fresh with txt := [0x61#24], ft := [⟨0x61#24, 1#32⟩] } =
      some { fresh with txt := [0x61#24, 0x61#24], ft := [⟨0x61#24, 2#32⟩] } := by decide +kernel

theorem test_sym_new :
    after (.sym 0x62#24) { fresh with txt := [0x61#24], ft := [⟨0x61#24, 1#32⟩] } = some ab ∧
      answer (.sym 0x62#24) { fresh with txt := [0x61#24], ft := [⟨0x61#24, 1#32⟩] } = some (okData 1#32) := by
  decide +kernel

/-- `SETW` runs in every phase and takes the largest operand (40_load_frequency.md R102). -/
theorem test_setw : ran (exec (.setw 0xFFFFFF#24) abCode) =
    some { abCode with wreg := 0x00FFFFFF#32, responses := [okData 0x00FFFFFF#32] } := by decide +kernel

theorem test_mkleaf :
    ran (exec (.mkleaf 0x78#24) { fresh with wreg := 3#32 }) =
      some { fresh with wreg := 3#32, leaves := [⟨0x78#24, 3#32⟩], responses := [okData 0#32] } := by decide +kernel

theorem test_mkleaf_again :
    answer (.mkleaf 0x78#24) { fresh with leaves := [⟨0x78#24, 3#32⟩] } = some ⟨.fault, 5#32⟩ := by decide +kernel

/-- 41_priority_queue.md R110: weight 3 is sifted above weight 5. -/
theorem test_pqins : ran (exec (.pqins 1#24) (two [0])) = some { two [1, 0] with responses := [okData 2#32] } := by
  decide +kernel

theorem test_pqins_unallocated : answer (.pqins 2#24) (two [0]) = some ⟨.fault, 4#32⟩ := by decide +kernel

theorem test_pqext : ran (exec .pqext (two [1, 0])) = some { two [0] with responses := [okData 1#32] } := by decide +kernel

/-- 41_priority_queue.md R117: of three equal weights slot 2 moves to the root. -/
theorem test_pqext_ties :
    (after .pqext { fresh with
      leaves := [⟨1#24, 1#32⟩, ⟨2#24, 1#32⟩, ⟨3#24, 1#32⟩], heap := [0, 1, 2] }).map (·.heap) = some [2, 1] := by
  decide +kernel

theorem test_pqsize : answer .pqsize (two [1, 0]) = some (okData 2#32) := by decide +kernel

theorem test_build : ran (exec .build ab) = some { abTree with responses := [okData 256#32] } := by decide +kernel

theorem test_build_empty :
    ran (exec .build fresh) = some { fresh with phase := .tree, responses := [noneData] } := by decide +kernel

/-- 42_tree_builder.md R134: leaves 0, 1, 2 with weights 5, 3, 8. -/
theorem test_merge :
    ran (exec .merge { fresh with
      leaves := [⟨1#24, 5#32⟩, ⟨2#24, 3#32⟩, ⟨3#24, 8#32⟩], heap := [1, 0, 2] }) =
    some { fresh with
      leaves := [⟨1#24, 5#32⟩, ⟨2#24, 3#32⟩, ⟨3#24, 8#32⟩], inners := [⟨8#32, 1, some 0⟩], heap := [2, 256],
      responses := [okData 256#32] } := by decide +kernel

/-- 42_tree_builder.md R131: a sum of 2^32 is refused, not reduced. -/
theorem test_merge_overflow :
    answer .merge { fresh with leaves := [⟨1#24, 0xFFFFFFFF#32⟩, ⟨2#24, 1#32⟩], heap := [1, 0] } =
      some ⟨.fault, 9#32⟩ := by decide +kernel

/-- 42_tree_builder.md R137: a last leaf of weight 3 is wrapped. -/
theorem test_finish :
    ran (exec .finish { fresh with leaves := [⟨0x78#24, 3#32⟩], heap := [0] }) =
      some { fresh with
        leaves := [⟨0x78#24, 3#32⟩], inners := [⟨3#32, 0, none⟩], root := some 256, cur := some 256, phase := .tree,
        responses := [okData 256#32] } := by decide +kernel

theorem test_gen : ran (exec .gen abTree) = some { abCode with responses := [okData 2#32] } := by decide +kernel

theorem test_gen_phase : answer .gen ab = some ⟨.fault, 2#32⟩ := by decide +kernel

theorem test_lookup :
    answer (.lookup 0x62#24) abCode = some (okData 1#32) ∧ answer (.lookup 0x63#24) abCode = some noneData := by
  decide +kernel

theorem test_rdclen : answer (.rdclen 3#24) abra = some (okData 4#32) := by decide +kernel

theorem test_rdcode :
    answer (.rdcode 3#12 0#12) abra = some (okData 0x00000007#32) ∧ answer (.rdcode 3#12 1#12) abra = some noneData := by
  decide +kernel

theorem test_enc :
    ran (exec .enc { aaaa with bits := [true] }) = some { aaaa with responses := [okData 4#32] } := by decide +kernel

theorem test_encs :
    ran (exec (.encs 0x63#24) { abra with bits := [] }) =
      some { abra with bits := [true, true, true, false], responses := [okData 4#32] } := by decide +kernel

theorem test_encs_noCode : answer (.encs 0x7A#24) abra = some ⟨.fault, 7#32⟩ := by decide +kernel

theorem test_encinit : after .encinit abra = some { abra with bits := [] } := by decide +kernel

theorem test_rdbits : answer (.rdbits 0#24) abra = some (okData 0x0016F396#32) := by decide +kernel

theorem test_dec :
    ran (exec .dec aaaa) = some { aaaa with out := List.replicate 4 0x61#24, responses := [okData 4#32] } := by
  decide +kernel

theorem test_decinit :
    after .decinit { abra with cur := some 258, out := [0x61#24] } = some abra := by decide +kernel

/-- 45_decoder.md R193: bit 1 goes to the root's right child, bit 0 then reaches `'r'`. -/
theorem test_decb :
    ran (exec (.decb true) abra) = some { abra with cur := some 258, responses := [noneData] } ∧
      ran (exec (.decb false) { abra with cur := some 258 }) =
        some { abra with out := [0x72#24], responses := [okData 0x72#32] } := by decide +kernel

/-- 45_decoder.md R196: the wrapper has no right child. -/
theorem test_decb_noChild : answer (.decb true) aaaa = some ⟨.fault, 8#32⟩ := by decide +kernel

theorem test_rdout :
    answer (.rdout 1#24) { abCode with out := [0x61#24, 0x62#24] } = some (okData 0x62#32) ∧
      answer (.rdout 2#24) { abCode with out := [0x61#24, 0x62#24] } = some noneData := by decide +kernel

theorem test_rdtxt : answer (.rdtxt 1#24) ab = some (okData 0x62#32) := by decide +kernel

theorem test_rdfsym : answer (.rdfsym 2#24) abra = some (okData 0x72#32) := by decide +kernel

theorem test_rdfcnt : answer (.rdfcnt 0#24) abra = some (okData 5#32) := by decide +kernel

theorem test_rdnode :
    answer (.rdnode 256#16 2#3) aaaa = some (okData 4#32) ∧ answer (.rdnode 256#16 3#3) aaaa = some (okData 0#32) ∧
      answer (.rdnode 256#16 4#3) aaaa = some noneData ∧ answer (.rdnode 0#16 1#3) aaaa = some (okData 0x61#32) := by
  decide +kernel

theorem test_rdheap :
    answer (.rdheap 0#24) (two [1, 0]) = some (okData 1#32) ∧ answer (.rdheap 2#24) (two [1, 0]) = some noneData := by
  decide +kernel

/-- While faulted a command that is not read-class is refused and a read-class one executes (60_exceptions.md R248). -/
theorem test_refused :
    answer (.decb false) { aaaa with fault := some .nochild } = some ⟨.refused, 8#32⟩ ∧
      answer (.rdtxt 0#24) { aaaa with fault := some .nochild } = some (okData 0x61#32) := by decide +kernel

/-! ### Witnesses: for each statement that has hypotheses, states that meet them, clause by clause -/

/-- Hardware small enough to be full: `S = 2`, `L = 3`, `B = 4`. -/
def tiny : Params := ⟨8, 2, 3, 4⟩

/-- Reset of the small hardware. -/
def start : State := State.resetOf tiny

/-- The state after commands from that reset. -/
def session (is : List Instr) : State := (execAll is start).getD start

theorem witness_params_legal : tiny.Legal ∧ Params.default.Legal := by decide

theorem witness_inv_start : Inv start := by
  refine ⟨structural_resetOf witness_params_legal.1, codeInv_of_phase (by decide), bitsInv_nil rfl, ⟨?_, ?_, ?_, ?_⟩,
    fun _ => rfl⟩ <;> simp [start, State.resetOf]

/-- A bounded universal checked element by element. -/
theorem forall_mem_of_all {α : Type} {l : List α} {p : α → Prop} [DecidablePred p] (h : l.all (p ·) = true) :
    ∀ x ∈ l, p x := by simpa using h

theorem witness_inv_session {is : List Instr} (hw : ∀ i ∈ is, i.WellFormed tiny.symW = true)
    (h : (execAll is start).isSome = true) : Inv (session is) := by
  obtain ⟨t, ht⟩ := Option.isSome_iff_exists.1 h
  have e : session is = t := by rw [session, ht]; rfl
  rw [e]
  exact witness_inv_start.execAll is hw ht

/-- `"ab"` loaded. -/
def loaded : State := session [.sym 0x61#24, .sym 0x62#24]
/-- `"ab"`, its tree built. -/
def built : State := session [.sym 0x61#24, .sym 0x62#24, .build]
/-- `"ab"`, its codes generated. -/
def coded : State := session [.sym 0x61#24, .sym 0x62#24, .build, .gen]
/-- Four codes in the bitstream, one more than `OUT` can take. -/
def brimful : State := session [.sym 0x61#24, .sym 0x62#24, .build, .gen, .encs 0x61#24, .encs 0x62#24,
  .encs 0x61#24, .encs 0x62#24]
/-- `"a"`: the tree is a wrapper. -/
def single : State := session [.sym 0x61#24, .build]
/-- The empty text's tree: `ROOT = NIL`. -/
def rootless : State := session [.build]
/-- Two loose leaves of weights 5 and 3. -/
def loose : State := session [.setw 5#24, .mkleaf 0x61#24, .setw 3#24, .mkleaf 0x62#24]
/-- The two leaves queued. -/
def queued : State := session [.setw 5#24, .mkleaf 0x61#24, .setw 3#24, .mkleaf 0x62#24, .pqins 0#24, .pqins 1#24]
/-- Their merge, the only node queued. -/
def merged : State := session [.setw 5#24, .mkleaf 0x61#24, .setw 3#24, .mkleaf 0x62#24, .pqins 0#24, .pqins 1#24,
  .merge]
/-- A state that faulted with `F_SEQ`. -/
def faulted : State := session [.gen]

theorem witness_inv_sessions : Inv loaded ∧ Inv built ∧ Inv coded ∧ Inv brimful ∧ Inv single ∧ Inv rootless ∧
    Inv loose ∧ Inv queued ∧ Inv merged ∧ Inv faulted :=
  ⟨witness_inv_session (by decide) (by decide +kernel), witness_inv_session (by decide) (by decide +kernel),
    witness_inv_session (by decide) (by decide +kernel), witness_inv_session (by decide) (by decide +kernel),
    witness_inv_session (by decide) (by decide +kernel), witness_inv_session (by decide) (by decide +kernel),
    witness_inv_session (by decide) (by decide +kernel), witness_inv_session (by decide) (by decide +kernel),
    witness_inv_session (by decide) (by decide +kernel), witness_inv_session (by decide) (by decide +kernel)⟩

theorem witness_DecodeOfEncode : (Instr.sym 0x1FFFFF#24).WellFormed 21 = true ∧
    (Instr.encs 0xFFFFFF#24).WellFormed 24 = true ∧ (Instr.lookup 1#24).WellFormed 1 = true := by decide

theorem witness_EncodeOfDecode : decode 21 0x101FFFFF#32 = .ok (.sym 0x1FFFFF#24) ∧
    decode 21 0x7307FFFF#32 = .ok (.rdnode 0xFFFF#16 7#3) := by decide

theorem witness_LegalWordsAreTheRowsOfTheMap : decode 24 0x10FFFFFF#32 = .ok (.sym 0xFFFFFF#24) ∧
    ∃ row ∈ opcodeRows 24, 0x10FFFFFF#32 &&& row.mask = row.fixedBits := by
  refine ⟨by decide, ⟨0x10000000#32, maskS 24⟩, by simp [opcodeRows], by decide⟩

theorem witness_StepRunsTheDecodedCommand :
    (start.withFetchWord 32 0x100000FF).input = .command 0x100000FF#32 :: [] ∧
      decode (start.withFetchWord 32 0x100000FF).params.symW 0x100000FF#32 = .ok (.sym 0xFF#24) := by decide +kernel

theorem witness_IllegalWordFaultsOrIsRefused :
    (start.withFetchWord 32 0x10000100).input = .command 0x10000100#32 :: [] ∧
      decode start.params.symW 0x10000100#32 = .error (.mustBeZero 0x100#24) ∧ start.fault = none ∧
      faulted.fault = some .seq := by decide +kernel

theorem witness_ResetActionAndSilence : { built with input := [.reset] }.input = .reset :: [] ∧ built.input = [] := by
  decide +kernel

/-- A command answered `OK`, one answered `NONE`, one answered `FAULT` and one answered `REFUSED`. -/
theorem witness_EveryCommandIsAnsweredOnce :
    ((ran (step (start.withFetchWord 32 0x10000061))).bind (·.rspStatus)) = some 0#2 ∧
      ((ran (step (start.withFetchWord 32 0x21000000))).bind (·.rspStatus)) = some 1#2 ∧
      ((ran (step (start.withFetchWord 32 0x40000000))).bind (·.rspStatus)) = some 2#2 ∧
      ((ran (step (faulted.withFetchWord 32 0x40000000))).bind (·.rspStatus)) = some 3#2 := by decide +kernel

theorem witness_FaultEntryIsPrecise : start.fault = none ∧
    (ran (exec .gen start)).bind (·.fault) = some .seq ∧ (ran (exec .merge start)).bind (·.fault) = some .pq := by
  decide +kernel

theorem witness_FaultedCoreRefuses : faulted.fault = some .seq ∧ readClass .build = false := by decide +kernel

/-- A step that keeps the fault, the word of `CLR`, and a reset. -/
theorem witness_FirstFaultIsKept : faulted.fault = some .seq ∧
    (ran (step (faulted.withFetchWord 32 0x30000000))).bind (·.fault) = some .seq ∧
    ((ran (step (faulted.withFetchWord 32 0x01000000))).map (·.fault)) = some none ∧
    ((ran (step { faulted with input := [.reset] })).map (·.fault)) = some none := by decide +kernel

theorem witness_PhaseTableIsEnforced : start.fault = none ∧ legalIn .gen start.phase = false ∧ loose.leaves ≠ [] ∧
    (ran (exec .gen start)).bind (·.fault) = some .seq ∧ ((ran (exec .gen built)).map (·.fault)) = some none := by
  decide +kernel

theorem witness_ReadCommandsChangeNothing : readClass (.rdheap 0#24) = true ∧ readClass .pqsize = true := by decide

theorem witness_RdregAnswersByNumber : (20#24).toNat = 20 ∧ 21 ≤ (21#24).toNat ∧
    ([(20, 0x48430001#32)] : List (Nat × Word)).lookup (20#24).toNat = some 0x48430001#32 := by decide

/-- The last valid element and the first number beyond it, of each memory. -/
theorem witness_ElementReadsAnswer :
    loaded.txt[1]? = some 0x62#24 ∧ loaded.tlen ≤ 2 ∧ loaded.ft[1]? = some ⟨0x62#24, 1#32⟩ ∧ loaded.nsym ≤ 2 ∧
      queued.heap[1]? = some 0 ∧ queued.hsize ≤ 2 ∧ { coded with out := [0x61#24] }.out[0]? = some 0x61#24 ∧
      State.olen { coded with out := [0x61#24] } ≤ 1 := by decide +kernel

theorem witness_RdnodeAnswersFields :
    built.allocated 3 = false ∧ 4 < (5#3).toNat ∧ built.leafAt 1 = some ⟨0x62#24, 1#32⟩ ∧
      built.innerAt 2 = some ⟨2#32, 0, some 1⟩ ∧ single.innerAt 2 = some ⟨1#32, 0, none⟩ := by decide +kernel

/-- Each check of `SYM`, and both ways it executes. -/
theorem witness_SymAppendsAndCounts :
    (built.fault = none ∧ built.phase ≠ .load) ∧
      (∃ s : State, s.fault = none ∧ s.phase = .load ∧ s.params.maxLen ≤ s.tlen) ∧
      (loaded.fault = none ∧ loaded.phase = .load ∧ loaded.tlen < loaded.params.maxLen ∧
        (∀ e ∈ loaded.ft, e.sym ≠ 0x63#24) ∧ loaded.params.maxSyms ≤ loaded.nsym) ∧
      (start.fault = none ∧ start.phase = .load ∧ start.tlen < start.params.maxLen ∧
        (∀ e ∈ start.ft, e.sym ≠ 0xFF#24) ∧ start.nsym < start.params.maxSyms) ∧
      (loaded.ft[1]? = some ⟨0x62#24, 1#32⟩ ∧ ∀ e ∈ loaded.ft.take 1, e.sym ≠ 0x62#24) :=
  ⟨by decide +kernel, ⟨session [.sym 0x61#24, .sym 0x61#24, .sym 0x61#24], by decide +kernel⟩, by decide +kernel,
    by decide +kernel, by decide +kernel⟩

theorem witness_SetwWritesTheWeightOperand : start.fault = none ∧ built.fault = none := by decide +kernel

theorem witness_MkleafAllocatesALeaf :
    (built.fault = none ∧ built.phase ≠ .load) ∧
      (loose.fault = none ∧ loose.phase = .load ∧ ∃ r ∈ loose.leaves, r.sym = 0x62#24) ∧
      ((∀ r ∈ loose.leaves, r.sym ≠ 0x63#24) ∧ loose.params.maxSyms ≤ loose.nleaf) ∧
      (start.fault = none ∧ start.phase = .load ∧ (∀ r ∈ start.leaves, r.sym ≠ 0#24) ∧
        start.nleaf < start.params.maxSyms) := by decide +kernel

/-- Phase, each ground of `F_NODE`, a full queue (in a state no run reaches), and an insertion. -/
theorem witness_PqinsInsertsTheNode :
    (built.fault = none ∧ built.phase ≠ .load) ∧
      (queued.fault = none ∧ queued.phase = .load ∧ queued.allocated 2 = false ∧ queued.inQueue 1 = true) ∧
      (merged.fault = none ∧ merged.phase = .load ∧ merged.hasParent 0 = true) ∧
      (∃ s : State, s.fault = none ∧ s.phase = .load ∧ s.allocated 1 = true ∧ s.inQueue 1 = false ∧ s.hasParent 1 = false ∧
        s.params.maxSyms ≤ s.hsize) ∧
      (loose.fault = none ∧ loose.phase = .load ∧ loose.allocated 1 = true ∧ loose.inQueue 1 = false ∧
        loose.hasParent 1 = false ∧ loose.hsize < loose.params.maxSyms ∧
        (∀ m ∈ 1 :: loose.heap, loose.hasRecord m = true)) ∧ HeapInv loose :=
  ⟨by decide +kernel, by decide +kernel, by decide +kernel, ⟨{ loose with heap := [0, 0] }, by decide +kernel⟩,
    by decide +kernel, witness_inv_sessions.2.2.2.2.2.2.1.structural.heap⟩

theorem witness_PqextExtractsTheMinimum :
    (built.fault = none ∧ built.phase ≠ .load) ∧ (loose.phase = .load ∧ loose.heap = []) ∧
      (queued.fault = none ∧ queued.phase = .load ∧ queued.heap.head? = some 1 ∧
        (∀ n ∈ queued.heap, queued.hasRecord n = true)) ∧ HeapInv queued :=
  ⟨by decide +kernel, by decide +kernel, by decide +kernel, witness_inv_sessions.2.2.2.2.2.2.2.1.structural.heap⟩

theorem witness_PqsizeAnswersTheSize : Structural built ∧ built.phase ≠ .load ∧ queued.hsize = 2 :=
  ⟨witness_inv_sessions.2.1.structural, by decide +kernel⟩

theorem witness_QueueSorts : Structural loose ∧ loose.fault = none ∧ loose.phase = .load ∧ loose.heap = [] ∧
    [0, 1].Nodup ∧ (∀ n ∈ [0, 1], loose.allocated n = true ∧ loose.hasParent n = false) ∧
    [0, 1].length ≤ loose.params.maxSyms :=
  ⟨witness_inv_sessions.2.2.2.2.2.2.1.structural, by decide +kernel⟩

/-- Phase, a queue of one, no room for a node (in a state no run reaches), a sum of 2^32, and a merge. -/
theorem witness_MergeJoinsTheTwoLightest :
    (built.fault = none ∧ built.phase ≠ .load) ∧ (merged.phase = .load ∧ merged.hsize < 2) ∧
      (queued.fault = none ∧ queued.phase = .load ∧ 2 ≤ queued.hsize ∧ queued.hsize ≤ queued.params.maxSyms ∧
        (∀ n ∈ queued.heap, queued.hasRecord n = true) ∧ queued.nint < queued.params.maxSyms ∧
        queued.weigh 1 + queued.weigh 0 < 2 ^ 32) ∧
      (∃ s : State, s.heap = queued.heap ∧ (∀ n ∈ s.heap, s.hasRecord n = true) ∧ s.params.maxSyms ≤ s.nint) ∧
      (∃ s : State, s.heap = queued.heap ∧ (∀ n ∈ s.heap, s.hasRecord n = true) ∧
        2 ^ 32 ≤ s.weigh 1 + s.weigh 0) ∧ HeapInv queued :=
  ⟨by decide +kernel, by decide +kernel, by decide +kernel,
    ⟨{ queued with inners := [⟨0#32, 0, none⟩, ⟨0#32, 0, none⟩] }, by decide +kernel⟩,
    ⟨{ queued with leaves := [⟨0x61#24, 0xFFFFFFFF#32⟩, ⟨0x62#24, 1#32⟩] }, by decide +kernel⟩,
    witness_inv_sessions.2.2.2.2.2.2.2.1.structural.heap⟩

/-- Phase, two queued nodes, a last leaf with and without room for its wrapper, and a last internal node. -/
theorem witness_FinishTakesTheRoot :
    (built.fault = none ∧ built.phase ≠ .load) ∧ (queued.phase = .load ∧ queued.hsize ≠ 1) ∧
      (∃ s : State, s.fault = none ∧ s.phase = .load ∧ s.heap = [0] ∧ s.leafAt 0 = some ⟨0x61#24, 5#32⟩ ∧
        s.params.maxSyms ≤ s.nint) ∧
      (∃ s : State, s.fault = none ∧ s.phase = .load ∧ s.heap = [0] ∧ s.leafAt 0 = some ⟨0x61#24, 5#32⟩ ∧
        s.nint < s.params.maxSyms) ∧
      (merged.fault = none ∧ merged.phase = .load ∧ merged.heap = [2] ∧
        merged.innerAt 2 = some ⟨8#32, 1, some 0⟩) :=
  ⟨by decide +kernel, by decide +kernel,
    ⟨{ loose with heap := [0], inners := [⟨0#32, 0, none⟩, ⟨0#32, 0, none⟩] }, by decide +kernel⟩,
    ⟨{ loose with heap := [0] }, by decide +kernel⟩, by decide +kernel⟩

/-- A text with no symbol, with one, and with two. -/
theorem witness_BuildMakesTheTree :
    (Structural start ∧ start.fault = none ∧ start.phase = .load ∧ start.leaves = [] ∧ start.inners = [] ∧
      start.heap = [] ∧ start.ft = []) ∧
      (Structural (session [.sym 0x61#24]) ∧ (session [.sym 0x61#24]).fault = none ∧
        (session [.sym 0x61#24]).ft = [⟨0x61#24, 1#32⟩]) ∧
      (Structural loaded ∧ loaded.fault = none ∧ loaded.phase = .load ∧ loaded.leaves = [] ∧ loaded.inners = [] ∧
        loaded.heap = [] ∧ 2 ≤ loaded.nsym) :=
  ⟨⟨witness_inv_start.structural, by decide +kernel⟩,
    ⟨(witness_inv_session (by decide) (by decide +kernel)).structural, by decide +kernel⟩,
    ⟨witness_inv_sessions.1.structural, by decide +kernel⟩⟩

theorem witness_BuildIsTheManualFlow : Structural loaded ∧ loaded.fault = none ∧ loaded.phase = .load ∧
    loaded.leaves = [] ∧ loaded.inners = [] ∧ loaded.heap = [] ∧ loaded.ft ≠ [] ∧
    (ran (exec .build loaded)).isSome = true :=
  ⟨witness_inv_sessions.1.structural, by decide +kernel⟩

theorem witness_BuilderNeverExceedsCapacity : Structural queued ∧ queued.fault = none ∧
    (ran (exec .merge queued)).isSome = true ∧ (ran (exec (.pqins 0#24) queued)).isSome = true ∧
    (ran (exec .finish queued)).isSome = true ∧ (ran (exec .build queued)).isSome = true :=
  ⟨witness_inv_sessions.2.2.2.2.2.2.2.1.structural, by decide +kernel⟩

theorem witness_RootWeighsItsLeaves : Structural built ∧ built.root = some 2 :=
  ⟨witness_inv_sessions.2.1.structural, by decide +kernel⟩

/-- The wrong phase, no root, a leaf below the root, and a leaf index with no leaf below it. -/
theorem witness_GenWritesTheRootToLeafPaths :
    (Structural start ∧ start.fault = none ∧ start.phase ≠ .tree) ∧
      (Structural rootless ∧ rootless.fault = none ∧ rootless.phase = .tree ∧ rootless.root = none) ∧
      (Structural built ∧ built.fault = none ∧ built.phase = .tree ∧ built.root = some 2 ∧
        built.follow 2 [true] = some 1) ∧
      (Structural single ∧ single.root = some 2 ∧ 1 < single.params.maxSyms ∧ ∀ p, single.follow 2 p ≠ some 1) := by
  refine ⟨⟨witness_inv_start.structural, by decide +kernel⟩,
    ⟨witness_inv_sessions.2.2.2.2.2.1.structural, by decide +kernel⟩,
    ⟨witness_inv_sessions.2.1.structural, by decide +kernel⟩,
    witness_inv_sessions.2.2.2.2.1.structural, by decide +kernel, by decide +kernel, fun p hp => ?_⟩
  have hs := witness_inv_sessions.2.2.2.2.1.structural
  have ha : single.allocated 2 = true := by decide +kernel
  have hn : single.allocated 1 = false := by decide +kernel
  rw [hs.tree.allocated_follow ha hp] at hn
  cases hn

theorem witness_LookupAndCodeLengthAnswer :
    (coded.findLeaf 0x62#24 = some 1 ∧ coded.codeAt 1 ≠ []) ∧
      (loose.findLeaf 0x62#24 = some 1 ∧ loose.codeAt 1 = []) ∧ coded.findLeaf 0x63#24 = none ∧
      coded.nleaf ≤ (2#24).toNat ∧ (1#24).toNat < coded.nleaf := by decide +kernel

theorem witness_WindowsCarryTheStringBits :
    (coded.nleaf ≤ (2#12).toNat ∧ (coded.codeAt 1).length ≤ 32 * (1#12).toNat) ∧
      ((1#12).toNat < coded.nleaf ∧ 32 * (0#12).toNat < (coded.codeAt 1).length) ∧
      brimful.blen ≤ 32 * (1#24).toNat ∧ 32 * (0#24).toNat < brimful.blen := by decide +kernel

theorem witness_EncinitEmptiesTheStream :
    (built.fault = none ∧ built.phase ≠ .code) ∧ (brimful.fault = none ∧ brimful.phase = .code) := by decide +kernel

/-- Phase, no leaf, a leaf without a code (in a state no run reaches), a full bitstream, and an append that fills it. -/
theorem witness_EncsAppendsTheCode :
    (built.fault = none ∧ built.phase ≠ .code) ∧
      (coded.fault = none ∧ coded.phase = .code ∧ coded.findLeaf 0x63#24 = none) ∧
      (∃ s : State, s.fault = none ∧ s.phase = .code ∧ s.findLeaf 0x62#24 = some 1 ∧ s.codeAt 1 = []) ∧
      (brimful.fault = none ∧ brimful.phase = .code ∧ brimful.findLeaf 0x62#24 = some 1 ∧ brimful.codeAt 1 ≠ [] ∧
        brimful.params.maxBits < brimful.blen + (brimful.codeAt 1).length) ∧
      (∃ s : State, s.fault = none ∧ s.phase = .code ∧ s.findLeaf 0x62#24 = some 1 ∧ s.codeAt 1 ≠ [] ∧
        s.blen + (s.codeAt 1).length = s.params.maxBits) :=
  ⟨by decide +kernel, by decide +kernel, ⟨{ loose with phase := .code }, by decide +kernel⟩, by decide +kernel,
    ⟨{ brimful with bits := [false, true, false] }, by decide +kernel⟩⟩

/-- Phase, a text that fits exactly, and a text whose second symbol has no code or does not fit. -/
theorem witness_EncConcatenatesTheCodes :
    (built.fault = none ∧ built.phase ≠ .code) ∧
      (∃ s : State, s.fault = none ∧ s.phase = .code ∧ (∀ x ∈ s.txt, s.codeOfSymbol x ≠ []) ∧
        (s.txt.flatMap s.codeOfSymbol).length = s.params.maxBits) ∧
      (∃ s : State, s.fault = none ∧ s.phase = .code ∧ s.txt = [0x61#24] ++ 0x63#24 :: [] ∧
        (∀ y ∈ [0x61#24], s.codeOfSymbol y ≠ []) ∧
        (([0x61#24] : List Symbol).flatMap s.codeOfSymbol).length ≤ s.params.maxBits ∧ s.codeOfSymbol 0x63#24 = []) ∧
      (∃ s : State, s.fault = none ∧ s.phase = .code ∧ s.txt = [0x61#24] ++ 0x62#24 :: [] ∧
        (∀ y ∈ [0x61#24], s.codeOfSymbol y ≠ []) ∧ s.codeOfSymbol 0x62#24 ≠ [] ∧
        (([0x61#24] : List Symbol).flatMap s.codeOfSymbol).length ≤ s.params.maxBits ∧
        s.params.maxBits < (([0x61#24] : List Symbol).flatMap s.codeOfSymbol).length + (s.codeOfSymbol 0x62#24).length) :=
  ⟨by decide +kernel,
    ⟨{ coded with params := ⟨8, 2, 3, 2⟩ }, by decide +kernel, by decide +kernel, forall_mem_of_all (by decide +kernel),
      by decide +kernel⟩,
    ⟨{ coded with txt := [0x61#24, 0x63#24] }, by decide +kernel, by decide +kernel, by decide +kernel,
      forall_mem_of_all (by decide +kernel), by decide +kernel⟩,
    ⟨{ coded with params := ⟨8, 2, 3, 1⟩ }, by decide +kernel, by decide +kernel, by decide +kernel,
      forall_mem_of_all (by decide +kernel), by decide +kernel⟩⟩

theorem witness_DecinitRestartsTheDecoder :
    (start.fault = none ∧ start.phase = .load) ∧ (built.fault = none ∧ built.phase ≠ .load) := by decide +kernel

/-- Phase, no root, an absent child, an internal child, a leaf with `OUT` full and with room for one more. -/
theorem witness_DecbMakesOneTransition :
    (start.fault = none ∧ start.phase = .load) ∧ (rootless.phase ≠ .load ∧ rootless.root = none) ∧
      (single.fault = none ∧ single.phase ≠ .load ∧ single.root = some 2 ∧ single.cur = some 2 ∧
        single.innerAt 2 = some ⟨1#32, 0, none⟩) ∧
      (abra.fault = none ∧ abra.phase ≠ .load ∧ abra.root = some 259 ∧ abra.cur = some 259 ∧
        abra.innerAt 259 = some ⟨11#32, 0, some 258⟩ ∧ abra.isLeaf 258 = false) ∧
      (∃ s : State, s.fault = none ∧ s.phase ≠ .load ∧ s.root = some 2 ∧ s.cur = some 2 ∧
        s.innerAt 2 = some ⟨2#32, 0, some 1⟩ ∧ s.isLeaf 1 = true ∧ s.params.maxLen ≤ s.olen) ∧
      (∃ s : State, s.fault = none ∧ s.phase ≠ .load ∧ s.root = some 2 ∧ s.cur = some 2 ∧
        s.innerAt 2 = some ⟨2#32, 0, some 1⟩ ∧ s.leafAt 1 = some ⟨0x62#24, 1#32⟩ ∧ s.olen + 1 = s.params.maxLen) :=
  ⟨by decide +kernel, by decide +kernel, by decide +kernel, by decide +kernel,
    ⟨{ built with out := [0#24, 0#24, 0#24] }, by decide +kernel⟩, ⟨{ built with out := [0#24, 0#24] }, by decide +kernel⟩⟩

/-- Phase, no root, a bitstream whose leaves just fit `OUT`, and one with a leaf more. -/
theorem witness_DecDecodesTheStream :
    (Inv start ∧ start.fault = none ∧ start.phase = .load) ∧
      (Inv rootless ∧ rootless.fault = none ∧ rootless.phase ≠ .load ∧ rootless.root = none) ∧
      (∃ s : State, Inv s ∧ s.fault = none ∧ s.phase ≠ .load ∧ s.root ≠ none ∧ (∀ i ∈ [0, 1, 0], s.codeAt i ≠ []) ∧
        s.bits = [0, 1, 0].flatMap s.codeAt ∧ [0, 1, 0].length = s.params.maxLen) ∧
      (Inv brimful ∧ brimful.fault = none ∧ brimful.phase ≠ .load ∧ brimful.root ≠ none ∧
        (∀ i ∈ [0, 1, 0, 1], brimful.codeAt i ≠ []) ∧ brimful.bits = [0, 1, 0, 1].flatMap brimful.codeAt ∧
        brimful.params.maxLen < [0, 1, 0, 1].length) :=
  ⟨⟨witness_inv_start, by decide +kernel⟩, ⟨witness_inv_sessions.2.2.2.2.2.1, by decide +kernel⟩,
    ⟨session [.sym 0x61#24, .sym 0x62#24, .sym 0x61#24, .build, .gen, .enc],
      witness_inv_session (by decide) (by decide +kernel), by decide +kernel⟩,
    ⟨witness_inv_sessions.2.2.2.1, by decide +kernel⟩⟩

theorem witness_DecNeverMeetsAnAbsentChild : Inv coded ∧ coded.fault = none ∧
    ((ran (exec .dec coded)).map (·.fault)) = some none :=
  ⟨witness_inv_sessions.2.2.1, by decide +kernel⟩

theorem witness_DecodingTheEncodedTextGivesItBack : Inv coded ∧ coded.fault = none ∧
    ((ran (exec .enc coded)).map (·.fault)) = some none :=
  ⟨witness_inv_sessions.2.2.1, by decide +kernel⟩

/-- From a faulted state; a text that fills `TXT`, uses every symbol the table can hold and fits `BITS`. -/
theorem witness_EngineFlowGivesTheTextBack : faulted.fault = some .seq ∧ faulted.params.Legal ∧
    (∀ x ∈ [0x61#24, 0xFF#24, 0x61#24], Symbol.Fits faulted.params.symW x) ∧
    [0x61#24, 0xFF#24, 0x61#24].length ≤ faulted.params.maxLen ∧
    ([0x61#24, 0xFF#24, 0x61#24] : List Symbol).dedup.length ≤ faulted.params.maxSyms ∧
    (execAll (.clr :: pseudoText [0x61#24, 0xFF#24, 0x61#24] ++ [.build, .gen]) faulted).map
      (fun t => decide ((([0x61#24, 0xFF#24, 0x61#24] : List Symbol).flatMap t.codeOfSymbol).length ≤
        faulted.params.maxBits)) = some true :=
  ⟨by decide +kernel, by decide +kernel, forall_mem_of_all (by decide +kernel), by decide +kernel⟩

/-- A step that discards the session, and one in phase `TREE` that does not. -/
theorem witness_NodesAreWrittenOnce :
    (ran (step (built.withFetchWord 32 0x01000000))).isSome = true ∧
      (ran (step (built.withFetchWord 32 0x40000000))).isSome = true ∧ built.phase ≠ .load := by decide +kernel

theorem witness_CodeTableIsReadOnly : (ran (step (built.withFetchWord 32 0x40000000))).map (·.code) =
    some [[false], [true]] ∧ built.code = [[], []] := by decide +kernel

theorem witness_PhaseOnlyAdvances : (ran (step (built.withFetchWord 32 0x40000000))).map (·.phase) = some .code ∧
    (ran (step (loaded.withFetchWord 32 0x30000000))).map (·.phase) = some .tree := by decide +kernel

/-- What ResetMeetsTheInvariants, StepKeepsTheMemoriesInForm, StepKeepsTheFrequencyInvariant, StepKeepsTheStructure,
StepKeepsTheInvariants and EveryStepCompletes assume: of the parameters, the memories' form, the counts, the structure
and all of it. -/
theorem witness_invariants : loaded.params.Legal ∧ Memory.wf loaded ∧ FrequencyInv loaded ∧ Structural merged ∧
    Inv brimful ∧ (ran (step (loaded.withFetchWord 32 0x30000000))).isSome = true ∧
    (ran (step (merged.withFetchWord 32 0x32000000))).isSome = true ∧
    (ran (step (brimful.withFetchWord 32 0x52000000))).isSome = true :=
  ⟨by decide +kernel, witness_inv_sessions.1.structural.memory, witness_inv_sessions.1.structural.frequency,
    witness_inv_sessions.2.2.2.2.2.2.2.2.1.structural, witness_inv_sessions.2.2.2.1, by decide +kernel⟩

/-- A run from reset in which the host loads a symbol. -/
theorem witness_NoRunFromResetStops : tiny.Legal ∧ ∃ s, Reach start s ∧ s.txt = [0x61#24] :=
  ⟨witness_params_legal.1,
    ⟨{ start with txt := [0x61#24], ft := [⟨0x61#24, 1#32⟩], responses := [okData 0#32] },
      Reach.step (Reach.host (.command 0x10000061#32) Reach.refl) (by rfl), rfl⟩⟩

end Sys2Proof.Tests
end

section
/-! One step: a word that decodes runs its command, and in a state that meets the invariants every step answers a
next state (00_scope.md R9, 47_system.md R234, 20_memory.md R65). -/

namespace Sys2Proof.Machine

variable {s : State}

/-- A command with its word taken from the port: the case of `step_of_command` for a legal word. -/
theorem step_of_decode_ok {w : Word} {rest : List HostAction} {i : Instr} (hin : s.input = .command w :: rest)
    (hd : decode s.params.symW w = .ok i) : step s = exec i { s with input := rest } := by
  rw [step_of_command hin, hd]

/-- The rule of a command is never stuck on a structural state, so `exec` always answers a next state. -/
theorem exec_completes (h : Structural s) (i : Instr) : ∃ t, exec i s = .next t := by
  by_contra hno
  obtain ⟨r, hr⟩ := exec_stops (not_exists.1 hno)
  exact (h.bodyOf i).1 r hr

/-- Only a legal command could stop the model; the other actions answer a next state in every state. -/
theorem step_completes (h : Structural s) : ∃ t, step s = .next t := by
  cases hin : s.input with
  | nil => exact ⟨_, step_of_silence hin⟩
  | cons a rest =>
    cases a with
    | reset => exact ⟨_, step_of_reset hin⟩
    | command w =>
      cases hd : decode s.params.symW w with
      | ok i =>
        rw [step_of_decode_ok hin hd]
        have ht : Structural { s with input := rest } := h.of_sameCore rfl
        exact exec_completes ht i
      | error e =>
        rw [step_of_command hin, hd]
        exact ⟨_, rfl⟩

/-- Settles O6, the legal-word case of a step. -/
theorem stepRunsTheDecodedCommand : Obligations.StepRunsTheDecodedCommand :=
  fun _ _ _ _ hin hd => step_of_decode_ok hin hd

/-- Settles O55: of all the invariants the structural ones suffice. -/
theorem everyStepCompletes : Obligations.EveryStepCompletes :=
  fun _ h => step_completes h.structural

end Sys2Proof.Machine
end

section
/-! The decoder, read from its result: what a word that decodes looks like (30_encoding.md R80 to R83). -/

namespace Sys2Proof

variable {symW : Nat} {arg : Arg} {w : Word} {i : Instr}

/-! ### The formats (R81) -/

theorem formatZ_ok {j : Instr} (h : formatZ j arg = .ok i) : i = j ∧ arg = 0 := by
  unfold formatZ at h
  split at h
  · next harg => exact ⟨(Except.ok.inj h).symm, harg⟩
  · cases h

theorem formatS_ok {f : Symbol → Instr} (h : formatS symW f arg = .ok i) : i = f arg ∧ Symbol.Fits symW arg := by
  unfold formatS at h
  split at h
  · next harg => exact ⟨(Except.ok.inj h).symm, harg⟩
  · cases h

theorem formatI_ok {f : BitVec 24 → Instr} (h : formatI f arg = .ok i) : i = f arg := (Except.ok.inj h).symm

theorem formatCW_ok {f : BitVec 12 → BitVec 12 → Instr} (h : formatCW f arg = .ok i) :
    i = f (arg.extractLsb' 0 12) (arg.extractLsb' 12 12) := (Except.ok.inj h).symm

theorem formatB_ok {f : Bool → Instr} (h : formatB f arg = .ok i) :
    i = f (arg.getLsbD 0) ∧ arg.extractLsb' 1 23 = 0 := by
  unfold formatB at h
  split at h
  · next harg => exact ⟨(Except.ok.inj h).symm, harg⟩
  · cases h

theorem formatNF_ok {f : BitVec 16 → BitVec 3 → Instr} (h : formatNF f arg = .ok i) :
    i = f (arg.extractLsb' 0 16) (arg.extractLsb' 16 3) ∧ arg.extractLsb' 19 5 = 0 := by
  unfold formatNF at h
  split at h
  · next harg => exact ⟨(Except.ok.inj h).symm, harg⟩
  · cases h

/-! ### The opcode map (R83) -/

/-- A word whose two fields are those of a command is that command's word. -/
theorem encode_eq_of_fields (hop : (opcodeOf w).toNat = i.opcode.toNat) (harg : i.arg = argOf w) : encode i = w := by
  rw [encode, harg, ← BitVec.eq_of_toNat_eq hop, mkWord_opcodeOf_argOf]

/-- A row of the map in format `Z`. -/
theorem encode_of_formatZ {j : Instr} (h : formatZ j (argOf w) = .ok i)
    (hop : (opcodeOf w).toNat = j.opcode.toNat) (harg : j.arg = 0) (hwf : j.WellFormed symW = true) :
    encode i = w ∧ i.WellFormed symW = true := by
  obtain ⟨rfl, h0⟩ := formatZ_ok h
  exact ⟨encode_eq_of_fields hop (harg.trans h0.symm), hwf⟩

/-- A row of the map in format `S`. -/
theorem encode_of_formatS {f : Symbol → Instr} (h : formatS symW f (argOf w) = .ok i)
    (hop : (opcodeOf w).toNat = (f (argOf w)).opcode.toNat) (harg : (f (argOf w)).arg = argOf w)
    (hwf : (f (argOf w)).WellFormed symW = decide (Symbol.Fits symW (argOf w))) :
    encode i = w ∧ i.WellFormed symW = true := by
  obtain ⟨rfl, hfits⟩ := formatS_ok h
  exact ⟨encode_eq_of_fields hop harg, hwf.trans (decide_eq_true hfits)⟩

/-- A row of the map in format `I`. -/
theorem encode_of_formatI {f : BitVec 24 → Instr} (h : formatI f (argOf w) = .ok i)
    (hop : (opcodeOf w).toNat = (f (argOf w)).opcode.toNat) (harg : (f (argOf w)).arg = argOf w)
    (hwf : (f (argOf w)).WellFormed symW = true) : encode i = w ∧ i.WellFormed symW = true := by
  obtain rfl := formatI_ok h
  exact ⟨encode_eq_of_fields hop harg, hwf⟩

/-- A word that decodes is the word of the command it decodes to, and the command is well formed. -/
theorem encode_of_decode (h : decode symW w = .ok i) : encode i = w ∧ i.WellFormed symW = true := by
  unfold decode at h
  split at h -- one case for each row of the map, in its order, and one for the unassigned opcodes
  case h_1 hop | h_2 hop | h_8 hop | h_9 hop | h_10 hop | h_11 hop | h_12 hop | h_13 hop | h_17 hop | h_19 hop |
      h_21 hop | h_22 hop => exact encode_of_formatZ h hop rfl rfl
  case h_4 hop | h_6 hop | h_14 hop | h_18 hop => exact encode_of_formatS h hop rfl rfl
  case h_3 hop | h_5 hop | h_7 hop | h_15 hop | h_20 hop | h_24 hop | h_25 hop | h_26 hop | h_27 hop | h_29 hop =>
    exact encode_of_formatI h hop rfl rfl
  case h_16 hop =>
    obtain rfl := formatCW_ok h
    exact ⟨encode_eq_of_fields hop (append_fields_CW _), rfl⟩
  case h_23 hop =>
    obtain ⟨rfl, h0⟩ := formatB_ok h
    exact ⟨encode_eq_of_fields hop (append_fields_B h0), rfl⟩
  case h_28 hop =>
    obtain ⟨rfl, h0⟩ := formatNF_ok h
    exact ⟨encode_eq_of_fields hop (append_fields_NF h0), rfl⟩
  case h_30 => cases h

end Sys2Proof
end

section
/-! What a step can change, and that every step keeps the invariants (10_state.md R23, R28, section 5). -/

namespace Sys2Proof.Machine

variable {s t : State}

/-! ### What a step can come to -/

theorem SameCore.params (h : SameCore s t) : t.params = s.params := (congrArg State.params h :)

theorem SameCore.phase (h : SameCore s t) : t.phase = s.phase := (congrArg State.phase h :)

theorem takeIllegal_sameCore (s : State) (w : Word) : SameCore s (s.takeIllegal w) := by
  unfold State.takeIllegal
  split <;> rfl

/-- But for `FAULT`, `FINFO`, `WREG` and the ports, a step leaves the state as it was, resets it, or leaves what the
rule of a decoded command gives. -/
theorem step_effect (h : step s = .next t) :
    SameCore s t ∨ (∃ rest, s.input = .reset :: rest ∧ SameCore (State.resetOf s.params) t) ∨
      ∃ w rest i u r, s.input = .command w :: rest ∧ decode s.params.symW w = .ok i ∧
        bodyOf i { s with input := rest } = .ok (u, r) ∧ SameCore u t := by
  rcases step_next h with ⟨-, rfl⟩ | ⟨rest, hin, rfl⟩ | ⟨w, rest, hin, ⟨_, -, rfl⟩ | ⟨i, hd, hx⟩⟩
  · exact .inl rfl
  · exact .inr (.inl ⟨rest, hin, rfl⟩)
  · exact .inl (takeIllegal_sameCore { s with input := rest } w)
  · rcases exec_next hx with ⟨-, -, rfl⟩ | ⟨-, u, r, hb, rfl⟩ | ⟨-, _, -, rfl⟩
    · exact .inl rfl
    · exact .inr (.inr ⟨w, rest, i, u, r, hin, hd, hb, rfl⟩)
    · exact .inl rfl

/-- A step that executes `CLR` takes the word of `CLR`. -/
theorem input_of_decode_clr {w : Word} {rest : List HostAction} (hin : s.input = .command w :: rest)
    (hd : decode s.params.symW w = .ok .clr) : s.input = .command 0x01000000#32 :: rest := by
  have hw : encode .clr = w := (encode_of_decode hd).1
  rw [hin, ← hw]
  rfl

/-! ### The structural invariants (R38 to R43) -/

theorem Structural.step (h : Structural s) (hs : Machine.step s = .next t) : Structural t := by
  rcases step_effect hs with hc | ⟨_, -, hc⟩ | ⟨_, rest, i, u, r, -, -, hb, hc⟩
  · exact h.of_sameCore hc
  · exact (structural_resetOf h.params).of_sameCore hc
  · have hin : Structural { s with input := rest } := h.of_sameCore rfl
    exact ((hin.bodyOf i).2 u r hb).of_sameCore hc

/-- Settles O53: the rule of every command keeps the structural invariants, and nothing else a step writes enters
them. -/
theorem stepKeepsTheStructure : Obligations.StepKeepsTheStructure := fun _ _ h hs => h.step hs

/-! ### All the invariants (R38 to R44) -/

theorem symbolsFit_resetOf (p : Params) : SymbolsFit (State.resetOf p) :=
  ⟨fun _ h => absurd h List.not_mem_nil, fun _ h => absurd h List.not_mem_nil, fun _ h => absurd h List.not_mem_nil,
    fun _ h => absurd h List.not_mem_nil⟩

theorem inv_resetOf {p : Params} (hp : p.Legal) : Inv (State.resetOf p) where
  structural := structural_resetOf hp
  code := codeInv_of_phase (show Phase.load ≠ .code by decide)
  bits := bitsInv_nil rfl
  symbols := symbolsFit_resetOf p
  faultInfo _ := rfl

/-- Settles O50: at reset no element is valid and no code is written. -/
theorem resetMeetsTheInvariants : Obligations.ResetMeetsTheInvariants := fun _ hp => inv_resetOf hp

theorem Inv.takeIllegal (h : Inv s) (w : Word) : Inv (s.takeIllegal w) := by
  unfold State.takeIllegal
  split
  · exact h.setPorts s.input _
  · exact h.raiseFault w .illcmd

theorem Inv.step (h : Inv s) (hs : Machine.step s = .next t) : Inv t := by
  rcases step_next hs with ⟨-, rfl⟩ | ⟨rest, -, rfl⟩ | ⟨w, rest, -, ⟨_, -, rfl⟩ | ⟨i, hd, hx⟩⟩
  · exact h
  · exact (inv_resetOf h.structural.params).setPorts rest s.responses
  · exact (h.setPorts rest s.responses).takeIllegal w
  · exact (h.setPorts rest s.responses).exec (encode_of_decode hd).2 hx

/-- Settles O54: the command a word decodes to is well formed, so its rule keeps the symbols within their width too. -/
theorem stepKeepsTheInvariants : Obligations.StepKeepsTheInvariants := fun _ _ h hs => h.step hs

/-! ### The frequency invariant alone (R38) -/

/-- The frequency invariant reads the text and the table only. -/
theorem FrequencyInv.congr (h : FrequencyInv s) (htxt : t.txt = s.txt) (hft : t.ft = s.ft) : FrequencyInv t := by
  obtain ⟨h1, h2, h3, h4, h5⟩ := h
  refine ⟨?_, ?_, ?_, ?_, ?_⟩ <;> simp only [State.tlen, htxt, hft] <;> assumption

theorem FrequencyInv.of_sameCore (h : FrequencyInv s) (hc : SameCore s t) : FrequencyInv t :=
  h.congr (congrArg State.txt hc :) (congrArg State.ft hc :)

/-- Only `SYM` and `CLR` write the text and the table (10_state.md R27). -/
theorem FrequencyInv.bodyOf (h : FrequencyInv s) (hp : s.params.Legal) {i : Instr} {r : Response}
    (hb : Sys2Proof.Machine.bodyOf i s = .ok (t, r)) : FrequencyInv t := by
  have he := (bodyOf_frame hb).1
  cases i with
  | sym x => exact h.symBody hp.2.2.1 hb
  | clr => exact (structural_resetOf hp).frequency.congr (congrArg State.txt he :) (congrArg State.ft he :)
  | _ => exact h.congr (congrArg State.txt he :) (congrArg State.ft he :)

/-- Settles O52: the counts are bounded by the legal parameters, so none wraps. -/
theorem stepKeepsTheFrequencyInvariant : Obligations.StepKeepsTheFrequencyInvariant := by
  intro s t hp _ h hs
  rcases step_effect hs with hc | ⟨_, -, hc⟩ | ⟨_, rest, i, u, r, -, -, hb, hc⟩
  · exact h.of_sameCore hc
  · exact (structural_resetOf hp).frequency.of_sameCore hc
  · have hin : FrequencyInv { s with input := rest } := h.congr rfl rfl
    exact (hin.bodyOf hp hb).of_sameCore hc

/-! ### What is written once (R28; 42_tree_builder.md R143) -/

/-- `t` has the tree, the text and the frequency table of `s`. -/
structure SameTree (s t : State) : Prop where
  leaves : t.leaves = s.leaves
  inners : t.inners = s.inners
  root : t.root = s.root
  txt : t.txt = s.txt
  ft : t.ft = s.ft

theorem SameTree.of_sameCore (h : SameCore s t) : SameTree s t :=
  ⟨(congrArg State.leaves h :), (congrArg State.inners h :), (congrArg State.root h :), (congrArg State.txt h :),
    (congrArg State.ft h :)⟩

theorem SameTree.trans {u : State} (h : SameTree s t) (h' : SameTree t u) : SameTree s u :=
  ⟨h'.leaves.trans h.leaves, h'.inners.trans h.inners, h'.root.trans h.root, h'.txt.trans h.txt, h'.ft.trans h.ft⟩

theorem SameTree.grows (h : SameTree s t) : Grows s t :=
  ⟨h.txt ▸ List.prefix_rfl, h.leaves ▸ List.prefix_rfl, h.inners ▸ List.prefix_rfl⟩

/-- Every command that writes the tree, the text or the table, but for `CLR`, is legal in phase `LOAD` only
(70_reset_and_hazards.md R276). -/
theorem sameTree_bodyOf {i : Instr} {r : Response} (hb : bodyOf i s = .ok (t, r)) (hi : i ≠ .clr)
    (hp : s.phase ≠ .load) : SameTree s t := by
  obtain ⟨he, hl, -⟩ := bodyOf_frame hb
  clear hb
  rw [he]
  cases i with
  | sym | mkleaf | pqins | pqext | merge | build | finish => exact absurd (beq_iff_eq.1 hl) hp
  | clr => exact absurd rfl hi
  | _ => exact ⟨rfl, rfl, rfl, rfl, rfl⟩

theorem step_params (hs : step s = .next t) : t.params = s.params := by
  rcases step_effect hs with hc | ⟨_, -, hc⟩ | ⟨_, _, _, _, _, -, -, hb, hc⟩
  · exact hc.params
  · exact hc.params
  · exact hc.params.trans (written_params (bodyOf_frame hb).1 :)

/-- A step takes a reset or the word of `CLR`, or it keeps what is written, and outside phase `LOAD` writes nothing
more. -/
theorem step_discards_or_grows (hs : step s = .next t) :
    (∃ rest, s.input = .reset :: rest ∨ s.input = .command 0x01000000#32 :: rest) ∨
      (Grows s t ∧ (s.phase ≠ .load → SameTree s t)) := by
  rcases step_effect hs with hc | ⟨rest, hin, -⟩ | ⟨w, rest, i, u, r, hin, hd, hb, hc⟩
  · have hst := SameTree.of_sameCore hc
    exact .inr ⟨hst.grows, fun _ => hst⟩
  · exact .inl ⟨rest, .inl hin⟩
  · by_cases hi : i = .clr
    · subst hi
      exact .inl ⟨rest, .inr (input_of_decode_clr hin hd)⟩
    · have htaken : SameTree s { s with input := rest } := .of_sameCore rfl
      have hst := SameTree.of_sameCore hc
      have hg := (bodyOf_frame hb).2.2 hi
      exact .inr ⟨(htaken.grows.trans hg).trans hst.grows,
        fun hp => (htaken.trans (sameTree_bodyOf hb hi hp)).trans hst⟩

/-- Settles O47: only `CLR` and reset take anything from the two regions, and the commands that write them are those of
phase `LOAD`. -/
theorem nodesAreWrittenOnce : Obligations.NodesAreWrittenOnce := by
  intro s t hs
  refine ⟨step_params hs, (step_discards_or_grows hs).imp_right ?_⟩
  rintro ⟨hg, hsame⟩
  refine ⟨hg.leaves, hg.inners, hg.txt, fun hp => ?_⟩
  obtain ⟨hleaves, hinners, hroot, htxt, hft⟩ := hsame hp
  exact ⟨hleaves, hinners, hroot, htxt, hft⟩

/-! ### The phase (R23) -/

/-- Along the phase table the phase stays, advances by one, or is `LOAD` again after `CLR` (70_reset_and_hazards.md
R276). -/
theorem phaseAfter_cases {i : Instr} {p : Phase} (hl : legalIn i p = true) :
    phaseAfter i p = p ∨ (p = .load ∧ phaseAfter i p = .tree) ∨ (p = .tree ∧ phaseAfter i p = .code) ∨
      (phaseAfter i p = .load ∧ i = .clr) := by
  cases i with
  | build | finish => exact .inr (.inl ⟨beq_iff_eq.1 hl, rfl⟩)
  | gen => exact .inr (.inr (.inl ⟨beq_iff_eq.1 hl, rfl⟩))
  | clr => exact .inr (.inr (.inr ⟨rfl, rfl⟩))
  | _ => exact .inl rfl

/-- Settles O49: `PHASE` after a command is that of the phase table. -/
theorem phaseOnlyAdvances : Obligations.PhaseOnlyAdvances := by
  intro s t hs
  rcases step_effect hs with hc | ⟨rest, hin, hc⟩ | ⟨w, rest, i, u, r, hin, hd, hb, hc⟩
  · exact .inl hc.phase
  · exact .inr (.inr (.inr ⟨hc.phase, rest, .inl hin⟩))
  · obtain ⟨he, hl, -⟩ := bodyOf_frame hb
    have hp : t.phase = phaseAfter i s.phase := hc.phase.trans (written_phase he :)
    rw [hp]
    refine (phaseAfter_cases hl).imp_right (Or.imp_right (Or.imp_right ?_))
    rintro ⟨hload, rfl⟩
    exact ⟨hload, rest, .inr (input_of_decode_clr hin hd)⟩

end Sys2Proof.Machine
end

section
/-! The flag word `STATUS`, `CLR`, and the weight of the root (10_state.md R25, R45, R47). -/

namespace Sys2Proof.Machine

/-! ### The flag word (R25) -/

/-- `STATUS` of its five flags and `PHASE`. -/
def statusWord (faulted qempty hasRoot dmid matched : Bool) (p : Phase) : Word :=
  natData (faulted.toNat + 2 * p.toNat + 8 * qempty.toNat + 16 * hasRoot.toNat + 32 * dmid.toNat + 64 * matched.toNat)

theorem status_eq (s : State) :
    s.status = statusWord s.faulted s.qempty s.hasRoot s.dmid s.matchFlag s.phase := rfl

/-- The fields of the word do not overlap. -/
theorem statusWord_fields (faulted qempty hasRoot dmid matched : Bool) (p : Phase) :
    (statusWord faulted qempty hasRoot dmid matched p).getLsbD 0 = faulted ∧
      ((statusWord faulted qempty hasRoot dmid matched p).extractLsb' 1 2).toNat = p.toNat ∧
      (statusWord faulted qempty hasRoot dmid matched p).getLsbD 3 = qempty ∧
      (statusWord faulted qempty hasRoot dmid matched p).getLsbD 4 = hasRoot ∧
      (statusWord faulted qempty hasRoot dmid matched p).getLsbD 5 = dmid ∧
      (statusWord faulted qempty hasRoot dmid matched p).getLsbD 6 = matched ∧
      (statusWord faulted qempty hasRoot dmid matched p).extractLsb' 7 25 = 0#25 := by
  cases p <;> revert faulted qempty hasRoot dmid matched <;> decide

theorem status_resetOf (p : Params) : (State.resetOf p).status = 0x00000048#32 := rfl

theorem qempty_iff {s : State} : s.qempty = true ↔ s.hsize = 0 := beq_iff_eq

theorem hasRoot_iff {s : State} : s.hasRoot = true ↔ s.root ≠ none := by
  cases h : s.root <;> simp [State.hasRoot, h]

theorem dmid_iff {s : State} : s.dmid = true ↔ s.cur ≠ s.root := bne_iff_ne

theorem matchFlag_iff {s : State} :
    s.matchFlag = true ↔ s.olen = s.tlen ∧ ∀ i, i < s.tlen → s.out[i]? = s.txt[i]? := by
  rw [State.matchFlag, beq_iff_eq]
  constructor
  · intro h
    exact ⟨congrArg List.length h, fun i _ => congrArg (·[i]?) h⟩
  · rintro ⟨hlen, hget⟩
    refine List.ext_getElem?' fun i hi => hget i ?_
    have : s.out.length = s.txt.length := hlen
    rwa [this, Nat.max_self] at hi

/-- Settles O16: each field of the word is its flag, and each flag says what the rule says. -/
theorem statusWordBits : Obligations.StatusWordBits := by
  refine ⟨status_resetOf, fun s => ?_⟩
  obtain ⟨hfaulted, hphase, hqempty, hroot, hdmid, hmatch, hzero⟩ :=
    statusWord_fields s.faulted s.qempty s.hasRoot s.dmid s.matchFlag s.phase
  rw [status_eq, hfaulted, hqempty, hroot, hdmid, hmatch]
  exact ⟨faulted_eq_true, hphase, qempty_iff, hasRoot_iff, dmid_iff, matchFlag_iff, hzero⟩

/-! ### `CLR` (R47) -/

theorem exec_clr (s : State) : exec .clr s = .next (s.clear.respond (okData 0#32)) := by
  rw [exec_eq_runCommand]
  exact runCommand_ok (.inr rfl)

theorem codeAt_resetOf (p : Params) (i : Nat) : (State.resetOf p).codeAt i = [] := by
  by_cases hi : i < p.maxSyms
  · exact codeAt_of_getElem? (by simp [State.resetOf, hi])
  · exact codeAt_of_length_le (by simpa [State.resetOf] using hi)

/-- Settles O20: `CLR` runs in every state, and leaves the reset state with the ports as they were. -/
theorem clrDiscardsTheSession : Obligations.ClrDiscardsTheSession := fun s =>
  ⟨s.clear.respond (okData 0#32), exec_clr s, rfl, rfl, rfl, rfl, rfl, rfl, rfl, rfl, rfl, rfl, rfl, rfl, rfl,
    List.length_replicate, codeAt_resetOf s.params, status_resetOf s.params, rfl, rfl⟩

/-! ### The weight of the root (R45) -/

section
variable {s : State} {n : Nat}

theorem weightBelow_leaf (hn : s.isLeaf n = true) (depth : Nat) : s.weightBelow (depth + 1) n = s.weigh n := by
  simp only [State.weightBelow, hn, if_true]

theorem weightBelow_wrapper {r : InnerNode} (hn : s.innerAt n = some r) (hr : r.right = none) (depth : Nat) :
    s.weightBelow (depth + 1) n = s.weightBelow depth r.left := by
  have hi : s.isLeaf n = false := isLeaf_eq_false.2 (innerAt_eq_some.1 hn).1
  simp only [State.weightBelow, hi, hn, hr, Bool.false_eq_true, if_false, Nat.add_zero]

theorem weightBelow_inner {r : InnerNode} {c : Nat} (hn : s.innerAt n = some r) (hr : r.right = some c) (depth : Nat) :
    s.weightBelow (depth + 1) n = s.weightBelow depth r.left + s.weightBelow depth c := by
  have hi : s.isLeaf n = false := isLeaf_eq_false.2 (innerAt_eq_some.1 hn).1
  simp only [State.weightBelow, hi, hn, hr, Bool.false_eq_true, if_false]

/-- Every allocated node weighs what the leaves below it weigh together, counted to any depth beyond its rank. -/
theorem TreeInv.weigh_eq_weightBelow (h : TreeInv s) (hl : s.nleaf ≤ s.params.maxSyms) :
    ∀ (depth n : Nat), s.allocated n = true → s.rank n < depth → s.weigh n = s.weightBelow depth n
  | depth + 1, n, ha, hd => by
    cases hi : s.isLeaf n with
    | true => exact (weightBelow_leaf hi depth).symm
    | false =>
      obtain ⟨r, hr⟩ := exists_innerAt hl ha hi
      have below : ∀ {b : Bool} {c : Nat}, r.child b = some c → s.weigh c = s.weightBelow depth c := fun hc => by
        have hch := childAt_eq_some.2 ⟨r, hr, hc⟩
        have hlt := h.rank_child hch
        exact h.weigh_eq_weightBelow hl depth _ (h.allocated_child hch) (by omega)
      have hget := (innerAt_eq_some.1 hr).2
      rw [weigh_inner hr]
      cases hright : r.right with
      | none => rw [weightBelow_wrapper hr hright, (h.wrapper _ r hget hright).2.1, below (b := false) rfl]
      | some c => rw [weightBelow_inner hr hright, h.sum _ r c hget hright, below (b := false) rfl,
          below (b := true) hright]

/-- The root is allocated in every phase that has one. -/
theorem Structural.root_allocated (h : Structural s) (hr : s.root = some n) : s.allocated n = true := by
  refine (h.phase.root (fun hl => ?_) n hr).1
  rw [h.root_none hl] at hr
  cases hr

end

/-- Settles O34: no node has a rank above `NINT`. -/
theorem rootWeighsItsLeaves : Obligations.RootWeighsItsLeaves := fun s n h hr =>
  h.tree.weigh_eq_weightBelow h.memory.2.2.1 (s.nint + 1) n (h.root_allocated hr)
    (rank_lt_depth h (h.root_allocated hr))

end Sys2Proof.Machine
end

section
/-! The memories under one command and one step: what a read leaves alone, and the form every step keeps (20_memory.md
R60, R67; 60_exceptions.md R243). -/

namespace Sys2Proof.Machine

variable {s t : State}

/-! ### Read-class commands (R67) -/

/-- Settles O14: the rule of a read-class command answers in the state it found, and it runs faulted or not. -/
theorem readCommandsChangeNothing : Obligations.ReadCommandsChangeNothing := by
  intro i s hi
  obtain ⟨r, hb, hr⟩ := bodyOf_readClass hi s
  exact ⟨r, exec_of_readClass hi hb, hr⟩

/-! ### The form of the memories (R60, R243) -/

/-- The form of the memories does not read `FAULT`, `FINFO`, `WREG` or the ports. -/
theorem memoryWf_of_sameCore (h : Memory.wf s) (hc : SameCore s t) : Memory.wf t := by
  rw [hc]
  exact h

/-- Settles O51: a step that writes a memory resets the state or runs the rule of a command, and both leave the
memories in form. -/
theorem stepKeepsTheMemoriesInForm : Obligations.StepKeepsTheMemoriesInForm := by
  intro s t hp h hs
  rcases step_effect hs with hc | ⟨_, -, hc⟩ | ⟨_, rest, i, u, r, -, -, hb, hc⟩
  · exact memoryWf_of_sameCore h hc
  · exact memoryWf_of_sameCore (memoryWf_resetOf s.params) hc
  · have hin : Memory.wf { s with input := rest } := memoryWf_of_sameCore h rfl
    exact memoryWf_of_sameCore (memoryWf_bodyOf (s := { s with input := rest }) hp hin hb) hc

end Sys2Proof.Machine
end

section
/-! The encoding: every command has one word, and the legal words are the rows of the opcode map (30_encoding.md R80 to
R83, R86, R91). -/

namespace Sys2Proof

open Machine

variable {symW : Nat} {arg : Arg} {w : Word} {i : Instr}

/-! ### The row of a command (R81, R83) -/

/-- How the operand field is read on the row of the opcode map that a command stands on; the command's own operands do
not matter. -/
def Instr.format (symW : Nat) : Instr → Arg → Except Illegal Instr
  | .nop => formatZ .nop
  | .clr => formatZ .clr
  | .rdreg _ => formatI .rdreg
  | .sym _ => formatS symW .sym
  | .setw _ => formatI .setw
  | .mkleaf _ => formatS symW .mkleaf
  | .pqins _ => formatI .pqins
  | .pqext => formatZ .pqext
  | .pqsize => formatZ .pqsize
  | .build => formatZ .build
  | .merge => formatZ .merge
  | .finish => formatZ .finish
  | .gen => formatZ .gen
  | .lookup _ => formatS symW .lookup
  | .rdclen _ => formatI .rdclen
  | .rdcode _ _ => formatCW .rdcode
  | .enc => formatZ .enc
  | .encs _ => formatS symW .encs
  | .encinit => formatZ .encinit
  | .rdbits _ => formatI .rdbits
  | .dec => formatZ .dec
  | .decinit => formatZ .decinit
  | .decb _ => formatB .decb
  | .rdout _ => formatI .rdout
  | .rdtxt _ => formatI .rdtxt
  | .rdfsym _ => formatI .rdfsym
  | .rdfcnt _ => formatI .rdfcnt
  | .rdnode _ _ => formatNF .rdnode
  | .rdheap _ => formatI .rdheap

/-- The decoder reads a word by the row its opcode names. -/
theorem decode_of_opcode (h : opcodeOf w = i.opcode) : decode symW w = i.format symW (argOf w) := by
  unfold decode
  rw [h]
  cases i <;> rfl

/-! ### Decoding what was encoded -/

theorem formatZ_zero (j : Instr) : formatZ j 0 = .ok j := rfl

theorem formatS_fits {x : Symbol} {f : Symbol → Instr} (h : Symbol.Fits symW x) : formatS symW f x = .ok (f x) :=
  if_pos h

theorem formatCW_append (f : BitVec 12 → BitVec 12 → Instr) (k v : BitVec 12) : formatCW f (v ++ k) = .ok (f k v) := by
  obtain ⟨hk, hv⟩ := fields_CW k v
  rw [formatCW, hk, hv]

theorem formatB_append (f : Bool → Instr) (b : Bool) : formatB f (0#23 ++ BitVec.ofBool b) = .ok (f b) := by
  obtain ⟨hb, h0⟩ := fields_B b
  rw [formatB, if_pos h0, hb]

theorem formatNF_append (f : BitVec 16 → BitVec 3 → Instr) (n : BitVec 16) (sel : BitVec 3) :
    formatNF f (0#5 ++ sel ++ n) = .ok (f n sel) := by
  obtain ⟨hn, hsel, h0⟩ := fields_NF n sel
  rw [formatNF, if_pos h0, hn, hsel]

/-- The format of a well-formed command reads back the operand field the command was laid out in. -/
theorem format_arg (h : i.WellFormed symW = true) : i.format symW i.arg = .ok i := by
  cases i with
  | nop | clr | pqext | pqsize | build | merge | finish | gen | enc | encinit | dec | decinit => exact formatZ_zero _
  | sym | mkleaf | lookup | encs => exact formatS_fits (of_decide_eq_true h)
  | rdreg | setw | pqins | rdclen | rdbits | rdout | rdtxt | rdfsym | rdfcnt | rdheap => rfl
  | rdcode k v => exact formatCW_append _ k v
  | decb b => exact formatB_append _ b
  | rdnode n sel => exact formatNF_append _ n sel

theorem decode_encode (h : i.WellFormed symW = true) : decode symW (encode i) = .ok i := by
  rw [decode_of_opcode (encode_opcode i), encode_arg, format_arg h]

/-- Settles O1: the opcode names the row, and the row's format reads back the operands. -/
theorem decodeOfEncode : Obligations.DecodeOfEncode := fun _ _ h => decode_encode h

/-- Settles O2, row by row of the opcode map. -/
theorem encodeOfDecode : Obligations.EncodeOfDecode := fun _ _ _ h => encode_of_decode h

/-- Settles O5: twelve evaluations of the decoder. -/
theorem wordsOfTheSpecDecode : Obligations.WordsOfTheSpecDecode := by
  unfold Obligations.WordsOfTheSpecDecode
  decide

/-! ### The bits of a word (R80 to R82, R91) -/

/-- Fields laid side by side are shifted and joined. -/
theorem setWidth_append_eq_or {m n k : Nat} (x : BitVec m) (y : BitVec n) :
    (x ++ y).setWidth k = (x.setWidth k <<< n) ||| y.setWidth k := by
  ext b hb
  simp only [BitVec.getElem_setWidth, BitVec.getLsbD_append, BitVec.getElem_or, BitVec.getElem_shiftLeft]
  by_cases hn : b < n
  · simp [hn]
  · simp [hn, BitVec.getLsbD_of_ge y b (Nat.le_of_not_lt hn)]

/-- The operand of `RDCODE` is its two fields (R81, format `CW`). -/
theorem setWidth_arg_rdcode (k v : BitVec 12) :
    (Instr.rdcode k v).arg.setWidth 32 = (v.setWidth 32 <<< 12) ||| k.setWidth 32 :=
  setWidth_append_eq_or v k

/-- The operand of `RDNODE` is its two fields (R81, format `NF`). -/
theorem setWidth_arg_rdnode (n : BitVec 16) (sel : BitVec 3) :
    (Instr.rdnode n sel).arg.setWidth 32 = (sel.setWidth 32 <<< 16) ||| n.setWidth 32 := by
  have hsel : (0#5 ++ sel).setWidth 32 = sel.setWidth 32 := by
    rw [setWidth_append_eq_or 0#5 sel]
    simp
  rw [← hsel]
  exact setWidth_append_eq_or (0#5 ++ sel) n

/-- `opcode << 24 | arg`. -/
theorem encode_eq_or (i : Instr) : encode i = (i.opcode.setWidth 32 <<< 24) ||| i.arg.setWidth 32 := by
  rw [← setWidth_append_eq_or i.opcode i.arg, BitVec.setWidth_eq]
  rfl

/-- Settles O4: the opcode and the operand field are joined, and so are the two fields of `RDCODE` and of `RDNODE`. -/
theorem encodingOfEveryCommand : Obligations.EncodingOfEveryCommand := by
  refine ⟨rfl, rfl, rfl, rfl, rfl, rfl, rfl, rfl, rfl, rfl, rfl, rfl, rfl, rfl, fun x => ?_, fun k => ?_, fun k v => ?_,
    fun n sel => ?_⟩
  · simp [encode_eq_or, Instr.opcode, Instr.arg]
  · simp [encode_eq_or, Instr.opcode, Instr.arg]
  · simp [encode_eq_or, Instr.opcode, setWidth_arg_rdcode, BitVec.or_assoc]
  · simp [encode_eq_or, Instr.opcode, setWidth_arg_rdnode, BitVec.or_assoc]

/-! ### The legal words (R86) -/

/-- The must-be-zero bits of the operand field on the row of a command: its mask in the opcode map (R81). -/
def Instr.mustBeZero (symW : Nat) : Instr → Arg
  | .nop => BitVec.allOnes 24
  | .clr => BitVec.allOnes 24
  | .pqext => BitVec.allOnes 24
  | .pqsize => BitVec.allOnes 24
  | .build => BitVec.allOnes 24
  | .merge => BitVec.allOnes 24
  | .finish => BitVec.allOnes 24
  | .gen => BitVec.allOnes 24
  | .enc => BitVec.allOnes 24
  | .encinit => BitVec.allOnes 24
  | .dec => BitVec.allOnes 24
  | .decinit => BitVec.allOnes 24
  | .sym _ => BitVec.allOnes 24 <<< symW
  | .mkleaf _ => BitVec.allOnes 24 <<< symW
  | .lookup _ => BitVec.allOnes 24 <<< symW
  | .encs _ => BitVec.allOnes 24 <<< symW
  | .rdreg _ => 0
  | .setw _ => 0
  | .pqins _ => 0
  | .rdclen _ => 0
  | .rdcode _ _ => 0
  | .rdbits _ => 0
  | .rdout _ => 0
  | .rdtxt _ => 0
  | .rdfsym _ => 0
  | .rdfcnt _ => 0
  | .rdheap _ => 0
  | .decb _ => BitVec.allOnes 24 <<< 1
  | .rdnode _ _ => BitVec.allOnes 24 <<< 19

theorem getLsbD_and_allOnes_shiftLeft {b : Nat} (k : Nat) (hb : b < 24) :
    (arg &&& (BitVec.allOnes 24 <<< k)).getLsbD b = (arg.getLsbD b && !decide (b < k)) := by
  simp only [BitVec.getLsbD_and, BitVec.getLsbD_shiftLeft, BitVec.getLsbD_allOnes, hb,
    decide_eq_true (Nat.lt_of_le_of_lt (Nat.sub_le b k) hb), decide_true, Bool.true_and, Bool.and_true]

/-- The bits from `k` up are clear exactly when the field is a number below `2^k`. -/
theorem and_allOnes_shiftLeft_eq_zero (k : Nat) : arg &&& (BitVec.allOnes 24 <<< k) = 0 ↔ arg.toNat < 2 ^ k := by
  constructor
  · intro h
    refine Nat.lt_pow_two_of_testBit _ fun b hb => ?_
    by_cases hlt : b < 24
    · have := getLsbD_and_allOnes_shiftLeft (arg := arg) k hlt
      rw [h] at this
      show arg.getLsbD b = false
      simpa [Nat.not_lt.2 hb] using this
    · exact BitVec.getLsbD_of_ge arg b (Nat.not_lt.1 hlt)
  · intro h
    refine BitVec.eq_of_getLsbD_eq fun b hb => ?_
    rw [getLsbD_and_allOnes_shiftLeft k hb]
    by_cases hlt : b < k
    · simp [hlt]
    · rw [BitVec.getLsbD, Nat.testBit_lt_two_pow (h.trans_le (Nat.pow_le_pow_right Nat.two_pos (Nat.not_lt.1 hlt)))]
      simp

/-- The same bits, read as a field of their own. -/
theorem extractLsb'_eq_zero_iff {k n : Nat} (h : k + n = 24) :
    arg.extractLsb' k n = 0 ↔ arg &&& (BitVec.allOnes 24 <<< k) = 0 := by
  rw [and_allOnes_shiftLeft_eq_zero]
  have hlt : arg.toNat < 2 ^ k * 2 ^ n := by
    rw [← Nat.pow_add, h]
    exact arg.isLt
  rw [← BitVec.toNat_inj, BitVec.extractLsb'_toNat, Nat.shiftRight_eq_div_pow,
    Nat.mod_eq_of_lt (Nat.div_lt_of_lt_mul hlt)]
  exact Nat.div_eq_zero_iff_lt (Nat.two_pow_pos k)

/-- A format with a check reads the field exactly when the check holds. -/
theorem exists_ite_ok_iff {c : Prop} [Decidable c] {j : Instr} {e : Illegal} :
    (∃ i, (if c then .ok j else .error e) = (.ok i : Except Illegal Instr)) ↔ c := by
  by_cases hc : c <;> simp [hc]

theorem formatZ_ok_iff {j : Instr} : (∃ i, formatZ j arg = .ok i) ↔ arg &&& BitVec.allOnes 24 = 0 := by
  rw [BitVec.and_allOnes]
  exact exists_ite_ok_iff

theorem formatS_ok_iff {f : Symbol → Instr} :
    (∃ i, formatS symW f arg = .ok i) ↔ arg &&& (BitVec.allOnes 24 <<< symW) = 0 := by
  rw [and_allOnes_shiftLeft_eq_zero]
  exact exists_ite_ok_iff

theorem formatB_ok_iff {f : Bool → Instr} :
    (∃ i, formatB f arg = .ok i) ↔ arg &&& (BitVec.allOnes 24 <<< 1) = 0 := by
  rw [← extractLsb'_eq_zero_iff (n := 23) rfl]
  exact exists_ite_ok_iff

theorem formatNF_ok_iff {f : BitVec 16 → BitVec 3 → Instr} :
    (∃ i, formatNF f arg = .ok i) ↔ arg &&& (BitVec.allOnes 24 <<< 19) = 0 := by
  rw [← extractLsb'_eq_zero_iff (n := 5) rfl]
  exact exists_ite_ok_iff

/-- An operand field can be read exactly when its must-be-zero bits are clear. -/
theorem format_ok_iff (i : Instr) : (∃ j, i.format symW arg = .ok j) ↔ arg &&& i.mustBeZero symW = 0 := by
  cases i with
  | nop | clr | pqext | pqsize | build | merge | finish | gen | enc | encinit | dec | decinit => exact formatZ_ok_iff
  | sym | mkleaf | lookup | encs => exact formatS_ok_iff
  | decb => exact formatB_ok_iff
  | rdnode => exact formatNF_ok_iff
  | rdcode | rdreg | setw | pqins | rdclen | rdbits | rdout | rdtxt | rdfsym | rdfcnt | rdheap =>
    exact iff_of_true ⟨_, rfl⟩ BitVec.and_zero

/-- The row of the opcode map that a command stands on (R83). -/
def Instr.row (symW : Nat) (i : Instr) : OpcodeRow := ⟨mkWord i.opcode 0, mkWord 0xFF#8 (i.mustBeZero symW)⟩

theorem mkWord_inj {op op' : BitVec 8} {arg' : Arg} : mkWord op arg = mkWord op' arg' ↔ op = op' ∧ arg = arg' := by
  refine ⟨fun h => ⟨?_, ?_⟩, fun ⟨hop, harg⟩ => by rw [hop, harg]⟩
  · simpa using congrArg opcodeOf h
  · simpa using congrArg argOf h

theorem mkWord_and (op op' : BitVec 8) (arg arg' : Arg) :
    mkWord op arg &&& mkWord op' arg' = mkWord (op &&& op') (arg &&& arg') := BitVec.and_append

/-- A word is on the row of a command when its opcode is the command's and its must-be-zero bits are clear. -/
theorem and_mask_eq_fixedBits :
    w &&& (i.row symW).mask = (i.row symW).fixedBits ↔ opcodeOf w = i.opcode ∧ argOf w &&& i.mustBeZero symW = 0 := by
  have hop : opcodeOf w &&& 0xFF#8 = opcodeOf w := BitVec.and_allOnes
  rw [← hop, ← mkWord_inj, ← mkWord_and, mkWord_opcodeOf_argOf, Instr.row]

/-- A command of each row of the opcode map, in its order. -/
def rowCommands : List Instr :=
  [.nop, .clr, .rdreg 0, .sym 0, .setw 0, .mkleaf 0, .pqins 0, .pqext, .pqsize, .build, .merge, .finish, .gen, .lookup 0,
    .rdclen 0, .rdcode 0 0, .enc, .encs 0, .encinit, .rdbits 0, .dec, .decinit, .decb false, .rdout 0, .rdtxt 0,
    .rdfsym 0, .rdfcnt 0, .rdnode 0 0, .rdheap 0]

/-- The map written out is the rows of these commands, at each of the symbol widths. -/
theorem opcodeRows_eq (h : symW ≤ 24) : opcodeRows symW = rowCommands.map (Instr.row symW) := by
  unfold opcodeRows
  interval_cases symW <;> rfl

/-- Operands do not enter a row. -/
theorem row_mem_map_rowCommands (i : Instr) : i.row symW ∈ rowCommands.map (Instr.row symW) := by
  cases i <;> simp only [rowCommands, List.map_cons, List.mem_cons, Instr.row, Instr.opcode, Instr.mustBeZero, true_or,
    or_true]

/-- The rows of the opcode map are those the commands stand on. -/
theorem mem_opcodeRows (h : symW ≤ 24) {row : OpcodeRow} : row ∈ opcodeRows symW ↔ ∃ i : Instr, i.row symW = row := by
  rw [opcodeRows_eq h]
  constructor
  · intro hr
    obtain ⟨i, -, hi⟩ := List.mem_map.1 hr
    exact ⟨i, hi⟩
  · rintro ⟨i, rfl⟩
    exact row_mem_map_rowCommands i

/-- Settles O3: a word on a command's row is read by the row's format, and a word that decodes is on the row of its
command. -/
theorem legalWordsAreTheRowsOfTheMap : Obligations.LegalWordsAreTheRowsOfTheMap := by
  intro symW w h
  constructor
  · rintro ⟨i, hd⟩
    have hop : opcodeOf w = i.opcode := (encode_of_decode hd).1 ▸ encode_opcode i
    rw [decode_of_opcode hop] at hd
    exact ⟨i.row symW, (mem_opcodeRows h).2 ⟨i, rfl⟩, and_mask_eq_fixedBits.2 ⟨hop, (format_ok_iff i).1 ⟨i, hd⟩⟩⟩
  · rintro ⟨row, hrow, hw⟩
    obtain ⟨i, rfl⟩ := (mem_opcodeRows h).1 hrow
    obtain ⟨hop, harg⟩ := and_mask_eq_fixedBits.1 hw
    rw [decode_of_opcode hop]
    exact (format_ok_iff i).2 harg

end Sys2Proof
end

section
/-! Every command taken is answered by exactly one response (30_encoding.md R84). -/

namespace Sys2Proof.Machine

variable {s t : State}

/-- What the response `r` to the word `w` says of the state `t` after it (R84). -/
def AnswersFor (w : Word) (s t : State) (r : Response) : Prop :=
  (r.status = .ok → t.fault = none ∨ t.fault = s.fault) ∧
    (r.status = .none → r.data = allOnes ∧ t.fault = s.fault) ∧
    (r.status = .fault → s.fault = none ∧ ∃ f, r.data = natData f.toNat ∧
      t = { s with fault := some f, finfo := w, responses := r :: s.responses }) ∧
    (r.status = .refused → ∃ f, s.fault = some f ∧ r.data = natData f.toNat ∧
      t = { s with responses := r :: s.responses })

/-- `w` is answered by one response, whose status says what became of `FAULT`. -/
def Answered (w : Word) (s t : State) : Prop :=
  ∃ r, t.responses = r :: s.responses ∧ t.input = s.input ∧ AnswersFor w s t r

/-- A refusal answers with the fault there is. -/
theorem answered_refuse {w : Word} (h : s.fault ≠ none) : Answered w s s.refuse := by
  obtain ⟨f, hf⟩ := Option.ne_none_iff_exists'.1 h
  have hdata : faultData s.fault = natData f.toNat := by rw [hf]; rfl
  refine ⟨_, rfl, rfl, ?_, ?_, ?_, fun _ => ⟨f, hf, hdata, rfl⟩⟩ <;> intro hc <;> cases hc

/-- Fault entry answers with the fault it enters. -/
theorem answered_raiseFault {w : Word} (h : s.fault = none) (f : FaultCode) : Answered w s (s.raiseFault w f) := by
  refine ⟨_, rfl, rfl, ?_, ?_, fun _ => ⟨h, f, rfl, rfl⟩, ?_⟩ <;> intro hc <;> cases hc

/-- Only `CLR` writes `FAULT`, and it answers `OK`. -/
theorem bodyOf_fault {i : Instr} {u : State} {r : Response} (hb : bodyOf i s = .ok (u, r)) :
    (u.fault = none ∧ r.status = .ok) ∨ u.fault = s.fault := by
  have hf := written_fault (bodyOf_frame hb).1
  by_cases hi : i = .clr
  · subst hi
    cases hb
    exact .inl ⟨rfl, rfl⟩
  · exact .inr (hf.trans (if_neg hi))

theorem bodyOf_ports {i : Instr} {u : State} {r : Response} (hb : bodyOf i s = .ok (u, r)) :
    u.input = s.input ∧ u.responses = s.responses := by
  have he := (bodyOf_frame hb).1
  clear hb
  rw [he]
  cases i <;> exact ⟨rfl, rfl⟩

/-- A rule that executes answers `OK`, or `NONE` with its one value. -/
theorem answered_bodyOf {w : Word} {i : Instr} {u : State} {r : Response} (hb : bodyOf i s = .ok (u, r)) :
    Answered w s (u.respond r) := by
  obtain ⟨hin, hresp⟩ := bodyOf_ports hb
  refine ⟨r, congrArg (r :: ·) hresp, hin, ?_⟩
  rcases bodyOf_response hb with hok | rfl
  · refine ⟨fun _ => (bodyOf_fault hb).imp_left And.left, ?_, ?_, ?_⟩ <;> rw [hok] <;> intro hc <;> cases hc
  · have hfault : u.fault = s.fault := (bodyOf_fault hb).resolve_left fun h => by cases h.2
    refine ⟨?_, fun _ => ⟨rfl, hfault⟩, ?_, ?_⟩ <;> intro hc <;> cases hc

theorem answered_takeIllegal (s : State) (w : Word) : Answered w s (s.takeIllegal w) := by
  unfold State.takeIllegal
  split
  · next hf => exact answered_refuse (faulted_eq_true.1 hf)
  · next hf => exact answered_raiseFault (by simpa using hf) .illcmd

theorem answered_exec {i : Instr} (h : exec i s = .next t) : Answered (encode i) s t := by
  rcases exec_next h with ⟨hf, -, rfl⟩ | ⟨-, u, r, hb, rfl⟩ | ⟨hf, f, -, rfl⟩
  · exact answered_refuse hf
  · exact answered_bodyOf hb
  · exact answered_raiseFault hf f

/-- A step on a command word answers it in the state with the word taken. -/
theorem answered_step {w : Word} {rest : List HostAction} (hin : s.input = .command w :: rest)
    (hs : step s = .next t) : Answered w { s with input := rest } t := by
  rw [step_of_command hin] at hs
  split at hs
  · next i hd =>
    rw [← (encode_of_decode hd).1]
    exact answered_exec hs
  · rw [← Host.Outcome.next.inj hs]
    exact answered_takeIllegal _ w

/-- Settles O9: a command is refused, faults, or runs its rule, and each gives one response. -/
theorem everyCommandIsAnsweredOnce : Obligations.EveryCommandIsAnsweredOnce :=
  fun _ _ _ _ hin hs => answered_step hin hs

end Sys2Proof.Machine
end

section
/-! The engine flow: a text that fits is loaded, every symbol of it gets a code, and decoding its encoding gives it back
(30_encoding.md R93, R95; 60_exceptions.md R240; 45_decoder.md R201). -/

namespace Sys2Proof.Machine

variable {s t : State}

/-! ### Loading the text (R93; 40_load_frequency.md R100) -/

/-- Every entry of the table is of a symbol of the text, so the table is full only when the text has as many symbols. -/
theorem FrequencyInv.room (h : FrequencyInv s) {x : Symbol} {text : List Symbol} (hx : ∀ e ∈ s.ft, e.sym ≠ x)
    (hd : (s.txt ++ x :: text).dedup.length ≤ s.params.maxSyms) : s.nsym < s.params.maxSyms := by
  have hnodup : (x :: s.ft.map (·.sym)).Nodup := by
    refine List.nodup_cons.2 ⟨fun hm => ?_, h.distinct⟩
    obtain ⟨e, he, hex⟩ := List.mem_map.1 hm
    exact hx e he hex
  have hsub : x :: s.ft.map (·.sym) ⊆ (s.txt ++ x :: text).dedup := by
    intro y hy
    rw [List.mem_dedup, List.mem_append]
    rcases List.mem_cons.1 hy with rfl | hy
    · exact .inr List.mem_cons_self
    · obtain ⟨e, he, rfl⟩ := List.mem_map.1 hy
      exact .inl (h.mem_txt he)
  have hle := (hnodup.subperm hsub).length_le
  rw [List.length_cons, List.length_map] at hle
  exact hle.trans hd

/-- `SYM` completes where the text and the table have room (40_load_frequency.md R100). -/
theorem symBody_completes {x : Symbol} (hp : s.phase = .load) (hl : s.tlen < s.params.maxLen)
    (hroom : (∀ e ∈ s.ft, e.sym ≠ x) → s.nsym < s.params.maxSyms) : ∃ u r, symBody x s = .ok (u, r) := by
  have hphase : require (s.phase == .load) .seq = .ok () := by rw [hp]; rfl
  have hlen : require (s.tlen < s.params.maxLen) .cap = .ok () := by rw [decide_eq_true hl]; rfl
  simp only [symBody, hphase, hlen, ok_bind]
  cases hf : s.findEntry x with
  | none =>
    have hsyms : require (s.nsym < s.params.maxSyms) .cap = .ok () := by
      rw [decide_eq_true (hroom (findEntry_none hf))]; rfl
    simp only [hsyms, ok_bind]
    exact ⟨_, _, rfl⟩
  | some j => exact ⟨_, _, rfl⟩

theorem symBody_txt {x : Symbol} {u : State} {r : Response} (hb : symBody x s = .ok (u, r)) : u.txt = s.txt ++ [x] := by
  obtain ⟨-, -, ⟨-, -, rfl⟩ | ⟨_, _, -, -, rfl⟩⟩ := symBody_ok hb <;> rfl

/-- A session in phase `LOAD` with no fault, no node, and the text `text`. -/
structure Loading (s : State) (text : List Symbol) : Prop where
  inv : Inv s
  fault : s.fault = none
  phase : s.phase = .load
  leaves : s.leaves = []
  inners : s.inners = []
  heap : s.heap = []
  txt : s.txt = text

theorem Loading.respond {text : List Symbol} (h : Loading s text) (r : Response) : Loading (s.respond r) text :=
  ⟨h.inv.setPorts s.input _, h.fault, h.phase, h.leaves, h.inners, h.heap, h.txt⟩

theorem exec_sym_loading {text rest : List Symbol} {x : Symbol} (h : Loading s text)
    (hx : Symbol.Fits s.params.symW x) (hlen : (text ++ x :: rest).length ≤ s.params.maxLen)
    (hdistinct : (text ++ x :: rest).dedup.length ≤ s.params.maxSyms) :
    ∃ t, exec (.sym x) s = .next t ∧ t.params = s.params ∧ Loading t (text ++ [x]) := by
  obtain ⟨hinv, hf, hp, hlv, hin, hq, rfl⟩ := h
  have hl : s.tlen < s.params.maxLen := by
    rw [List.length_append, List.length_cons] at hlen
    show s.txt.length < s.params.maxLen
    omega
  obtain ⟨u, r, hb⟩ := symBody_completes hp hl fun hne => hinv.structural.frequency.room hne hdistinct
  have hb' : bodyOf (.sym x) s = .ok (u, r) := hb
  have he : u = { s with txt := u.txt, ft := u.ft } := (bodyOf_frame hb').1
  have hw : (Instr.sym x).WellFormed s.params.symW = true := decide_eq_true hx
  have hu : Loading u (s.txt ++ [x]) :=
    ⟨hinv.bodyOf hw hb', (congrArg State.fault he).trans hf, (congrArg State.phase he).trans hp,
      (congrArg State.leaves he).trans hlv, (congrArg State.inners he).trans hin, (congrArg State.heap he).trans hq,
      symBody_txt hb⟩
  exact ⟨u.respond r, exec_of_body_ok hf hb', (congrArg State.params he :), hu.respond r⟩

/-- `TEXT` loads a text that fits (R93). -/
theorem execAll_pseudoText : ∀ (text : List Symbol) {s : State} {before : List Symbol}, Loading s before →
    (∀ x ∈ text, Symbol.Fits s.params.symW x) → (before ++ text).length ≤ s.params.maxLen →
    (before ++ text).dedup.length ≤ s.params.maxSyms →
    ∃ t, execAll (pseudoText text) s = some t ∧ t.params = s.params ∧ Loading t (before ++ text)
  | [], s, before, h, _, _, _ => ⟨s, rfl, rfl, by rwa [List.append_nil]⟩
  | x :: text, s, before, h, hx, hlen, hdistinct => by
    obtain ⟨u, hu, hup, hul⟩ := exec_sym_loading h (hx x List.mem_cons_self) hlen hdistinct
    rw [List.append_cons] at hlen hdistinct ⊢
    rw [← hup] at hlen hdistinct hx ⊢
    obtain ⟨t, ht, hrest⟩ := execAll_pseudoText text hul (fun y hy => hx y (List.mem_cons_of_mem _ hy)) hlen hdistinct
    exact ⟨t, (execAll_cons hu _).trans ht, hrest⟩

theorem loading_clear (hp : s.params.Legal) (r : Response) : Loading (s.clear.respond r) [] :=
  ⟨(inv_resetOf hp).setPorts s.input (r :: s.responses), rfl, rfl, rfl, rfl, rfl, rfl⟩

/-! ### The tree and the codes (42_tree_builder.md R130; 43_code_table.md R150) -/

/-- The internal nodes join all the nodes into one tree: only one node is left without parent. -/
def OneTree (s : State) : Prop := s.nleaf + s.nint ≤ (s.inners.flatMap InnerNode.children).length + 1

theorem OneTree.congr (h : OneTree s) (hl : t.leaves = s.leaves) (hi : t.inners = s.inners) : OneTree t := by
  unfold OneTree State.nleaf State.nint
  rw [hl, hi]
  exact h

/-- `BUILD` with no node yet makes a leaf of each entry of the table, and joins them into one tree. -/
theorem buildBody_oneTree (h : Structural s) (hl : s.phase = .load) (hlv : s.leaves = []) (hin : s.inners = [])
    (hq : s.heap = []) :
    ∃ u r, buildBody s = .ok (u, r) ∧ u.leaves = s.ft.map FreqEntry.leaf ∧ OneTree u := by
  rcases buildBody_spec h hl hlv hin hq with ⟨hft, hb, -⟩ | ⟨e, hft, u, rfl, hb, -⟩ |
    ⟨h2, u, he, hb, -, hnint, hright, -⟩
  · refine ⟨_, _, hb, by rw [hft]; exact hlv, ?_⟩
    simp [OneTree, State.nleaf, State.nint, hlv, hin]
  · refine ⟨_, _, hb, by rw [hft]; rfl, ?_⟩
    simp [OneTree, State.nleaf, State.nint, InnerNode.children]
  · have hleaves : u.leaves = s.ft.map FreqEntry.leaf := (congrArg State.leaves he :)
    have hnleaf : u.nleaf = s.nsym := by simp [State.nleaf, State.nsym, hleaves]
    have hchildren := children_length u.inners
    have hnone : u.inners.countP (fun r => r.right.isNone) = 0 :=
      List.countP_eq_zero.2 fun r hr => by simpa using hright r hr
    refine ⟨u, _, hb, hleaves, ?_⟩
    unfold OneTree
    unfold State.nint at *
    omega

/-- A tree with a leaf for every symbol of the text, and no fault. -/
structure Built (s : State) (text : List Symbol) : Prop where
  inv : Inv s
  fault : s.fault = none
  txt : s.txt = text
  leaves : ∀ x ∈ text, ∃ l ∈ s.leaves, l.sym = x
  oneTree : OneTree s

theorem exec_build_loading {text : List Symbol} (h : Loading s text) :
    ∃ t, exec .build s = .next t ∧ t.phase = .tree ∧ t.params = s.params ∧ Built t text := by
  obtain ⟨hinv, hf, hp, hlv, hin, hq, rfl⟩ := h
  obtain ⟨u, r, hb, hleaves, hone⟩ := buildBody_oneTree hinv.structural hp hlv hin hq
  have hb' : bodyOf .build s = .ok (u, r) := hb
  have hx := exec_of_body_ok hf hb'
  have he := (bodyOf_frame hb').1
  refine ⟨u.respond r, hx, (congrArg State.phase he :), (congrArg State.params he :), hinv.exec rfl hx,
    (congrArg State.fault he).trans hf, (congrArg State.txt he :), fun x hx => ?_, hone⟩
  obtain ⟨e, hmem, rfl⟩ := hinv.structural.frequency.covers x hx
  exact ⟨e.leaf, hleaves ▸ List.mem_map_of_mem hmem, rfl⟩

theorem genBody_completes (h : Structural s) (hp : s.phase = .tree) : ∃ u r, genBody s = .ok (u, r) := by
  cases hr : s.root with
  | none => exact ⟨_, _, genBody_noRoot hp hr⟩
  | some n => exact ⟨_, _, genBody_spec h hp hr⟩

/-- `GEN` keeps the tree and the text. -/
theorem exec_gen_built {text : List Symbol} (h : Built s text) (hp : s.phase = .tree) :
    ∃ t, exec .gen s = .next t ∧ t.phase = .code ∧ t.params = s.params ∧ Built t text := by
  obtain ⟨hinv, hf, htxt, hleaves, hone⟩ := h
  obtain ⟨u, r, hb⟩ := genBody_completes hinv.structural hp
  have hb' : bodyOf .gen s = .ok (u, r) := hb
  have hx := exec_of_body_ok hf hb'
  have he := (bodyOf_frame hb').1
  have hl : u.leaves = s.leaves := (congrArg State.leaves he :)
  exact ⟨u.respond r, hx, (congrArg State.phase he :), (congrArg State.params he :), hinv.exec rfl hx,
    (congrArg State.fault he).trans hf, (congrArg State.txt he).trans htxt, fun x hx => hl ▸ hleaves x hx,
    hone.congr hl (congrArg State.inners he :)⟩

theorem exists_findLeaf {x : Symbol} (h : ∃ l ∈ s.leaves, l.sym = x) : ∃ i, s.findLeaf x = some i ∧ i < s.nleaf := by
  cases hi : s.findLeaf x with
  | none =>
    obtain ⟨l, hl, hx⟩ := h
    exact absurd hx (findLeaf_none hi l hl)
  | some i => exact ⟨i, rfl, (List.findIdx?_eq_some_iff_getElem.1 hi).1⟩

/-- In one tree a path leads from the root to every allocated node. -/
theorem Structural.follow_root (h : Structural s) (hp : s.phase ≠ .load) (hone : OneTree s) {n m : Nat}
    (hr : s.root = some n) (hm : s.allocated m = true) : ∃ p, s.follow n p = some m := by
  obtain ⟨ha, -, hpar⟩ := h.phase.root hp n hr
  exact h.tree.follow_all h.memory.2.2.1 (fun j hj hpj => h.tree.parentless_unique ha hj hpar hpj hone) (s.nint + 1) m hm
    (by omega)

/-- In one tree every leaf has a code (10_state.md R44). -/
theorem Inv.code_ne_nil (h : Inv s) (hp : s.phase = .code) (hone : OneTree s) {i : Nat} (hi : i < s.nleaf) :
    s.codeAt i ≠ [] := by
  have hne : s.phase ≠ .load := by rw [hp]; decide
  obtain ⟨n, hr⟩ : ∃ n, s.root = some n := by
    refine Option.ne_none_iff_exists'.1 fun hnone => ?_
    have : s.nleaf = 0 := congrArg List.length (h.structural.phase.noRoot hne hnone).2.1
    omega
  obtain ⟨p, hfollow⟩ := h.structural.follow_root hne hone hr (allocated_iff.2 (.inl hi))
  exact (h.code.covered hp i).2 ⟨hi, n, p, hr, hfollow⟩

theorem Inv.codeOfSymbol_ne_nil (h : Inv s) (hp : s.phase = .code) (hone : OneTree s) {x : Symbol}
    (hx : ∃ l ∈ s.leaves, l.sym = x) : s.codeOfSymbol x ≠ [] := by
  obtain ⟨i, hi, hlt⟩ := exists_findLeaf hx
  have hcode := h.code_ne_nil hp hone hlt
  rw [Ne, codeOfSymbol_eq_nil, State.codedLeaf, hi]
  simpa using hcode

/-! ### Encoding and decoding (44_encoder.md R175; 45_decoder.md R201) -/

/-- `ENC` on a text whose codes fit. -/
theorem exec_enc (hf : s.fault = none) (hp : s.phase = .code) (hx : ∀ x ∈ s.txt, s.codeOfSymbol x ≠ [])
    (hb : (s.txt.flatMap s.codeOfSymbol).length ≤ s.params.maxBits) :
    exec .enc s = .next ((s.setBits (s.txt.flatMap s.codeOfSymbol)).respond
      (okData (natData (s.txt.flatMap s.codeOfSymbol).length))) := by
  have henc : encodeText s.txt (s.setBits []) = .ok (s.setBits (s.txt.flatMap s.codeOfSymbol)) :=
    encodeText_eq_ok s.txt (s := s.setBits []) hx (by rwa [codeOfSymbol_setBits, State.blen, State.setBits,
      List.length_nil, Nat.zero_add])
  refine exec_of_body_ok hf ?_
  show encBody s = _
  rw [encBody_eq hp, henc]
  rfl

/-- With no root there is no text: `BUILD` found no entry (10_state.md R43). -/
theorem Structural.txt_nil (h : Structural s) (hp : s.phase ≠ .load) (hr : s.root = none) : s.txt = [] := by
  refine List.eq_nil_iff_forall_not_mem.2 fun x hx => ?_
  obtain ⟨e, he, -⟩ := h.frequency.covers x hx
  rw [(h.phase.noRoot hp hr).1] at he
  exact List.not_mem_nil he

/-- `DEC` on the encoded text gives the text back (45_decoder.md R201). -/
theorem decBody_of_encoded (h : Inv s) (hp : s.phase ≠ .load) (hx : ∀ x ∈ s.txt, s.codeOfSymbol x ≠ [])
    (hb : s.bits = s.txt.flatMap s.codeOfSymbol) :
    decBody s = .ok ({ s with out := s.txt, cur := s.root }, okData (natData s.tlen)) := by
  rcases Option.eq_none_or_eq_some s.root with hr | ⟨n, hr⟩
  · have hend : s.restartDecoder = { s with out := s.txt, cur := s.root } :=
      congrArg (fun out => { s with out := out, cur := s.root }) (h.structural.txt_nil hp hr).symm
    rw [decBody_eq hp, decodeBits_noRoot s.bits (s := s.restartDecoder) hr, ok_bind, hend]
    rfl
  · obtain ⟨ids, hids, hcodes, hsyms, hlen⟩ := exists_leaves_of_text s.txt hx
    have hroom : ids.length ≤ s.params.maxLen := hlen.trans_le h.structural.memory.1
    rw [(h.decBody hp hr hids (hb.trans hcodes)).1 hroom, hsyms, hlen]
    rfl

theorem exec_dec_of_encoded (h : Inv s) (hf : s.fault = none) (hp : s.phase ≠ .load)
    (hx : ∀ x ∈ s.txt, s.codeOfSymbol x ≠ []) (hb : s.bits = s.txt.flatMap s.codeOfSymbol) :
    exec .dec s = .next ({ s with out := s.txt, cur := s.root }.respond (okData (natData s.tlen))) :=
  exec_of_body_ok hf (decBody_of_encoded h hp hx hb :)

/-! ### The engine flow (R95) -/

theorem execAll_append_of_some {is : List Instr} (h : execAll is s = some t) (js : List Instr) :
    execAll (is ++ js) s = execAll js t := by
  rw [execAll_append, h, Option.bind_some]

theorem execAll_engine {text : List Symbol} (hp : s.params.Legal) (hx : ∀ x ∈ text, Symbol.Fits s.params.symW x)
    (hlen : text.length ≤ s.params.maxLen) (hdistinct : text.dedup.length ≤ s.params.maxSyms) :
    ∃ t, execAll (.clr :: pseudoText text ++ [.build, .gen]) s = some t ∧ t.phase = .code ∧ t.params = s.params ∧
      Built t text := by
  obtain ⟨u, hu, hup, hul⟩ := execAll_pseudoText text (loading_clear hp (okData 0#32)) hx hlen hdistinct
  obtain ⟨v, hv, hvphase, hvp, hvb⟩ := exec_build_loading hul
  obtain ⟨t, ht, htphase, htp, htb⟩ := exec_gen_built hvb hvphase
  refine ⟨t, ?_, htphase, htp.trans (hvp.trans hup), htb⟩
  rw [List.cons_append, execAll_cons (exec_clr s), execAll_append_of_some hu, execAll_cons hv, execAll_cons ht]
  rfl

/-- Settles O46: loading, `BUILD` and `GEN` give every symbol of the text a code, and `DEC` undoes `ENC`. -/
theorem engineFlowGivesTheTextBack : Obligations.EngineFlowGivesTheTextBack := by
  intro s text hp hx hlen hdistinct
  obtain ⟨t, ht, hphase, hparams, hinv, hf, rfl, hleaves, hone⟩ := execAll_engine hp hx hlen hdistinct
  have hcodes : ∀ x ∈ t.txt, t.codeOfSymbol x ≠ [] := fun x hx => hinv.codeOfSymbol_ne_nil hphase hone (hleaves x hx)
  refine ⟨t, ht, hf, hphase, rfl, hcodes, fun hb => ?_⟩
  rw [← hparams] at hb
  have henc := exec_enc hf hphase hcodes hb
  have hdec := exec_dec_of_encoded (hinv.exec rfl henc) hf (ne_of_eq_of_ne hphase (by decide)) hcodes rfl
  have hflow : pseudoEncode t.txt = (.clr :: pseudoText t.txt ++ [.build, .gen]) ++ [.enc, .dec] := by
    simp [pseudoEncode]
  have hrun := (execAll_append_of_some ht [.enc, .dec]).trans ((execAll_cons henc _).trans (execAll_cons hdec _))
  rw [← hflow] at hrun
  exact ⟨_, hrun, hf, hphase, rfl, rfl, rfl, rfl, rfl, rfl, beq_self_eq_true t.txt, bne_self_eq_false t.root⟩

end Sys2Proof.Machine
end

section
/-! Loading by command: what `SYM`, `SETW` and `MKLEAF` come to in every case of their checks (40_load_frequency.md R100,
R102, R104). -/

namespace Sys2Proof.Machine

variable {s : State} {x : Symbol}

/-! ### One check of a rule (00_scope.md R15) -/

theorem require_bind_of_true {α : Type} {c : Bool} {f : FaultCode} {k : Unit → Except Stop α} (hc : c = true) :
    (require c f >>= k) = k () := by
  rw [hc, require_true, ok_bind]

theorem require_bind_of_false {α : Type} {c : Bool} {f : FaultCode} {k : Unit → Except Stop α} (hc : c = false) :
    (require c f >>= k) = .error (.raise f) := by
  rw [hc, require_false, error_bind]

/-! ### Looking a symbol up -/

theorem findEntry_eq_none (h : ∀ e ∈ s.ft, e.sym ≠ x) : s.findEntry x = none := by
  simpa [State.findEntry, List.findIdx?_eq_none_iff] using h

/-- The entry found is the first one of the symbol. -/
theorem findEntry_eq_some {j : Nat} {e : FreqEntry} (hj : s.ft[j]? = some e) (he : e.sym = x)
    (hfirst : ∀ e' ∈ s.ft.take j, e'.sym ≠ x) : s.findEntry x = some j := by
  obtain ⟨hlt, rfl⟩ := List.getElem?_eq_some_iff.1 hj
  refine List.findIdx?_eq_some_iff_getElem.2 ⟨hlt, beq_iff_eq.2 he, fun i hi heq => ?_⟩
  exact hfirst _ (List.mem_take_iff_getElem.2 ⟨i, by omega, rfl⟩) (beq_iff_eq.1 heq)

theorem findLeaf_isNone : (s.findLeaf x).isNone = true ↔ ∀ r ∈ s.leaves, r.sym ≠ x := by
  simp [State.findLeaf]

/-- Bumping the entry at `j` writes the count after it, of the same symbol. -/
theorem modify_bump {l : List FreqEntry} {j : Nat} {e : FreqEntry} (hj : l[j]? = some e) :
    l.modify j FreqEntry.bump = l.set j ⟨e.sym, e.count + 1#32⟩ := by
  rw [List.modify_eq_set_getElem?, hj]
  rfl

/-! ### `SYM` (R100) -/

theorem symBody_of_phase (hp : s.phase ≠ .load) : symBody x s = .error (.raise .seq) :=
  require_bind_of_false (beq_eq_false_iff_ne.2 hp)

theorem symBody_of_text_full (hp : s.phase = .load) (hl : s.params.maxLen ≤ s.tlen) :
    symBody x s = .error (.raise .cap) :=
  (require_bind_of_true (beq_iff_eq.2 hp)).trans (require_bind_of_false (decide_eq_false hl.not_gt))

/-- In phase `LOAD` with room in the text, a symbol without entry gets one where there is room. -/
theorem symBody_of_absent (hp : s.phase = .load) (hl : s.tlen < s.params.maxLen) (hx : ∀ e ∈ s.ft, e.sym ≠ x) :
    symBody x s = require (s.nsym < s.params.maxSyms) .cap >>= fun _ =>
      .ok ({ s with txt := s.txt ++ [x], ft := s.ft ++ [⟨x, 1#32⟩] }, okData (natData s.nsym)) := by
  rw [symBody, require_bind_of_true (beq_iff_eq.2 hp), require_bind_of_true (decide_eq_true hl), findEntry_eq_none hx]

theorem symBody_of_table_full (hp : s.phase = .load) (hl : s.tlen < s.params.maxLen) (hx : ∀ e ∈ s.ft, e.sym ≠ x)
    (hn : s.params.maxSyms ≤ s.nsym) : symBody x s = .error (.raise .cap) :=
  (symBody_of_absent hp hl hx).trans (require_bind_of_false (decide_eq_false hn.not_gt))

theorem symBody_of_new (hp : s.phase = .load) (hl : s.tlen < s.params.maxLen) (hx : ∀ e ∈ s.ft, e.sym ≠ x)
    (hn : s.nsym < s.params.maxSyms) :
    symBody x s = .ok ({ s with txt := s.txt ++ [x], ft := s.ft ++ [⟨x, 1#32⟩] }, okData (natData s.nsym)) :=
  (symBody_of_absent hp hl hx).trans (require_bind_of_true (decide_eq_true hn))

theorem symBody_of_counted {j : Nat} {e : FreqEntry} (hp : s.phase = .load) (hl : s.tlen < s.params.maxLen)
    (hj : s.ft[j]? = some e) (he : e.sym = x) (hfirst : ∀ e' ∈ s.ft.take j, e'.sym ≠ x) :
    symBody x s = .ok ({ s with txt := s.txt ++ [x], ft := s.ft.set j ⟨x, e.count + 1#32⟩ }, okData (natData j)) := by
  rw [symBody, require_bind_of_true (beq_iff_eq.2 hp), require_bind_of_true (decide_eq_true hl),
    findEntry_eq_some hj he hfirst, ← he, ← modify_bump hj]

/-- Settles O22: the phase, the room in the text, and the table decide, in that order. -/
theorem symAppendsAndCounts : Obligations.SymAppendsAndCounts :=
  fun _ _ hf =>
    ⟨fun hp => exec_of_body_raise hf (symBody_of_phase hp :),
      fun hp hl => exec_of_body_raise hf (symBody_of_text_full hp hl :),
      fun hp hl hx hn => exec_of_body_raise hf (symBody_of_table_full hp hl hx hn :),
      fun hp hl hx hn => exec_of_body_ok hf (symBody_of_new hp hl hx hn :),
      fun _ _ hp hl hj he hfirst => exec_of_body_ok hf (symBody_of_counted hp hl hj he hfirst :)⟩

/-! ### `SETW` (R102) -/

/-- Settles O23: the rule has no check. -/
theorem setwWritesTheWeightOperand : Obligations.SetwWritesTheWeightOperand :=
  fun imm s hf => exec_of_body_ok (i := .setw imm) (u := { s with wreg := zext imm }) hf rfl

/-! ### `MKLEAF` (R104) -/

theorem mkleafBody_of_phase (hp : s.phase ≠ .load) : mkleafBody x s = .error (.raise .seq) :=
  require_bind_of_false (beq_eq_false_iff_ne.2 hp)

theorem mkleafBody_of_dup (hp : s.phase = .load) (hx : ∃ r ∈ s.leaves, r.sym = x) :
    mkleafBody x s = .error (.raise .dup) := by
  obtain ⟨r, hr, hrx⟩ := hx
  have hfound : (s.findLeaf x).isNone = false := Bool.eq_false_iff.2 fun h => findLeaf_isNone.1 h r hr hrx
  exact (require_bind_of_true (beq_iff_eq.2 hp)).trans (require_bind_of_false hfound)

/-- In phase `LOAD` a symbol without leaf gets one where there is room. -/
theorem mkleafBody_of_fresh (hp : s.phase = .load) (hx : ∀ r ∈ s.leaves, r.sym ≠ x) :
    mkleafBody x s = require (s.nleaf < s.params.maxSyms) .cap >>= fun _ =>
      .ok ({ s with leaves := s.leaves ++ [⟨x, s.wreg⟩] }, okData (natData s.nleaf)) :=
  (require_bind_of_true (beq_iff_eq.2 hp)).trans (require_bind_of_true (findLeaf_isNone.2 hx))

theorem mkleafBody_of_full (hp : s.phase = .load) (hx : ∀ r ∈ s.leaves, r.sym ≠ x)
    (hn : s.params.maxSyms ≤ s.nleaf) : mkleafBody x s = .error (.raise .cap) :=
  (mkleafBody_of_fresh hp hx).trans (require_bind_of_false (decide_eq_false hn.not_gt))

theorem mkleafBody_of_room (hp : s.phase = .load) (hx : ∀ r ∈ s.leaves, r.sym ≠ x) (hn : s.nleaf < s.params.maxSyms) :
    mkleafBody x s = .ok ({ s with leaves := s.leaves ++ [⟨x, s.wreg⟩] }, okData (natData s.nleaf)) :=
  (mkleafBody_of_fresh hp hx).trans (require_bind_of_true (decide_eq_true hn))

/-- Settles O24: the phase, the leaves there are, and the room for one more decide, in that order. -/
theorem mkleafAllocatesALeaf : Obligations.MkleafAllocatesALeaf :=
  fun _ _ hf =>
    ⟨fun hp => exec_of_body_raise hf (mkleafBody_of_phase hp :),
      fun hp hx => exec_of_body_raise hf (mkleafBody_of_dup hp hx :),
      fun hp hx hn => exec_of_body_raise hf (mkleafBody_of_full hp hx hn :),
      fun hp hx hn => exec_of_body_ok hf (mkleafBody_of_room hp hx hn :)⟩

end Sys2Proof.Machine
end

section
/-! The priority queue by command: what `PQINS`, `PQEXT` and `PQSIZE` come to in every case, and the queue as a sorter
(41_priority_queue.md R110 to R118). -/

namespace Sys2Proof.Machine

variable {s : State} {n m : Nat}

/-! ### `PQINS` (R110) -/

theorem pqInsert_of_full (hc : s.params.maxSyms ≤ s.hsize) : pqInsert n s = .error (.raise .cap) :=
  require_bind_of_false (decide_eq_false hc.not_gt)

theorem pqinsBody_of_phase (hp : s.phase ≠ .load) : pqinsBody n s = .error (.raise .seq) :=
  require_bind_of_false (beq_eq_false_iff_ne.2 hp)

/-- An operand that is no loose node: unallocated, in the queue, or some node's child. -/
theorem pqinsBody_of_not_loose (hp : s.phase = .load)
    (hn : s.allocated n = false ∨ s.inQueue n = true ∨ s.hasParent n = true) :
    pqinsBody n s = .error (.raise .node) := by
  have hcheck : (s.allocated n && !s.inQueue n && !s.hasParent n) = false := by
    rcases hn with h | h | h <;> simp [h]
  exact (require_bind_of_true (beq_iff_eq.2 hp)).trans (require_bind_of_false hcheck)

/-- In phase `LOAD` a loose node goes to `pq_insert`. -/
theorem pqinsBody_of_loose (hp : s.phase = .load) (ha : s.allocated n = true) (hq : s.inQueue n = false)
    (hc : s.hasParent n = false) :
    pqinsBody n s = pqInsert n s >>= fun t => .ok (t, okData (natData t.hsize)) :=
  (require_bind_of_true (beq_iff_eq.2 hp)).trans (require_bind_of_true (by rw [ha, hq, hc]; rfl))

theorem pqinsBody_of_full (hp : s.phase = .load) (ha : s.allocated n = true) (hq : s.inQueue n = false)
    (hc : s.hasParent n = false) (hz : s.params.maxSyms ≤ s.hsize) : pqinsBody n s = .error (.raise .cap) := by
  rw [pqinsBody_of_loose hp ha hq hc, pqInsert_of_full hz, error_bind]

theorem pqinsBody_of_room (hp : s.phase = .load) (ha : s.allocated n = true) (hq : s.inQueue n = false)
    (hc : s.hasParent n = false) (hz : s.hsize < s.params.maxSyms) (hr : ∀ k ∈ n :: s.heap, s.hasRecord k = true) :
    pqinsBody n s =
      .ok ({ s with heap := heapInsert s.weigh s.heap n }, okData (natData (s.hsize + 1))) := by
  have hsize : State.hsize { s with heap := heapInsert s.weigh s.heap n } = s.hsize + 1 := heapInsert_length ..
  rw [pqinsBody_of_loose hp ha hq hc, pqInsert_eq_ok hz hr, ok_bind, hsize]

/-- Settles O25: the checks decide in the rule's order, and the queue after an insertion is `heapInsert`. -/
theorem pqinsInsertsTheNode : Obligations.PqinsInsertsTheNode :=
  fun n s hf =>
    ⟨fun hp => exec_of_body_raise hf (pqinsBody_of_phase hp :),
      fun hp hn => exec_of_body_raise hf (pqinsBody_of_not_loose hp hn :),
      fun hp ha hq hc hz => exec_of_body_raise hf (pqinsBody_of_full hp ha hq hc hz :),
      fun hp ha hq hc hz hr =>
        ⟨heapInsert s.weigh s.heap n.toNat, exec_of_body_ok hf (pqinsBody_of_room hp ha hq hc hz hr :),
          heapInsert_inserts .., heapInsert_perm .., fun hh => heapInsert_isHeap (heapInv_iff.1 hh)⟩⟩

/-! ### `PQEXT` (R112) -/

theorem pqextBody_of_phase (hp : s.phase ≠ .load) : pqextBody s = .error (.raise .seq) :=
  require_bind_of_false (beq_eq_false_iff_ne.2 hp)

theorem pqextBody_of_empty (hp : s.phase = .load) (hq : s.heap = []) : pqextBody s = .ok (s, noneData) := by
  have hz : s.hsize = 0 := List.length_eq_zero_iff.2 hq
  rw [pqextBody, require_bind_of_true (beq_iff_eq.2 hp), if_pos hz]

theorem pqextBody_of_root (hp : s.phase = .load) (hm : s.heap.head? = some m)
    (hr : ∀ k ∈ s.heap, s.hasRecord k = true) :
    pqextBody s = .ok ({ s with heap := heapRemove s.weigh s.heap }, okData (natData m)) := by
  have hz : s.hsize ≠ 0 := fun hz => by simp [List.length_eq_zero_iff.1 hz] at hm
  rw [pqextBody, require_bind_of_true (beq_iff_eq.2 hp), if_neg hz, pqExtract_eq_ok hm hr, ok_bind]

/-- Settles O26: the queue after an extraction is `heapRemove`, and the root of a heap is a minimum. -/
theorem pqextExtractsTheMinimum : Obligations.PqextExtractsTheMinimum :=
  fun s hf =>
    ⟨fun hp => exec_of_body_raise hf (pqextBody_of_phase hp :),
      fun hp hq => exec_of_body_ok hf (pqextBody_of_empty hp hq :),
      fun _ hp hm hr =>
        ⟨heapRemove s.weigh s.heap, exec_of_body_ok hf (pqextBody_of_root hp hm hr :), heapRemove_extracts ..,
          heapRemove_perm hm, fun hh => ⟨heapRemove_isHeap (heapInv_iff.1 hh), fun _ => (heapInv_iff.1 hh).head_le hm⟩⟩⟩

/-! ### `PQSIZE` (R116) -/

theorem exec_pqsize (s : State) : exec .pqsize s = .next (s.respond (okData (natData s.hsize))) :=
  exec_of_readClass rfl rfl

/-- Register 8 is `HSIZE` (46_result_readout.md R212). -/
theorem exec_rdreg_hsize (s : State) : exec (.rdreg 8#24) s = .next (s.respond (okData (natData s.hsize))) :=
  exec_of_readClass rfl rfl

/-- Settles O27: both commands answer `HSIZE`, and the queue is empty outside phase `LOAD`. -/
theorem pqsizeAnswersTheSize : Obligations.PqsizeAnswersTheSize := by
  refine fun s => ⟨exec_pqsize s, (exec_rdreg_hsize s).trans (exec_pqsize s).symm, fun h hp => ?_⟩
  have hz : s.hsize = 0 := List.length_eq_zero_iff.2 (h.phase.queueEmpty hp)
  rw [exec_pqsize, hz]
  rfl

/-! ### The queue as a sorter (R118) -/

/-- Distinct loose nodes inserted one after another: each answer is the new size. -/
theorem execAll_pqins : ∀ (ns : List Nat) {s : State}, Structural s → s.fault = none → s.phase = .load → ns.Nodup →
    (∀ n ∈ ns, s.allocated n = true ∧ s.hasParent n = false ∧ n ∉ s.heap) →
    ∃ q : List Nat, q.Perm (ns ++ s.heap) ∧
      execAll (ns.map fun n => .pqins (BitVec.ofNat 24 n)) s = some { s with
        heap := q
        responses := ((List.range ns.length).map fun k => okData (natData (s.hsize + (k + 1)))).reverse ++ s.responses }
  | [], s, _, _, _, _, _ => ⟨s.heap, .refl _, rfl⟩
  | n :: ns, s, h, hf, hl, hnd, hns => by
    obtain ⟨hn, hnd⟩ := List.nodup_cons.1 hnd
    obtain ⟨⟨ha, hc, hq⟩, hns⟩ := List.forall_mem_cons.1 hns
    have hins := heapInsert_perm s.weigh s.heap n
    have hx := exec_pqins h hf hl ha hc hq
    obtain ⟨q, hperm, hrun⟩ := execAll_pqins ns (h.exec hx) hf hl hnd fun k hk => by
      obtain ⟨hka, hkc, hkq⟩ := hns k hk
      have hkn : k ≠ n := ne_of_mem_of_not_mem hk hn
      exact ⟨hka, hkc, fun hk' => (List.mem_cons.1 (hins.subset hk')).elim hkn hkq⟩
    refine ⟨q, hperm.trans ((hins.append_left ns).trans List.perm_middle), ?_⟩
    rw [List.map_cons, execAll_cons hx, hrun]
    simp [State.setHeap, State.respond, State.hsize, List.range_succ_eq_map, Function.comp_def, Nat.add_assoc,
      Nat.add_comm 1]

/-- As many extractions as there are queued nodes answer those nodes, each one a minimum of what was left. -/
theorem execAll_pqext : ∀ (k : Nat) {s : State}, Structural s → s.fault = none → s.phase = .load → s.hsize = k →
    ∃ ms : List Nat, ms.Perm s.heap ∧ (ms.map s.weigh).Pairwise (· ≤ ·) ∧
      execAll (List.replicate k .pqext) s = some { s with
        heap := []
        responses := (ms.map fun n => okData (natData n)).reverse ++ s.responses }
  | 0, s, _, _, _, hk => by
    have hq : s.heap = [] := List.length_eq_zero_iff.1 hk
    have hs : s = { s with heap := [] } := by rw [← hq]
    exact ⟨[], hq ▸ .nil, .nil, congrArg some hs⟩
  | k + 1, s, h, hf, hl, hk => by
    obtain ⟨m, hm⟩ : ∃ m, s.heap.head? = some m :=
      ⟨_, List.head?_eq_some_head (List.ne_nil_of_length_eq_add_one hk)⟩
    have hrem := heapRemove_perm (w := s.weigh) hm
    have hx := exec_pqext h hf hl hm
    have hsize : (heapRemove s.weigh s.heap).length = k := heapRemove_length.trans (Nat.sub_eq_of_eq_add hk)
    obtain ⟨ms, hperm, hsorted, hrun⟩ := execAll_pqext k (h.exec hx) hf hl hsize
    have hms : (m :: ms).Perm s.heap := (hperm.cons m).trans hrem
    have hmin : ∀ n ∈ ms, s.weigh m ≤ s.weigh n := fun n hn =>
      (heapInv_iff.1 h.heap).head_le hm (hms.subset (List.mem_cons_of_mem m hn))
    refine ⟨m :: ms, hms, ?_, ?_⟩
    · exact List.pairwise_cons.2 ⟨List.forall_mem_map.2 hmin, hsorted⟩
    · rw [List.replicate_succ, execAll_cons hx, hrun]
      simp [State.setHeap, State.respond]

/-- Settles O28: the insertions queue exactly the nodes, and the extractions empty the queue in order. -/
theorem queueSorts : Obligations.QueueSorts := by
  intro s ns h hf hl hq hnd hns _
  obtain ⟨q, hperm, hins⟩ := execAll_pqins ns h hf hl hnd fun n hn =>
    ⟨(hns n hn).1, (hns n hn).2, by simp [hq]⟩
  rw [hq, List.append_nil] at hperm
  obtain ⟨ms, hms, hsorted, hext⟩ := execAll_pqext ns.length (Structural.execAll _ h hins) hf hl hperm.length_eq
  refine ⟨ms, hms.trans hperm, hsorted, ?_⟩
  have hz : s.hsize = 0 := List.length_eq_zero_iff.2 hq
  rw [execAll_append_of_some hins, hext, ← hq]
  simp [hz]

end Sys2Proof.Machine
end

section
/-! The tree builder by command: what `MERGE`, `FINISH` and `BUILD` come to in every case, and `BUILD` as the flow of the
commands that do its steps one by one (42_tree_builder.md R130 to R142). -/

namespace Sys2Proof.Machine

variable {s t : State}

/-! ### `MERGE` (R134) -/

theorem mergeBody_of_phase (hp : s.phase ≠ .load) : mergeBody s = .error (.raise .seq) :=
  require_bind_of_false (beq_eq_false_iff_ne.2 hp)

theorem mergeBody_of_short (hp : s.phase = .load) (hz : s.hsize < 2) : mergeBody s = .error (.raise .pq) :=
  (require_bind_of_true (beq_iff_eq.2 hp)).trans (require_bind_of_false (decide_eq_false hz.not_ge))

/-- In phase `LOAD` with two queued nodes the rule is `merge_step()`. -/
theorem mergeBody_of_two (hp : s.phase = .load) (hz : 2 ≤ s.hsize) :
    mergeBody s = mergeStep s >>= fun p => .ok (p.2, okData (natData p.1)) :=
  (require_bind_of_true (beq_iff_eq.2 hp)).trans (require_bind_of_true (decide_eq_true hz))

/-- `MERGE` of the two nodes extracted answers what `new_internal` does. -/
theorem mergeBody_eq {a b : Nat} (hp : s.phase = .load) (hz : 2 ≤ s.hsize) (hs : s.hsize ≤ s.params.maxSyms)
    (hr : ∀ n ∈ s.heap, s.hasRecord n = true) (ha : s.heap.head? = some a)
    (hb : (heapRemove s.weigh s.heap).head? = some b) :
    mergeBody s = newInternal (s.weigh a + s.weigh b) a (some b) (s.setHeap s.twoLess) >>= fun _ =>
      .ok (s.merged a b, okData (natData (s.params.maxSyms + s.nint))) := by
  rw [mergeBody_of_two hp hz, mergeStep_eq ha hb hr hs]
  cases newInternal (s.weigh a + s.weigh b) a (some b) (s.setHeap s.twoLess) <;> rfl

theorem weigh_merged_new {a b : Nat} (hw : s.weigh a + s.weigh b < 2 ^ 32) :
    (s.merged a b).weigh (s.params.maxSyms + s.nint) = s.weigh a + s.weigh b := by
  have hnew : (s.merged a b).weigh (s.params.maxSyms + s.nint) = (s.joined a b).weight.toNat :=
    (congrFun (weigh_setHeap _ _) _).trans (weigh_addInner_new s (s.joined a b))
  rw [hnew, State.joined, BitVec.toNat_ofNat, Nat.mod_eq_of_lt hw]

/-- A merge keeps the heap order: it extracts twice, and the nodes left keep their weights beside the new one. -/
theorem merged_heapInv {a b : Nat} (hr : ∀ n ∈ s.heap, s.hasRecord n = true)
    (hperm : (a :: b :: s.twoLess).Perm s.heap) (hh : HeapInv s) : HeapInv (s.merged a b) := by
  have hleft : IsHeap s.weigh s.twoLess := heapRemove_isHeap (heapRemove_isHeap (heapInv_iff.1 hh))
  have hkeep : ∀ n ∈ s.twoLess, (s.addInner (s.joined a b)).weigh n = s.weigh n := fun n hn =>
    (nodesGrow_addInner s _).weigh (hr n (hperm.subset (List.mem_cons_of_mem a (List.mem_cons_of_mem b hn))))
  exact heapInsert_isHeap (hleft.congr hkeep)

/-- The second node extracted weighs no less than the first, and no more than the nodes left. -/
theorem weigh_heads_le {a b : Nat} (ha : s.heap.head? = some a) (hb : (heapRemove s.weigh s.heap).head? = some b)
    (hh : HeapInv s) : s.weigh a ≤ s.weigh b ∧ ∀ n ∈ s.twoLess, s.weigh b ≤ s.weigh n := by
  have hrest : IsHeap s.weigh (heapRemove s.weigh s.heap) := heapRemove_isHeap (heapInv_iff.1 hh)
  refine ⟨(heapInv_iff.1 hh).head_le ha ((heapRemove_perm (w := s.weigh) ha).subset ?_), fun n hn => hrest.head_le hb ?_⟩
  · exact List.mem_cons_of_mem a (List.mem_of_head? hb)
  · exact (heapRemove_perm hb).subset (List.mem_cons_of_mem b hn)

/-- Settles O29: the phase, the size of the queue and `new_internal` decide, and the state after is `State.merged`. -/
theorem mergeJoinsTheTwoLightest : Obligations.MergeJoinsTheTwoLightest := by
  intro s hf
  refine ⟨fun hp => exec_of_body_raise hf (mergeBody_of_phase hp :),
    fun hp hz => exec_of_body_raise hf (mergeBody_of_short hp hz :), fun hp hz hs hr => ?_⟩
  obtain ⟨a, ha, hb⟩ := heap_cons_cons_of_two_le (h := s.heap) hz
  obtain ⟨b, hb⟩ := hb s.weigh
  have hperm : (a :: b :: s.twoLess).Perm s.heap := ((heapRemove_perm hb).cons a).trans (heapRemove_perm ha)
  have hbody := mergeBody_eq hp hz hs hr ha hb
  refine ⟨a, b, heapRemove s.weigh s.heap, s.twoLess, (s.merged a b).heap, ha, heapRemove_extracts .., hb,
    heapRemove_extracts .., hperm, weigh_heads_le ha hb, fun hc => ?_, fun hc hw => ?_, fun hc hw => ?_⟩
  · rw [newInternal_cap (s := s.setHeap s.twoLess) hc] at hbody
    exact exec_of_body_raise hf (hbody :)
  · rw [newInternal_wovf (s := s.setHeap s.twoLess) hc hw] at hbody
    exact exec_of_body_raise hf (hbody :)
  · rw [newInternal_eq_ok (s := s.setHeap s.twoLess) hc hw] at hbody
    exact ⟨s.merged a b, rfl, exec_of_body_ok hf (hbody :), weigh_merged_new hw, heapInsert_inserts ..,
      merged_heapInv hr hperm⟩

/-! ### `FINISH` (R137) -/

theorem finishBody_of_phase (hp : s.phase ≠ .load) : finishBody s = .error (.raise .seq) :=
  require_bind_of_false (beq_eq_false_iff_ne.2 hp)

theorem finishBody_of_not_one (hp : s.phase = .load) (hz : s.hsize ≠ 1) : finishBody s = .error (.raise .pq) :=
  (require_bind_of_true (beq_iff_eq.2 hp)).trans (require_bind_of_false (beq_eq_false_iff_ne.2 hz))

variable {x : Nat}

/-- In phase `LOAD` with one queued node that has a record, its kind decides. -/
theorem finishBody_of_one (hp : s.phase = .load) (hq : s.heap = [x]) (hr : s.hasRecord x = true) :
    finishBody s =
      if s.isLeaf x then wrap x (s.setHeap []) >>= fun p => .ok (p.2.plant (some p.1), okData (natData p.1))
      else .ok ((s.setHeap []).plant (some x), okData (natData x)) := by
  have hz : s.hsize = 1 := congrArg List.length hq
  rw [finishBody, require_bind_of_true (beq_iff_eq.2 hp), require_bind_of_true (beq_iff_eq.2 hz),
    pqExtract_last hq hr, ok_bind]
  rfl

/-- A last leaf goes to `new_internal`, which makes its wrapper. -/
theorem finishBody_of_leaf {r : LeafNode} (hp : s.phase = .load) (hq : s.heap = [x]) (hx : s.leafAt x = some r) :
    finishBody s = newInternal r.weight.toNat x none (s.setHeap []) >>= fun p =>
      .ok (p.2.plant (some p.1), okData (natData p.1)) := by
  have hr : s.hasRecord x = true := hasRecord_iff.2 (.inl ⟨r, hx⟩)
  have hleaf : s.isLeaf x = true := isLeaf_eq_true.2 (leafAt_eq_some.1 hx).1
  rw [finishBody_of_one hp hq hr, if_pos hleaf, wrap_eq ((nodesGrow_setHeap s []).hasRecord hr), weigh_setHeap,
    weigh_leaf hx]

theorem finishBody_of_leaf_room {r : LeafNode} (hp : s.phase = .load) (hq : s.heap = [x]) (hx : s.leafAt x = some r)
    (hc : s.nint < s.params.maxSyms) :
    finishBody s = .ok (((s.setHeap []).addInner ⟨r.weight, x, none⟩).plant (some (s.params.maxSyms + s.nint)),
      okData (natData (s.params.maxSyms + s.nint))) := by
  rw [finishBody_of_leaf hp hq hx, newInternal_eq_ok (s := s.setHeap []) hc r.weight.isLt, ok_bind,
    BitVec.ofNat_toNat, BitVec.setWidth_eq]
  rfl

theorem finishBody_of_inner {r : InnerNode} (hp : s.phase = .load) (hq : s.heap = [x]) (hx : s.innerAt x = some r) :
    finishBody s = .ok ((s.setHeap []).plant (some x), okData (natData x)) := by
  have hinner : s.isLeaf x = false := isLeaf_eq_false.2 (innerAt_eq_some.1 hx).1
  rw [finishBody_of_one hp hq (hasRecord_iff.2 (.inr ⟨r, hx⟩)), if_neg (Bool.not_eq_true _ ▸ hinner)]

/-- Settles O30: the phase, the size of the queue, the kind of the last node and the room for a wrapper decide. -/
theorem finishTakesTheRoot : Obligations.FinishTakesTheRoot :=
  fun s hf =>
    ⟨fun hp => exec_of_body_raise hf (finishBody_of_phase hp :),
      fun hp hz => exec_of_body_raise hf (finishBody_of_not_one hp hz :),
      fun x r hp hq hx =>
        ⟨fun hc => exec_of_body_raise hf ((finishBody_of_leaf hp hq hx).trans
            (by rw [newInternal_cap (s := s.setHeap []) hc, error_bind]) :),
          fun hc => exec_of_body_ok hf (finishBody_of_leaf_room hp hq hx hc :)⟩,
      fun _ _ hp hq hx => exec_of_body_ok hf (finishBody_of_inner hp hq hx :)⟩

/-! ### `BUILD` (R130) -/

theorem buildBody_of_used (hu : (s.phase == .load && s.nleaf == 0 && s.nint == 0 && s.hsize == 0) = false) :
    buildBody s = .error (.raise .seq) :=
  require_bind_of_false hu

/-- Settles O31: the three cases of `buildBody_spec` are told apart by the number of entries. -/
theorem buildMakesTheTree : Obligations.BuildMakesTheTree := by
  intro s h hf hp hlv hin hq
  rcases buildBody_spec h hp hlv hin hq with ⟨hft, hb, -⟩ | ⟨e, hft, u, rfl, hb, -⟩ |
    ⟨hz, u, he, hb, hu, hnint, hright, hweigh⟩
  · refine ⟨fun _ => exec_of_body_ok hf (hb :), fun e hft' => ?_, fun hz => ?_⟩
    · simp [hft] at hft'
    · simp [State.nsym, hft] at hz
  · refine ⟨fun hft' => ?_, fun e' hft' => ?_, fun hz => ?_⟩
    · simp [hft] at hft'
    · obtain rfl : e = e' := List.singleton_inj.1 (hft.symm.trans hft')
      exact exec_of_body_ok hf (hb :)
    · simp [State.nsym, hft] at hz
  · refine ⟨fun hft => ?_, fun e hft => ?_, fun _ => ?_⟩
    · simp [State.nsym, hft] at hz
    · simp [State.nsym, hft] at hz
    · exact ⟨u.inners, u, he, exec_of_body_ok hf (hb :), hnint, hright, hu.tree, hweigh⟩

/-! ### Capacity (R142) -/

theorem Structural.pqinsBody_ne_cap (h : Structural s) {n : Nat} : pqinsBody n s ≠ .error (.raise .cap) := by
  intro hb
  by_cases hp : s.phase = .load
  · by_cases hn : s.allocated n = false ∨ s.inQueue n = true ∨ s.hasParent n = true
    · cases (pqinsBody_of_not_loose hp hn).symm.trans hb
    · simp only [not_or, Bool.not_eq_false, Bool.not_eq_true] at hn
      obtain ⟨ha, hq, hc⟩ := hn
      have hroom := h.queue_room hp ha hc (inQueue_eq_false.1 hq)
      have hr : ∀ k ∈ n :: s.heap, s.hasRecord k = true := List.forall_mem_cons.2 ⟨h.hasRecord ha, h.queue_hasRecord⟩
      cases (pqinsBody_of_room hp ha hq hc hroom hr).symm.trans hb
  · cases (pqinsBody_of_phase hp).symm.trans hb

theorem Structural.mergeBody_ne_cap (h : Structural s) : mergeBody s ≠ .error (.raise .cap) := by
  intro hb
  by_cases hp : s.phase = .load
  · by_cases hz : 2 ≤ s.hsize
    · obtain ⟨a, b, -, -, -, hc⟩ := mergeStep_cases hz h.queue_hasRecord h.queue.size
      rw [mergeBody_of_two hp hz] at hb
      rcases hc with ⟨-, hfull⟩ | ⟨he, -, -⟩ | ⟨he, -, -⟩
      · have hcount := h.queue_count hp
        have hcap := h.memory.2.2.1
        omega
      · rw [he] at hb
        cases hb
      · rw [he] at hb
        cases hb
    · cases (mergeBody_of_short hp (Nat.lt_of_not_le hz)).symm.trans hb
  · cases (mergeBody_of_phase hp).symm.trans hb

theorem Structural.finishBody_ne_cap (h : Structural s) : finishBody s ≠ .error (.raise .cap) := by
  intro hb
  by_cases hp : s.phase = .load
  · by_cases hz : s.hsize = 1
    · obtain ⟨x, hq⟩ := List.length_eq_one_iff.1 hz
      rcases finishBody_spec h hp hq with ⟨-, he⟩ | ⟨-, he⟩ <;> cases he.symm.trans hb
    · cases (finishBody_of_not_one hp hz).symm.trans hb
  · cases (finishBody_of_phase hp).symm.trans hb

theorem Structural.buildBody_ne_cap (h : Structural s) : buildBody s ≠ .error (.raise .cap) := by
  intro hb
  by_cases hu : (s.phase == .load && s.nleaf == 0 && s.nint == 0 && s.hsize == 0) = true
  · simp only [Bool.and_eq_true, beq_iff_eq, State.nleaf, State.nint, State.hsize, List.length_eq_zero_iff] at hu
    obtain ⟨⟨⟨hp, hlv⟩, hin⟩, hq⟩ := hu
    rcases buildBody_spec h hp hlv hin hq with ⟨-, he, -⟩ | ⟨e, -, u, -, he, -⟩ | ⟨-, u, -, he, -⟩ <;>
      cases he.symm.trans hb
  · cases (buildBody_of_used (Bool.eq_false_iff.2 hu)).symm.trans hb

/-- Settles O33: none of the four rules finds a memory full. -/
theorem builderNeverExceedsCapacity : Obligations.BuilderNeverExceedsCapacity := by
  intro i s t h hf hx
  refine ⟨h.tree.nint_le_nleaf, fun hi hcap => ?_⟩
  have hbody : bodyOf i s ≠ .error (.raise .cap) := by
    rcases hi with ⟨n, rfl⟩ | rfl | rfl | rfl
    · exact h.pqinsBody_ne_cap
    · exact h.mergeBody_ne_cap
    · exact h.finishBody_ne_cap
    · exact h.buildBody_ne_cap
  rcases exec_next hx with ⟨hne, -, -⟩ | ⟨-, u, r, hb, rfl⟩ | ⟨-, f, hb, rfl⟩
  · exact hne hf
  · have hu : u.fault = some .cap := hcap
    rcases bodyOf_fault hb with ⟨hnone, -⟩ | hsame
    · cases hnone.symm.trans hu
    · cases (hsame.trans hf).symm.trans hu
  · obtain rfl : f = .cap := Option.some.inj hcap
    exact hbody hb

/-! ### The steps of `BUILD` -/

/-- Where `BUILD` stands on a table that is not empty: `s1` after step 1, `s2` after step 3, with node `x` queued. -/
structure BuildStages (s s1 s2 : State) (x : Nat) : Prop where
  leaves : insertLeaves s.ft s = .ok s1
  structural1 : Structural s1
  frame1 : s1 = { s with leaves := s1.leaves, heap := s1.heap }
  size : s1.hsize = s.nsym
  weight : s1.queuedWeight < 2 ^ 32
  merges : mergeAll s1.hsize s1 = .ok s2
  structural2 : Structural s2
  frame2 : s2 = { s with leaves := s2.leaves, inners := s2.inners, heap := s2.heap }
  last : s2.heap = [x]
  isLeaf : s2.isLeaf x = true ↔ s.nsym = 1

theorem exists_buildStages (h : Structural s) (hp : s.phase = .load) (hlv : s.leaves = []) (hin : s.inners = [])
    (hq : s.heap = []) (hft : s.ft ≠ []) : ∃ s1 s2 x, BuildStages s s1 s2 x := by
  have hn : 1 ≤ s.nsym := List.length_pos_iff.2 hft
  have hcap : s.nsym ≤ s.params.maxSyms := h.memory.2.1
  have hlen : s.tlen ≤ s.params.maxLen := h.memory.1
  have hmaxLen := h.params.2.2.1
  have hleaf0 : s.nleaf = 0 := congrArg List.length hlv
  obtain ⟨s1, hleaves, h1, hframe1, hsize, hmem, hweight⟩ := insertLeaves_spec s.ft h hp (by simp [hlv])
    h.frequency.distinct (by rwa [hleaf0, Nat.zero_add])
  have hsize : s1.hsize = s.nsym := by rw [hsize, State.hsize, hq, List.length_nil, Nat.zero_add, State.nsym]
  have hweight : s1.queuedWeight < 2 ^ 32 := by
    rw [hweight, h.frequency.total, State.queuedWeight, hq, List.map_nil, List.sum_nil]
    omega
  have hparams1 : s1.params = s.params := (congrArg State.params hframe1 :)
  have hnint1 : s1.nint = 0 := congrArg List.length ((congrArg State.inners hframe1).trans hin)
  obtain ⟨s2, hmerges, h2, hframe2, -, hone, hcount, -, hstay, htwo⟩ :=
    mergeAll_spec s1.hsize h1 ((congrArg State.phase hframe1).trans hp) (Nat.le_succ _) hweight
  have hparams2 : s2.params = s.params := (congrArg State.params hframe2).trans hparams1
  obtain ⟨x, hlast, hkind⟩ : ∃ x, s2.heap = [x] ∧ (s2.isLeaf x = true ↔ s.nsym = 1) := by
    by_cases hs : s.nsym = 1
    · obtain rfl := hstay (by omega)
      obtain ⟨x, hx⟩ := List.length_eq_one_iff.1 (hsize.trans hs)
      refine ⟨x, hx, iff_of_true (isLeaf_eq_true.2 ?_) hs⟩
      rcases hmem x (hx ▸ List.mem_singleton_self x) with hold | ⟨-, hnew⟩
      · simp [hq] at hold
      · rw [hleaf0, Nat.zero_add] at hnew
        exact hparams1 ▸ hnew.trans_le hcap
    · have hx := htwo (by omega)
      have hsize2 : s2.hsize = 1 := congrArg List.length hx
      refine ⟨_, hx, iff_of_false (Bool.not_eq_true _ ▸ isLeaf_eq_false.2 ?_) hs⟩
      rw [hparams1, hparams2]
      omega
  refine ⟨s1, s2, x, hleaves, h1, (insertLeaves_frame _ hleaves).1, hsize, hweight, hmerges, h2, ?_, hlast, hkind⟩
  rw [hframe2, hframe1]

/-- The last step of `BUILD` is `FINISH`: one entry leaves a leaf, which is wrapped, and more leave the root. -/
theorem BuildStages.buildBody_eq {s1 s2 : State} (b : BuildStages s s1 s2 x) (hp : s.phase = .load) (hlv : s.leaves = [])
    (hin : s.inners = []) (hq : s.heap = []) (hft : s.ft ≠ []) : buildBody s = finishBody s2 := by
  have hfresh : (s.phase == .load && s.nleaf == 0 && s.nint == 0 && s.hsize == 0) = true := by
    simp [hp, State.nleaf, State.nint, State.hsize, hlv, hin, hq]
  have hn : s.nsym ≠ 0 := mt List.length_eq_zero_iff.1 hft
  have hr : s2.hasRecord x = true := b.structural2.queue_hasRecord x (b.last ▸ List.mem_singleton_self x)
  have hp2 : s2.phase = .load := (congrArg State.phase b.frame2).trans hp
  rw [buildBody, require_bind_of_true hfresh, b.leaves, ok_bind, if_neg hn, finishBody_of_one hp2 b.last hr]
  by_cases hs : s.nsym = 1
  · have hstay : s1 = s2 := by
      have hm := b.merges
      rw [b.size, hs, mergeAll, if_neg (by rw [b.size, hs]; exact Nat.lt_irrefl 1)] at hm
      exact Except.ok.inj hm
    rw [if_pos hs, if_pos (b.isLeaf.2 hs), hstay, pqExtract_last b.last hr, ok_bind]
  · rw [if_neg hs, if_neg (mt b.isLeaf.1 hs), b.merges, ok_bind, pqExtract_last b.last hr, ok_bind]

/-! ### The flow by hand (R141) -/

/-- The state with another `WREG` and other responses: all that the flow by hand leaves different. -/
def State.withTrace (s : State) (w : Word) (rs : List Response) : State := { s with wreg := w, responses := rs }

theorem Structural.withTrace (h : Structural s) (w : Word) (rs : List Response) : Structural (s.withTrace w rs) :=
  h.of_sameCore rfl

/-- The commands that make and queue leaf `k` of a frequency entry. -/
def leafByHand (k : Nat) (e : FreqEntry) : List Instr :=
  [.setw (e.count.setWidth 24), .mkleaf e.sym, .pqins (BitVec.ofNat 24 k)]

/-- A command that answers `r`, whatever the trace, adds `r` to it. -/
theorem exec_withTrace {i : Instr} {r : Response} {w : Word} {rs : List Response} (hf : s.fault = none)
    (h : bodyOf i (s.withTrace w rs) = .ok (t.withTrace w rs, r)) :
    exec i (s.withTrace w rs) = .next (t.withTrace w (r :: rs)) :=
  exec_of_body_ok (s := s.withTrace w rs) hf h

theorem setWidth_setWidth_of_lt {c : Word} (hc : c.toNat < 2 ^ 24) : (c.setWidth 24).setWidth 32 = c := by
  refine BitVec.eq_of_toNat_eq ?_
  rw [BitVec.toNat_setWidth, BitVec.toNat_setWidth, Nat.mod_eq_of_lt hc, Nat.mod_eq_of_lt c.isLt]

theorem execAll_leafByHand {e : FreqEntry} (h : Structural s) (hf : s.fault = none) (hp : s.phase = .load)
    (hn : s.nleaf < s.params.maxSyms) (hx : ∀ r ∈ s.leaves, r.sym ≠ e.sym) (hc : e.count.toNat < 2 ^ 24) (w : Word)
    (rs : List Response) : ∃ w' rs',
      execAll (leafByHand s.nleaf e) (s.withTrace w rs) = some ((s.leafQueued e.leaf).withTrace w' rs') := by
  have hset : exec (.setw (e.count.setWidth 24)) (s.withTrace w rs) =
      .next (s.withTrace e.count (okData e.count :: rs)) := by
    rw [setwWritesTheWeightOperand _ (s.withTrace w rs) hf, setWidth_setWidth_of_lt hc]
    rfl
  have hmk : exec (.mkleaf e.sym) (s.withTrace e.count (okData e.count :: rs)) =
      .next ((s.addLeaf e.leaf).withTrace e.count (okData (natData s.nleaf) :: okData e.count :: rs)) :=
    exec_withTrace hf (mkleafBody_of_room (s := s.withTrace e.count (okData e.count :: rs)) hp hx hn)
  have hfresh : s.nleaf ∉ s.heap := fun hm =>
    Bool.false_ne_true ((nleaf_not_allocated hn).symm.trans (h.queue.allocated _ hm))
  have hins := exec_pqins (s := (s.addLeaf e.leaf).withTrace e.count (okData (natData s.nleaf) :: okData e.count :: rs))
    (n := s.nleaf) ((h.addLeaf hp hn hx).withTrace _ _) hf hp
    (allocated_iff.2 (.inl (by simp [State.withTrace, State.addLeaf, State.nleaf]))) (h.nleaf_parentless hn :) hfresh
  exact ⟨_, _, (execAll_cons hset _).trans ((execAll_cons hmk _).trans (execAll_cons hins _))⟩

theorem insertLeaves_cons {e : FreqEntry} {es : List FreqEntry} {u : State}
    (h : pqInsert s.nleaf (s.addLeaf e.leaf) = .ok u) : insertLeaves (e :: es) s = insertLeaves es u :=
  congrArg (· >>= insertLeaves es) h

/-- Step 1 by hand: making and queueing the leaves one after another, in the order of the table. -/
theorem execAll_leavesByHand : ∀ (es : List FreqEntry) {s t : State}, Structural s → s.fault = none → s.phase = .load →
    s.nleaf + es.length ≤ s.params.maxSyms → (s.leaves.map (·.sym) ++ es.map (·.sym)).Nodup →
    (∀ e ∈ es, e.count.toNat < 2 ^ 24) → insertLeaves es s = .ok t → ∀ w rs, ∃ w' rs',
      execAll (es.mapIdx fun i e => leafByHand (s.nleaf + i) e).flatten (s.withTrace w rs) = some (t.withTrace w' rs')
  | [], s, t, _, _, _, _, _, _, ht, w, rs => ⟨w, rs, by cases ht; rfl⟩
  | e :: es, s, t, h, hf, hp, hn, hd, hc, ht, w, rs => by
    rw [List.length_cons] at hn
    obtain ⟨hce, hces⟩ := List.forall_mem_cons.1 hc
    have hx : ∀ r ∈ s.leaves, r.sym ≠ e.sym := fun r hr =>
      (List.nodup_append.1 hd).2.2 _ (List.mem_map_of_mem hr) _ List.mem_cons_self
    obtain ⟨hins, hu, -⟩ := h.leafQueued (r := e.leaf) hp (by omega) hx
    have hnleaf : (s.leafQueued e.leaf).nleaf = s.nleaf + 1 := List.length_append
    have ht' : insertLeaves es (s.leafQueued e.leaf) = .ok t := by
      rwa [insertLeaves_cons hins] at ht
    obtain ⟨w', rs', hone⟩ := execAll_leafByHand h hf hp (by omega) hx hce w rs
    obtain ⟨w'', rs'', hrest⟩ := execAll_leavesByHand es hu hf hp
      (by rw [hnleaf]; show s.nleaf + 1 + es.length ≤ s.params.maxSyms; omega)
      (by
        show ((s.leaves ++ [e.leaf]).map (·.sym) ++ _).Nodup
        rwa [List.map_append, List.append_assoc])
      hces ht' w' rs'
    refine ⟨w'', rs'', ?_⟩
    rw [List.mapIdx_cons, List.flatten_cons, Nat.add_zero, execAll_append_of_some hone, ← hrest, hnleaf]
    simp only [Nat.add_right_comm, Nat.add_assoc]

/-! ### The procedures read neither `WREG` nor the responses -/

theorem pqInsert_withTrace {n : Nat} (h : pqInsert n s = .ok t) (w : Word) (rs : List Response) :
    pqInsert n (s.withTrace w rs) = .ok (t.withTrace w rs) := by
  obtain ⟨rfl, hc, hr⟩ := pqInsert_ok h
  exact pqInsert_eq_ok (s := s.withTrace w rs) hc hr

theorem pqExtract_withTrace {m : Nat} (h : pqExtract s = .ok (m, t)) (w : Word) (rs : List Response) :
    pqExtract (s.withTrace w rs) = .ok (m, t.withTrace w rs) := by
  obtain ⟨hm, rfl, hr⟩ := pqExtract_ok h
  exact pqExtract_eq_ok (s := s.withTrace w rs) hm hr

theorem newInternal_withTrace {v l n : Nat} {r : Option Nat} (h : newInternal v l r s = .ok (n, t)) (w : Word)
    (rs : List Response) : newInternal v l r (s.withTrace w rs) = .ok (n, t.withTrace w rs) := by
  rcases newInternal_cases v l r s with ⟨e, -⟩ | ⟨e, -, -⟩ | ⟨e, hc, hv⟩ <;> rw [e] at h <;> cases h
  exact newInternal_eq_ok (s := s.withTrace w rs) hc hv

theorem mergeStep_withTrace {n : Nat} (h : mergeStep s = .ok (n, t)) (w : Word) (rs : List Response) :
    mergeStep (s.withTrace w rs) = .ok (n, t.withTrace w rs) := by
  unfold mergeStep at h
  obtain ⟨⟨a, s1⟩, h1, h⟩ := bind_eq_ok.1 h
  obtain ⟨⟨b, s2⟩, h2, h⟩ := bind_eq_ok.1 h
  obtain ⟨⟨m, s3⟩, h3, h⟩ := bind_eq_ok.1 h
  obtain ⟨s4, h4, h⟩ := bind_eq_ok.1 h
  cases h
  have h3' : newInternal ((s2.withTrace w rs).weigh a + (s2.withTrace w rs).weigh b) a (some b) (s2.withTrace w rs) =
    .ok (n, s3.withTrace w rs) := newInternal_withTrace h3 w rs
  simp only [mergeStep, pqExtract_withTrace h1, pqExtract_withTrace h2, h3', pqInsert_withTrace h4, ok_bind]

/-! ### The merges and `FINISH` by hand -/

/-- Step 3 by hand: one `MERGE` less than there are queued nodes. -/
theorem execAll_merges : ∀ (k : Nat) {s t : State}, Structural s → s.fault = none → s.phase = .load →
    s.queuedWeight < 2 ^ 32 → s.hsize = k + 1 → mergeAll (k + 1) s = .ok t → ∀ w rs, ∃ rs',
      execAll (List.replicate k .merge) (s.withTrace w rs) = some (t.withTrace w rs')
  | 0, s, t, _, _, _, _, hz, ht, w, rs => by
    rw [mergeAll, if_neg (by omega)] at ht
    cases ht
    exact ⟨rs, rfl⟩
  | k + 1, s, t, h, hf, hp, hw, hz, ht, w, rs => by
    have h2 : 1 < s.hsize := by omega
    obtain ⟨a, b, hstep, hu, hweight⟩ := h.mergeStep hp h2 hw
    rw [mergeAll, if_pos h2, hstep, ok_bind] at ht
    have hsize := merged_hsize s a b h2
    have hbody : bodyOf .merge (s.withTrace w rs) =
        .ok ((s.merged a b).withTrace w rs, okData (natData (s.params.maxSyms + s.nint))) :=
      (mergeBody_of_two (s := s.withTrace w rs) hp h2).trans (by rw [mergeStep_withTrace hstep, ok_bind])
    obtain ⟨rs', hrest⟩ := execAll_merges k hu hf hp (hweight ▸ hw) (by omega) ht w _
    exact ⟨rs', (execAll_cons (exec_withTrace hf hbody) _).trans hrest⟩

/-- `FINISH` of the last node, whatever the trace. -/
theorem Structural.finishBody_withTrace (h : Structural s) (hp : s.phase = .load) (hq : s.heap = [x]) :
    ∃ (u : State) (n : Nat), u.root = some n ∧
      ∀ w rs, finishBody (s.withTrace w rs) = .ok (u.withTrace w rs, okData (natData n)) := by
  have hsize : s.hsize = 1 := congrArg List.length hq
  have hcount := h.queue_count hp
  have hcap := h.memory.2.2.1
  have hroom : s.nint < s.params.maxSyms := by omega
  rcases hasRecord_iff.1 (h.queue_hasRecord x (hq ▸ List.mem_singleton_self x)) with ⟨r, hx⟩ | ⟨r, hx⟩
  · exact ⟨((s.setHeap []).addInner ⟨r.weight, x, none⟩).plant (some (s.params.maxSyms + s.nint)), _, rfl,
      fun w rs => finishBody_of_leaf_room (s := s.withTrace w rs) hp hq hx hroom⟩
  · exact ⟨(s.setHeap []).plant (some x), x, rfl, fun w rs => finishBody_of_inner (s := s.withTrace w rs) hp hq hx⟩

/-- A count of the table fits an operand of `SETW` (00_scope.md R11; 10_state.md R38). -/
theorem Structural.count_lt (h : Structural s) {e : FreqEntry} (he : e ∈ s.ft) : e.count.toNat < 2 ^ 24 := by
  have hcount := h.frequency.counts e he
  have hle : s.txt.count e.sym ≤ s.tlen := List.count_le_length
  have hlen := h.memory.1
  have hmax := h.params.2.2.1
  omega

/-- Settles O32: each step of `BUILD` is what its commands do by hand, but for `WREG` and the responses. -/
theorem buildIsTheManualFlow : Obligations.BuildIsTheManualFlow := by
  intro s t h hf hp hlv hin hq hft hx
  obtain ⟨s1, s2, x, b⟩ := exists_buildStages h hp hlv hin hq hft
  have hf1 : s1.fault = none := (congrArg State.fault b.frame1).trans hf
  have hp1 : s1.phase = .load := (congrArg State.phase b.frame1).trans hp
  have hp2 : s2.phase = .load := (congrArg State.phase b.frame2).trans hp
  have hf2 : s2.fault = none := (congrArg State.fault b.frame2).trans hf
  have hwreg : s2.wreg = s.wreg := (congrArg State.wreg b.frame2 :)
  have hresponses : s2.responses = s.responses := (congrArg State.responses b.frame2 :)
  have hleaf0 : s.nleaf = 0 := congrArg List.length hlv
  have hn : s.nsym - 1 + 1 = s.nsym := Nat.sub_add_cancel (List.length_pos_iff.2 hft)
  obtain ⟨w, rs, hleaves⟩ := execAll_leavesByHand s.ft h hf hp (by rw [hleaf0, Nat.zero_add]; exact h.memory.2.1)
    (by rw [hlv]; exact h.frequency.distinct) (fun e he => h.count_lt he) b.leaves s.wreg s.responses
  obtain ⟨rs', hmerges⟩ := execAll_merges (s.nsym - 1) b.structural1 hf1 hp1 b.weight (b.size.trans hn.symm)
    (by rw [hn, ← b.size]; exact b.merges) w rs
  obtain ⟨u, n, hroot, hfinish⟩ := b.structural2.finishBody_withTrace hp2 b.last
  have hbuild : bodyOf .build s = .ok (u.withTrace s2.wreg s2.responses, okData (natData n)) :=
    (b.buildBody_eq hp hlv hin hq hft).trans (hfinish _ _)
  have hlast : bodyOf .finish (s2.withTrace w rs') = .ok (u.withTrace w rs', okData (natData n)) := hfinish w rs'
  obtain rfl : _ = t := Host.Outcome.next.inj ((exec_of_body_ok hf hbuild).symm.trans hx)
  refine ⟨u.withTrace w (okData (natData n) :: rs'), ?_, ?_⟩
  · simp only [hleaf0, Nat.zero_add] at hleaves
    have hqueue := (execAll_append_of_some hleaves _).trans hmerges
    exact (execAll_append_of_some hqueue _).trans (execAll_cons (exec_withTrace hf2 hlast) _)
  · simp [State.withTrace, State.respond, hwreg, hresponses, hroot, nodeData]

end Sys2Proof.Machine
end

section
/-! The code table by command: what `GEN` writes and nothing else rewrites, and what `LOOKUP`, `RDCLEN`, `RDCODE` and
`RDBITS` answer (43_code_table.md R150 to R159; 44_encoder.md R177). -/

namespace Sys2Proof.Machine

variable {s t : State}

/-! ### `GEN` (R150) -/

theorem genBody_of_phase (hp : s.phase ≠ .tree) : genBody s = .error (.raise .seq) :=
  require_bind_of_false (beq_eq_false_iff_ne.2 hp)

theorem Structural.generated_length (h : Structural s) (n : Nat) : (s.generated n).length = s.params.maxSyms := by
  obtain ⟨-, -, -, -, -, hcode, -⟩ := h.memory
  exact (writeCodes_length _ _).trans hcode

/-- Below a root, `GEN` answers the number of codes in the table it writes. -/
theorem genBody_of_root (h : Structural s) (hp : s.phase = .tree) {n : Nat} (hr : s.root = some n) :
    genBody s = .ok ({ s with code := s.generated n, phase := .code },
      okData (natData ((s.generated n).countP (· ≠ [])))) := by
  rw [genBody_spec h hp hr, generated_count h hp hr]

/-- Settles O35: the table below a root is `State.generated`. -/
theorem genWritesTheRootToLeafPaths : Obligations.GenWritesTheRootToLeafPaths :=
  fun s h hf =>
    ⟨fun hp => exec_of_body_raise hf (genBody_of_phase hp :),
      fun hp hr => exec_of_body_ok hf (genBody_noRoot hp hr :),
      fun n hp hr =>
        ⟨s.generated n, exec_of_body_ok hf (genBody_of_root h hp hr :), h.generated_length n,
          fun _ hi => generated_spec h hp hr hi⟩⟩

/-! ### `LOOKUP` and `RDCLEN` (R153, R155) -/

theorem exec_lookup (x : Symbol) (s : State) :
    exec (.lookup x) s = .next (s.respond (okOrNone ((s.codedLeaf x).map natData))) :=
  exec_of_readClass rfl rfl

theorem exec_rdclen (i : BitVec 24) (s : State) :
    exec (.rdclen i) s = .next (s.respond (okOrNone (s.codeLength i.toNat))) :=
  exec_of_readClass rfl rfl

theorem codedLeaf_of_code {x : Symbol} {i : Nat} (hx : s.findLeaf x = some i) (hc : s.codeAt i ≠ []) :
    s.codedLeaf x = some i := by
  rw [State.codedLeaf, hx, Option.filter_some, if_pos (bne_iff_ne.2 hc)]

theorem codedLeaf_of_noCode {x : Symbol} {i : Nat} (hx : s.findLeaf x = some i) (hc : s.codeAt i = []) :
    s.codedLeaf x = none := by
  rw [State.codedLeaf, hx, Option.filter_some, hc]
  rfl

theorem codedLeaf_of_noLeaf {x : Symbol} (hx : s.findLeaf x = none) : s.codedLeaf x = none := by
  rw [State.codedLeaf, hx, Option.filter_none]

/-- Settles O36: `LOOKUP` answers the coded leaf of the symbol, `RDCLEN` the length of an allocated leaf's code. -/
theorem lookupAndCodeLengthAnswer : Obligations.LookupAndCodeLengthAnswer := by
  refine fun s => ⟨fun x => ⟨fun i hx hc => ?_, fun i hx hc => ?_, fun hx => ?_⟩, fun i => ⟨fun hi => ?_, fun hi => ?_⟩⟩
  · rw [exec_lookup, codedLeaf_of_code hx hc]
    rfl
  · rw [exec_lookup, codedLeaf_of_noCode hx hc]
    rfl
  · rw [exec_lookup, codedLeaf_of_noLeaf hx]
    rfl
  · rw [exec_rdclen, State.codeLength, if_neg hi.not_gt]
    rfl
  · rw [exec_rdclen, State.codeLength, if_pos hi]
    rfl

/-! ### `RDCODE` and `RDBITS` (R157, R177) -/

theorem exec_rdcode (i w : BitVec 12) (s : State) :
    exec (.rdcode i w) s = .next (s.respond (okOrNone (s.codeWindow i.toNat w.toNat))) :=
  exec_of_readClass rfl rfl

theorem exec_rdbits (w : BitVec 24) (s : State) :
    exec (.rdbits w) s = .next (s.respond (okOrNone (s.bitsWindow w.toNat))) :=
  exec_of_readClass rfl rfl

theorem codeWindow_of_beyond {i w : Nat} (h : s.nleaf ≤ i ∨ (s.codeAt i).length ≤ 32 * w) :
    s.codeWindow i w = none :=
  if_neg fun ⟨hi, hw⟩ => h.elim hi.not_ge hw.not_ge

theorem codeWindow_of_within {i w : Nat} (hi : i < s.nleaf) (hw : 32 * w < (s.codeAt i).length) :
    s.codeWindow i w = some (window (s.codeAt i) w) :=
  if_pos ⟨hi, hw⟩

theorem bitsWindow_of_beyond {w : Nat} (h : s.blen ≤ 32 * w) : s.bitsWindow w = none := if_neg h.not_gt

theorem bitsWindow_of_within {w : Nat} (h : 32 * w < s.blen) : s.bitsWindow w = some (window s.bits w) := if_pos h

/-- Settles O37: both commands answer a `window` of their string, which has the string bits of `window_getLsbD`. -/
theorem windowsCarryTheStringBits : Obligations.WindowsCarryTheStringBits := by
  refine fun s => ⟨fun i w => ⟨fun h => ?_, fun hi hw => ?_⟩, fun w => ⟨fun h => ?_, fun hw => ?_⟩⟩
  · rw [exec_rdcode, codeWindow_of_beyond h]
    rfl
  · refine ⟨window (s.codeAt i.toNat) w.toNat, ?_, fun b hb => window_getLsbD _ _ hb⟩
    rw [exec_rdcode, codeWindow_of_within hi hw]
    rfl
  · rw [exec_rdbits, bitsWindow_of_beyond h]
    rfl
  · refine ⟨window s.bits w.toNat, ?_, fun b hb => window_getLsbD _ _ hb⟩
    rw [exec_rdbits, bitsWindow_of_within hw]
    rfl

/-! ### What writes the table (R159; 10_state.md R30) -/

/-- The code table is written by `GEN`, and emptied by `CLR` (20_memory.md R60). -/
theorem code_bodyOf {i : Instr} {r : Response} (hb : bodyOf i s = .ok (t, r)) (hclr : i ≠ .clr) (hgen : i ≠ .gen) :
    t.code = s.code := by
  rw [(bodyOf_frame hb).1]
  cases i with
  | clr => exact absurd rfl hclr
  | gen => exact absurd rfl hgen
  | _ => rfl

/-- A step that executes `GEN` takes the word of `GEN`. -/
theorem input_of_decode_gen {w : Word} {rest : List HostAction} (hin : s.input = .command w :: rest)
    (hd : decode s.params.symW w = .ok .gen) : s.input = .command 0x40000000#32 :: rest := by
  have hw : encode .gen = w := (encode_of_decode hd).1
  rw [hin, ← hw]
  rfl

/-- Settles O48: a step runs `CLR`, or `GEN` along the phase table, or another rule, and no other rule writes the
table. -/
theorem codeTableIsReadOnly : Obligations.CodeTableIsReadOnly := by
  intro s t hs
  rcases step_effect hs with hc | ⟨rest, hin, -⟩ | ⟨w, rest, i, u, r, hin, hd, hb, hc⟩
  · exact .inr (.inl (congrArg State.code hc :))
  · exact .inl ⟨rest, .inl hin⟩
  · by_cases hclr : i = .clr
    · subst hclr
      exact .inl ⟨rest, .inr (input_of_decode_clr hin hd)⟩
    by_cases hgen : i = .gen
    · subst hgen
      obtain ⟨he, hl, -⟩ := bodyOf_frame hb
      exact .inr (.inr ⟨beq_iff_eq.1 hl, hc.phase.trans (written_phase he :), rest, input_of_decode_gen hin hd⟩)
    · exact .inr (.inl ((congrArg State.code hc :).trans (code_bodyOf hb hclr hgen :)))

end Sys2Proof.Machine
end

section
/-! The encoder by command: what `ENCINIT`, `ENCS` and `ENC` come to in every case (44_encoder.md R170 to R175). -/

namespace Sys2Proof.Machine

variable {s : State} {x : Symbol}

/-! ### `ENCINIT` (R170) -/

theorem encinitBody_of_phase (hp : s.phase ≠ .code) : encinitBody s = .error (.raise .seq) :=
  require_bind_of_false (beq_eq_false_iff_ne.2 hp)

theorem encinitBody_of_code (hp : s.phase = .code) : encinitBody s = .ok ({ s with bits := [] }, okData 0#32) :=
  require_bind_of_true (beq_iff_eq.2 hp)

/-- Settles O38: the phase is the rule's only check. -/
theorem encinitEmptiesTheStream : Obligations.EncinitEmptiesTheStream :=
  fun _ hf =>
    ⟨fun hp => exec_of_body_raise hf (encinitBody_of_phase hp :),
      fun hp => exec_of_body_ok hf (encinitBody_of_code hp :)⟩

/-! ### `ENCS` (R172, R173) -/

theorem codeOfSymbol_of_findLeaf {i : Nat} (hx : s.findLeaf x = some i) : s.codeOfSymbol x = s.codeAt i := by
  by_cases hc : s.codeAt i = []
  · rw [hc, codeOfSymbol_eq_nil, codedLeaf_of_noCode hx hc]
  · rw [codeOfSymbol_of_codedLeaf (codedLeaf_of_code hx hc)]

theorem codeOfSymbol_of_noLeaf (hx : s.findLeaf x = none) : s.codeOfSymbol x = [] :=
  codeOfSymbol_eq_nil.2 (codedLeaf_of_noLeaf hx)

theorem encsBody_of_phase (hp : s.phase ≠ .code) : encsBody x s = .error (.raise .seq) :=
  require_bind_of_false (beq_eq_false_iff_ne.2 hp)

/-- In phase `CODE` the rule of `ENCS` is `encs_step`, its length answered. -/
theorem encsBody_eq (hp : s.phase = .code) :
    encsBody x s = encsStep x s >>= fun p => .ok (p.2, okData (natData p.1)) :=
  require_bind_of_true (beq_iff_eq.2 hp)

theorem encsBody_noCode (hp : s.phase = .code) (hx : s.codeOfSymbol x = []) :
    encsBody x s = .error (.raise .nosym) := by
  rw [encsBody_eq hp, encsStep_noCode hx, error_bind]

theorem encsBody_full (hp : s.phase = .code) (hx : s.codeOfSymbol x ≠ [])
    (hb : s.params.maxBits < s.blen + (s.codeOfSymbol x).length) : encsBody x s = .error (.raise .cap) := by
  rw [encsBody_eq hp, encsStep_full hx hb, error_bind]

theorem encsBody_appends (hp : s.phase = .code) (hx : s.codeOfSymbol x ≠ [])
    (hb : s.blen + (s.codeOfSymbol x).length ≤ s.params.maxBits) :
    encsBody x s =
      .ok (s.setBits (s.bits ++ s.codeOfSymbol x), okData (natData (s.codeOfSymbol x).length)) := by
  rw [encsBody_eq hp, encsStep_appends hx hb, ok_bind]

/-- Settles O39: the phase, the code of the symbol and the room for it decide, in that order. -/
theorem encsAppendsTheCode : Obligations.EncsAppendsTheCode := by
  refine fun x s hf => ⟨fun hp => exec_of_body_raise hf (encsBody_of_phase hp :),
    fun hp hx => exec_of_body_raise hf (encsBody_noCode hp (codeOfSymbol_of_noLeaf hx) :), fun i hp hx => ?_⟩
  rw [← codeOfSymbol_of_findLeaf hx]
  exact ⟨fun hc => exec_of_body_raise hf (encsBody_noCode hp hc :),
    fun hc hb => exec_of_body_raise hf (encsBody_full hp hc hb :),
    fun hc hb => exec_of_body_ok hf (encsBody_appends hp hc hb :)⟩

/-! ### `ENC` (R175) -/

theorem encBody_of_phase (hp : s.phase ≠ .code) : encBody s = .error (.raise .seq) :=
  require_bind_of_false (beq_eq_false_iff_ne.2 hp)

/-- The symbols before `x` are encoded, and what stops the step of `x` stops `ENC`, whatever text follows. -/
theorem encBody_stops {before after : List Symbol} {e : Stop} (hp : s.phase = .code)
    (htxt : s.txt = before ++ x :: after)
    (hcodes : ∀ y ∈ before, s.codeOfSymbol y ≠ [])
    (hroom : (before.flatMap s.codeOfSymbol).length ≤ s.params.maxBits)
    (hstop : encsStep x (s.setBits (before.flatMap s.codeOfSymbol)) = .error e) : encBody s = .error e := by
  have hbefore : encodeText before (s.setBits []) = .ok (s.setBits (before.flatMap s.codeOfSymbol)) :=
    encodeText_eq_ok before (s := s.setBits []) hcodes ((Nat.zero_add _).trans_le hroom)
  have hx : encodeText (x :: after) (s.setBits (before.flatMap s.codeOfSymbol)) = .error e := by
    rw [encodeText, hstop, error_bind]
  rw [encBody_eq hp, htxt, encodeText_append, hbefore, ok_bind, hx, error_bind]

/-- Settles O40: a text whose codes fit is encoded, and else the step of the first symbol without a fitting code stops
the rule. -/
theorem encConcatenatesTheCodes : Obligations.EncConcatenatesTheCodes :=
  fun s hf =>
    ⟨fun hp => exec_of_body_raise hf (encBody_of_phase hp :),
      fun hp hx hb => exec_enc hf hp hx hb,
      fun before _ _ hp htxt hcodes hroom =>
        have hcode := codeOfSymbol_setBits (s := s) (before.flatMap s.codeOfSymbol)
        ⟨fun hc => exec_of_body_raise hf
            (encBody_stops hp htxt hcodes hroom (encsStep_noCode (by rwa [hcode])) :),
          fun hc hb => exec_of_body_raise hf
            (encBody_stops hp htxt hcodes hroom (encsStep_full (by rwa [hcode]) (by rwa [hcode])) :)⟩⟩

end Sys2Proof.Machine
end

section
/-! The decoder by command: what `DECINIT`, `DECB` and `DEC` come to in every case, and that `DEC` undoes `ENC`
(45_decoder.md R190 to R198, R201). -/

namespace Sys2Proof.Machine

variable {s t : State} {b : Bool}

theorem decoderPhase_eq_false : s.decoderPhase = false ↔ s.phase = .load := by
  rw [← Bool.not_eq_true, decoderPhase_iff, not_not]

/-! ### `DECINIT` (R190) -/

theorem decinitBody_of_load (hp : s.phase = .load) : decinitBody s = .error (.raise .seq) :=
  require_bind_of_false (decoderPhase_eq_false.2 hp)

theorem decinitBody_of_built (hp : s.phase ≠ .load) : decinitBody s = .ok (s.restartDecoder, okData 0#32) :=
  require_bind_of_true (decoderPhase_iff.2 hp)

/-- Settles O41: the phase is the rule's only check. -/
theorem decinitRestartsTheDecoder : Obligations.DecinitRestartsTheDecoder :=
  fun _ hf =>
    ⟨fun hp => exec_of_body_raise hf (decinitBody_of_load hp :),
      fun hp => exec_of_body_ok hf (decinitBody_of_built hp :)⟩

/-! ### `DECB` (R192, R193) -/

theorem decbBody_of_load (hp : s.phase = .load) : decbBody b s = .error (.raise .seq) :=
  require_bind_of_false (decoderPhase_eq_false.2 hp)

/-- Outside phase `LOAD` the rule of `DECB` is `decb_step`. -/
theorem decbBody_eq (hp : s.phase ≠ .load) : decbBody b s = decbStep b s :=
  require_bind_of_true (decoderPhase_iff.2 hp)

theorem exec_decb_of_ok {u : State} {r : Response} (hf : s.fault = none) (hp : s.phase ≠ .load)
    (h : decbStep b s = .ok (u, r)) : exec (.decb b) s = .next (u.respond r) :=
  exec_of_body_ok hf ((decbBody_eq hp).trans h :)

theorem exec_decb_of_raise {f : FaultCode} (hf : s.fault = none) (hp : s.phase ≠ .load)
    (h : decbStep b s = .error (.raise f)) : exec (.decb b) s = .next (s.raiseFault (encode (.decb b)) f) :=
  exec_of_body_raise hf ((decbBody_eq hp).trans h :)

theorem child_of_noRight {r : InnerNode} (hb : b = true) (hr : r.right = none) : r.child b = none := by
  rw [InnerNode.child, if_pos hb, hr]

/-- Settles O42: the phase, the root, the child the bit leads to, its kind and the room in `OUT` decide, in that
order. -/
theorem decbMakesOneTransition : Obligations.DecbMakesOneTransition := by
  refine fun b s hf => ⟨fun hp => exec_of_body_raise hf (decbBody_of_load hp :),
    fun hp hr => exec_decb_of_ok hf hp (decbStep_noRoot hr), fun n c r hp hr hc hi =>
      ⟨fun hb hright => ?_, fun m hm => ?_⟩⟩
  · exact exec_decb_of_raise hf hp (decbStep_noChild hr hc hi (child_of_noRight hb hright))
  · have hchild : r.child b = some m := hm
    rw [← hr]
    exact ⟨fun hl => exec_decb_of_ok hf hp (decbStep_inner hr hc hi hchild hl),
      fun hl hfull => exec_decb_of_raise hf hp (decbStep_full hr hc hi hchild hl hfull),
      fun l hl hroom => exec_decb_of_ok hf hp (decbStep_leaf hr hc hi hchild hl hroom)⟩

/-! ### `DEC` (R195 to R198) -/

theorem decBody_of_load (hp : s.phase = .load) : decBody s = .error (.raise .seq) :=
  require_bind_of_false (decoderPhase_eq_false.2 hp)

theorem decBody_of_noRoot (hp : s.phase ≠ .load) (hr : s.root = none) :
    decBody s = .ok (s.restartDecoder, okData 0#32) := by
  rw [decBody_eq hp, decodeBits_noRoot s.bits (s := s.restartDecoder) hr, ok_bind]
  rfl

/-- Settles O43: the phase and the root decide, and then whether `OUT` has room for the leaves of the stream. -/
theorem decDecodesTheStream : Obligations.DecDecodesTheStream := by
  refine fun s h hf => ⟨fun hp => exec_of_body_raise hf (decBody_of_load hp :), fun hp hr => ?_,
    fun ids hp hr hids hb => ?_⟩
  · rw [← hr]
    exact exec_of_body_ok hf (decBody_of_noRoot hp hr :)
  · obtain ⟨n, hn⟩ := Option.ne_none_iff_exists'.1 hr
    obtain ⟨hroom, hfull⟩ := h.decBody hp hn hids hb
    exact ⟨fun hL => exec_of_body_ok hf (hroom hL :), fun hL => exec_of_body_raise hf (hfull hL :)⟩

/-- Everything `DEC` can come to: `F_SEQ` by its phase, `F_CAP`, or a response with the decoder back at the root, since
the stream is a run of whole codes. -/
theorem exec_dec_cases (h : Inv s) (hf : s.fault = none) :
    exec .dec s = .next (s.raiseFault (encode .dec) .seq) ∨ exec .dec s = .next (s.raiseFault (encode .dec) .cap) ∨
      ∃ out r, exec .dec s = .next ({ s with cur := s.root, out := out }.respond r) := by
  by_cases hp : s.phase = .load
  · exact .inl (exec_of_body_raise hf (decBody_of_load hp :))
  rcases Option.eq_none_or_eq_some s.root with hr | ⟨n, hr⟩
  · exact .inr (.inr ⟨[], okData 0#32, exec_of_body_ok hf (decBody_of_noRoot hp hr :)⟩)
  · obtain ⟨ids, hids, hb⟩ := h.bits
    obtain ⟨hroom, hfull⟩ := h.decBody hp hr hids hb
    rcases Nat.lt_or_ge s.params.maxLen ids.length with hL | hL
    · exact .inr (.inl (exec_of_body_raise hf (hfull hL :)))
    · exact .inr (.inr ⟨s.symbolsOf ids, okData (natData ids.length), exec_of_body_ok hf (hroom hL :)⟩)

/-- Settles O44: the faults of `DEC` are `F_SEQ` and `F_CAP`, and a run of whole codes ends at the root. -/
theorem decNeverMeetsAnAbsentChild : Obligations.DecNeverMeetsAnAbsentChild := by
  intro s t h hf ht
  rcases exec_dec_cases h hf with e | e | ⟨out, r, e⟩ <;> obtain rfl := Host.Outcome.next.inj (e.symm.trans ht)
  · exact ⟨by simp, by simp⟩
  · exact ⟨by simp, by simp⟩
  · exact ⟨by simp [hf], fun _ => ⟨rfl, bne_self_eq_false s.root⟩⟩

/-! ### `DEC` after `ENC` (R201) -/

/-- When the rule of `ENC` responds, every symbol of the text has a code and `BITS` is their concatenation. -/
theorem encBody_ok {r : Response} (h : encBody s = .ok (t, r)) :
    s.phase = .code ∧ (∀ x ∈ s.txt, s.codeOfSymbol x ≠ []) ∧ t = s.setBits (s.txt.flatMap s.codeOfSymbol) := by
  obtain ⟨_, hp, -⟩ := bind_eq_ok.1 h
  have hp := requirePhase hp
  rw [encBody_eq hp] at h
  obtain ⟨u, hu, h⟩ := bind_eq_ok.1 h
  obtain ⟨rfl, -⟩ := Prod.mk.inj (Except.ok.inj h)
  obtain ⟨hbits, hcodes, -⟩ := encodeText_ok s.txt hu
  rw [codeOfSymbol_setBits] at hbits hcodes
  exact ⟨hp, hcodes, hbits⟩

theorem exec_enc_ok (hf : s.fault = none) (h : exec .enc s = .next t) (ht : t.fault = none) :
    s.phase = .code ∧ (∀ x ∈ s.txt, s.codeOfSymbol x ≠ []) ∧
      ∃ r, t = (s.setBits (s.txt.flatMap s.codeOfSymbol)).respond r := by
  rcases exec_next h with ⟨hfault, -⟩ | ⟨-, u, r, hb, rfl⟩ | ⟨-, f, -, rfl⟩
  · exact absurd hf hfault
  · obtain ⟨hp, hcodes, rfl⟩ := encBody_ok hb
    exact ⟨hp, hcodes, r, rfl⟩
  · simp at ht

/-- Settles O45: `ENC` succeeds only when every symbol of the text has a code, and decoding their codes gives the
text. -/
theorem decodingTheEncodedTextGivesItBack : Obligations.DecodingTheEncodedTextGivesItBack := by
  intro s t h hf henc ht
  have hinv : Inv t := h.exec rfl henc
  obtain ⟨hp, hcodes, r, rfl⟩ := exec_enc_ok hf henc ht
  have hdec := exec_dec_of_encoded hinv ht (ne_of_eq_of_ne hp (by decide)) hcodes rfl
  exact ⟨_, hdec, hf, rfl, rfl, rfl, rfl, beq_self_eq_true s.txt, bne_self_eq_false s.root⟩

end Sys2Proof.Machine
end

section
/-! The read-out commands: registers and views, elements of the memories, and node fields (45_decoder.md R199;
46_result_readout.md R212 to R218). -/

namespace Sys2Proof.Machine

variable {s : State}

/-! ### `RDREG` (R212) -/

theorem exec_rdreg (r : BitVec 24) (s : State) :
    exec (.rdreg r) s = .next (s.respond (okOrNone ((regOfNumber r.toNat).map s.readReg))) :=
  exec_of_readClass rfl rfl

/-- Every assigned register number with the value read under it (10_state.md R22, R24). -/
def State.registerTable (s : State) : List (Nat × Word) :=
  (List.range 21).filterMap fun k => (regOfNumber k).map fun reg => (k, s.readReg reg)

theorem readReg_of_mem_registerTable {k : Nat} {d : Word} (h : (k, d) ∈ s.registerTable) :
    (regOfNumber k).map s.readReg = some d := by
  obtain ⟨j, -, hj⟩ := List.mem_filterMap.1 h
  obtain ⟨reg, hreg, hpair⟩ := Option.map_eq_some_iff.1 hj
  obtain ⟨rfl, rfl⟩ := Prod.mk.inj hpair
  rw [hreg]
  rfl

theorem readReg_of_lookup_registerTable {k : Nat} {d : Word} (h : s.registerTable.lookup k = some d) :
    (regOfNumber k).map s.readReg = some d := by
  obtain ⟨before, after, htable, -⟩ := List.lookup_eq_some_iff.1 h
  refine readReg_of_mem_registerTable ?_
  rw [htable]
  exact List.mem_append_right before List.mem_cons_self

theorem regOfNumber_of_unassigned {k : Nat} (h : 21 ≤ k) : regOfNumber k = none := by
  obtain ⟨m, rfl⟩ := Nat.exists_eq_add_of_le' h
  rfl

/-- Settles O15: the statement's list is `State.registerTable`, entry by entry. -/
theorem rdregAnswersByNumber : Obligations.RdregAnswersByNumber := by
  refine fun r s d => ⟨fun hd => ?_, fun hr => ?_⟩
  · have hread := readReg_of_lookup_registerTable (s := s) hd
    rw [exec_rdreg, hread]
    rfl
  · rw [exec_rdreg, regOfNumber_of_unassigned hr]
    rfl

/-! ### `RDTXT`, `RDFSYM`, `RDFCNT`, `RDHEAP` and `RDOUT` (R214, R215, R216, R218, R199) -/

/-- A read-class command that looks element `k` of a memory up answers its data below the valid count, and `NONE` at or
above it. -/
theorem exec_of_elementRead {α : Type} {i : Instr} {mem : List α} {k : Nat} {data : α → Word}
    (hi : readClass i = true) (hb : bodyOf i s = .ok (s, okOrNone (mem[k]?.map data))) :
    (∀ x, mem[k]? = some x → exec i s = .next (s.respond (okData (data x)))) ∧
      (mem.length ≤ k → exec i s = .next (s.respond noneData)) := by
  rw [exec_of_readClass hi hb]
  refine ⟨fun x hx => ?_, fun hk => ?_⟩
  · rw [hx]
    rfl
  · rw [List.getElem?_eq_none hk]
    rfl

/-- Settles O17: each of the five commands reads one element of one memory. -/
theorem elementReadsAnswer : Obligations.ElementReadsAnswer := by
  intro i s
  obtain ⟨htxt, htxtEnd⟩ := exec_of_elementRead (s := s) (i := .rdtxt i) rfl rfl
  obtain ⟨hsym, hsymEnd⟩ := exec_of_elementRead (s := s) (i := .rdfsym i) rfl rfl
  obtain ⟨hcnt, hcntEnd⟩ := exec_of_elementRead (s := s) (i := .rdfcnt i) rfl rfl
  obtain ⟨hheap, hheapEnd⟩ := exec_of_elementRead (s := s) (i := .rdheap i) rfl rfl
  obtain ⟨hout, houtEnd⟩ := exec_of_elementRead (s := s) (i := .rdout i) rfl rfl
  exact ⟨htxt, htxtEnd, hsym, hsymEnd, hcnt, hcntEnd, hheap, hheapEnd, hout, houtEnd⟩

/-! ### `RDNODE` (R217) -/

theorem exec_rdnode (n : BitVec 16) (f : BitVec 3) (s : State) :
    exec (.rdnode n f) s = .next (s.respond (okOrNone (s.nodeField n.toNat f.toNat))) :=
  exec_of_readClass rfl rfl

/-- The fields of a leaf under their selectors: `KIND`, `SYM` and `WEIGHT`. -/
def LeafNode.field (r : LeafNode) : Nat → Option Word
  | 0 => some 0#32
  | 1 => some (symData r.sym)
  | 2 => some r.weight
  | _ => none

/-- The fields of an internal node under their selectors: `KIND`, `WEIGHT`, `LEFT`, and `RIGHT` where it is not
`NIL`. -/
def InnerNode.field (r : InnerNode) : Nat → Option Word
  | 0 => some 1#32
  | 2 => some r.weight
  | 3 => some (natData r.left)
  | 4 => r.right.map natData
  | _ => none

section
variable {n f : Nat}

theorem nodeField_of_unallocated (h : s.allocated n = false) : s.nodeField n f = none :=
  if_neg (Bool.eq_false_iff.1 h)

theorem nodeField_of_unassigned (h : 4 < f) : s.nodeField n f = none := by
  obtain ⟨g, rfl⟩ := Nat.exists_eq_add_of_le' h
  exact ite_self none

theorem allocated_of_leafAt {r : LeafNode} (h : s.leafAt n = some r) : s.allocated n = true :=
  allocated_iff.2 (.inl (List.getElem?_eq_some_iff.1 (leafAt_eq_some.1 h).2).1)

theorem allocated_of_innerAt {r : InnerNode} (h : s.innerAt n = some r) : s.allocated n = true := by
  obtain ⟨hn, hget⟩ := innerAt_eq_some.1 h
  obtain ⟨hlt, -⟩ := List.getElem?_eq_some_iff.1 hget
  exact allocated_iff.2 (.inr ⟨hn, (Nat.sub_lt_iff_lt_add' hn).1 hlt⟩)

theorem nodeField_leaf {r : LeafNode} (h : s.leafAt n = some r) : s.nodeField n f = r.field f := by
  have hleaf : s.isLeaf n = true := isLeaf_eq_true.2 (leafAt_eq_some.1 h).1
  have hinner : s.innerAt n = none := if_pos hleaf
  have hweight : s.weightAt n = some r.weight := by rw [State.weightAt, if_pos hleaf, h]; rfl
  unfold State.nodeField
  rw [if_pos (allocated_of_leafAt h), hleaf, h, hweight, hinner]
  match f with
  | 0 | 1 | 2 | 3 | 4 | _ + 5 => rfl

theorem nodeField_inner {r : InnerNode} (h : s.innerAt n = some r) : s.nodeField n f = r.field f := by
  have hinner : s.isLeaf n = false := isLeaf_eq_false.2 (innerAt_eq_some.1 h).1
  have hleaf : s.leafAt n = none := if_neg (Bool.eq_false_iff.1 hinner)
  have hweight : s.weightAt n = some r.weight := by
    rw [State.weightAt, if_neg (Bool.eq_false_iff.1 hinner), h]; rfl
  unfold State.nodeField
  rw [if_pos (allocated_of_innerAt h), hinner, h, hweight, hleaf]
  match f with
  | 0 | 1 | 2 | 3 | 4 | _ + 5 => rfl

end

theorem exec_rdnode_leaf {n : BitVec 16} {r : LeafNode} (h : s.leafAt n.toNat = some r) (f : BitVec 3) :
    exec (.rdnode n f) s = .next (s.respond (okOrNone (r.field f.toNat))) := by
  rw [exec_rdnode, nodeField_leaf h]

theorem exec_rdnode_inner {n : BitVec 16} {r : InnerNode} (h : s.innerAt n.toNat = some r) (f : BitVec 3) :
    exec (.rdnode n f) s = .next (s.respond (okOrNone (r.field f.toNat))) := by
  rw [exec_rdnode, nodeField_inner h]

theorem exec_rdnode_right {n : BitVec 16} {r : InnerNode} (h : s.innerAt n.toNat = some r) :
    exec (.rdnode n 4#3) s = .next (s.respond (okOrNone (r.right.map natData))) :=
  exec_rdnode_inner h 4#3

/-- Settles O18: the fields of an allocated node are those of its record, `LeafNode.field` or `InnerNode.field`. -/
theorem rdnodeAnswersFields : Obligations.RdnodeAnswersFields := by
  refine fun n f s => ⟨fun hn => ?_, fun hf => ?_, fun r hr => ?_, fun r hr => ?_⟩
  · rw [exec_rdnode, nodeField_of_unallocated hn]
    rfl
  · rw [exec_rdnode, nodeField_of_unassigned hf]
    rfl
  · have hfield := exec_rdnode_leaf hr
    exact ⟨hfield 0#3, hfield 1#3, hfield 2#3, hfield 3#3, hfield 4#3⟩
  · have hfield := exec_rdnode_inner hr
    refine ⟨hfield 0#3, hfield 1#3, hfield 2#3, hfield 3#3, fun c hc => ?_, fun hc => ?_⟩
    · rw [exec_rdnode_right hr, hc]
      rfl
    · rw [exec_rdnode_right hr, hc]
      rfl

end Sys2Proof.Machine
end

section
/-! Faults and phases: what becomes of an illegal word and of a command to a faulted machine, what fault entry changes,
and which commands raise `F_SEQ` (60_exceptions.md R242, R244, R246 to R250; 70_reset_and_hazards.md R276). -/

namespace Sys2Proof.Machine

variable {s t : State} {i : Instr}

/-! ### Refusal (R87, R248) -/

theorem faulted_of_fault {f : FaultCode} (hf : s.fault = some f) : s.faulted = true := by
  rw [State.faulted, hf]
  rfl

theorem refuse_of_fault {f : FaultCode} (hf : s.fault = some f) :
    s.refuse = s.respond { status := .refused, data := natData f.toNat } := by
  rw [State.refuse, hf]
  rfl

theorem takeIllegal_of_fault_none (hf : s.fault = none) (w : Word) : s.takeIllegal w = s.raiseFault w .illcmd :=
  if_neg (Bool.eq_false_iff.1 (faulted_eq_false.2 hf))

theorem takeIllegal_of_fault {f : FaultCode} (hf : s.fault = some f) (w : Word) :
    s.takeIllegal w = s.respond { status := .refused, data := natData f.toNat } :=
  (if_pos (faulted_of_fault hf)).trans (refuse_of_fault hf)

theorem step_of_decode_error {w : Word} {rest : List HostAction} {e : Illegal} (hin : s.input = .command w :: rest)
    (hd : decode s.params.symW w = .error e) : step s = .next ({ s with input := rest }.takeIllegal w) := by
  rw [step_of_command hin, hd]

theorem runsWhenFaulted_eq_false (hr : readClass i = false) (hn : i ≠ .nop) (hc : i ≠ .clr) :
    runsWhenFaulted i = false := by
  simp [runsWhenFaulted, hr, hn, hc]

/-- Settles O7: an illegal word is taken by `State.takeIllegal`. -/
theorem illegalWordFaultsOrIsRefused : Obligations.IllegalWordFaultsOrIsRefused := by
  intro s w rest e hin hd
  rw [step_of_decode_error hin hd]
  exact ⟨fun hf => congrArg Host.Outcome.next (takeIllegal_of_fault_none (s := { s with input := rest }) hf w),
    fun f hf => congrArg Host.Outcome.next (takeIllegal_of_fault (s := { s with input := rest }) hf w)⟩

/-- Settles O11: the rule of such a command is not consulted. -/
theorem faultedCoreRefuses : Obligations.FaultedCoreRefuses := by
  intro i s f hf hr hn hc
  rw [exec_eq_runCommand, runCommand_refused _ (faulted_of_fault hf) (runsWhenFaulted_eq_false hr hn hc),
    refuse_of_fault hf]
  rfl

/-! ### Fault entry (R246, R247) -/

/-- A command to a machine that is not faulted runs its rule and leaves it unfaulted, or enters the fault of its
rule. -/
theorem exec_next_of_fault_none (hf : s.fault = none) (h : exec i s = .next t) :
    (t.fault = none ∧ ∃ u r, bodyOf i s = .ok (u, r) ∧ t = u.respond r) ∨
      ∃ f, bodyOf i s = .error (.raise f) ∧ t = s.raiseFault (encode i) f := by
  rcases exec_next h with ⟨hne, -, -⟩ | ⟨-, u, r, hb, rfl⟩ | ⟨-, f, hb, rfl⟩
  · exact absurd hf hne
  · refine .inl ⟨?_, u, r, hb, rfl⟩
    rcases bodyOf_fault hb with ⟨hu, -⟩ | hu
    · exact hu
    · exact hu.trans hf
  · exact .inr ⟨f, hb, rfl⟩

/-- Settles O10: a faulted state after a command is that of fault entry. -/
theorem faultEntryIsPrecise : Obligations.FaultEntryIsPrecise := by
  intro i s t f hf h ht
  rcases exec_next_of_fault_none hf h with ⟨hnone, -⟩ | ⟨g, -, rfl⟩
  · rw [hnone] at ht
    cases ht
  · obtain rfl : g = f := Option.some.inj ht
    rfl

/-! ### The first fault (R248, R250) -/

/-- Only `CLR` writes `FAULT` or `FINFO` of a faulted machine. -/
theorem exec_keeps_fault (hf : s.fault ≠ none) (hi : i ≠ .clr) (h : exec i s = .next t) :
    t.fault = s.fault ∧ t.finfo = s.finfo := by
  rcases exec_next h with ⟨-, -, rfl⟩ | ⟨-, u, r, hb, rfl⟩ | ⟨hnone, -⟩
  · exact ⟨rfl, rfl⟩
  · obtain ⟨he, -, -⟩ := bodyOf_frame hb
    exact ⟨(written_fault he).trans (if_neg hi), (written_finfo he).trans (if_neg hi)⟩
  · exact absurd hnone hf

/-- Settles O12: an illegal word is refused, and of the commands only `CLR` leaves the fault. -/
theorem firstFaultIsKept : Obligations.FirstFaultIsKept := by
  intro s t f hf hs
  rcases step_next hs with ⟨-, rfl⟩ | ⟨rest, hin, rfl⟩ | ⟨w, rest, hin, ⟨e, -, rfl⟩ | ⟨i, hd, hx⟩⟩
  · exact .inl ⟨hf, rfl⟩
  · exact .inr ⟨rfl, rfl, rest, .inl hin⟩
  · have hft : State.fault { s with input := rest } = some f := hf
    rw [takeIllegal_of_fault hft]
    exact .inl ⟨hf, rfl⟩
  · by_cases hi : i = .clr
    · subst hi
      rw [exec_clr] at hx
      obtain rfl := Host.Outcome.next.inj hx
      exact .inr ⟨rfl, rfl, rest, .inr (input_of_decode_clr hin hd)⟩
    · have hne : State.fault { s with input := rest } ≠ none := by simp [hf]
      obtain ⟨hfault, hfinfo⟩ := exec_keeps_fault hne hi hx
      exact .inl ⟨hfault.trans hf, hfinfo⟩

/-! ### Where a rule raises `F_SEQ` (R244) -/

section
variable {α β : Type}

theorem ok_ne_seq {a : α} : (.ok a : Except Stop α) ≠ .error (.raise .seq) := nofun

theorem require_ne_seq {c : Bool} {f : FaultCode} (hf : f ≠ .seq) : require c f ≠ .error (.raise .seq) :=
  fun h => hf (require_eq_raise.1 h).2

theorem bind_ne_seq {m : Except Stop α} {k : α → Except Stop β} (hm : m ≠ .error (.raise .seq))
    (hk : ∀ a, k a ≠ .error (.raise .seq)) : (m >>= k) ≠ .error (.raise .seq) := fun h => by
  rcases bind_eq_error.1 h with h | ⟨a, -, h⟩
  · exact hm h
  · exact hk a h

/-- A rule that opens with the check of the phase, and raises no `F_SEQ` after it, raises it exactly when that check
fails. -/
theorem require_bind_eq_seq {c : Bool} {k : Unit → Except Stop α} (hk : k () ≠ .error (.raise .seq)) :
    (require c .seq >>= k) = .error (.raise .seq) ↔ c = false := by
  cases c with
  | false => exact iff_of_true (require_bind_of_false rfl) rfl
  | true =>
    rw [require_bind_of_true rfl]
    exact iff_of_false hk nofun

end

theorem encsStep_ne_seq {x : Symbol} : encsStep x s ≠ .error (.raise .seq) := fun h => by
  rcases encsStep_cases x s with ⟨e, -⟩ | ⟨_, -, ⟨e, -⟩ | ⟨e, -⟩⟩ <;> rw [e] at h <;> cases h

theorem decbStep_ne_seq {b : Bool} : decbStep b s ≠ .error (.raise .seq) := fun h => by
  obtain ⟨_, _, _, -, -, -, ⟨hf, -⟩ | ⟨_, -, -, hf, -⟩⟩ := decbStep_raise h <;> cases hf

theorem symBody_eq_seq {x : Symbol} : symBody x s = .error (.raise .seq) ↔ (s.phase == .load) = false := by
  refine require_bind_eq_seq (bind_ne_seq (require_ne_seq nofun) fun _ => ?_)
  split
  · exact bind_ne_seq (require_ne_seq nofun) fun _ => ok_ne_seq
  · exact ok_ne_seq

theorem mkleafBody_eq_seq {x : Symbol} : mkleafBody x s = .error (.raise .seq) ↔ (s.phase == .load) = false :=
  require_bind_eq_seq <| bind_ne_seq (require_ne_seq nofun) fun _ =>
    bind_ne_seq (require_ne_seq nofun) fun _ => ok_ne_seq

theorem pqinsBody_eq_seq {n : Nat} : pqinsBody n s = .error (.raise .seq) ↔ (s.phase == .load) = false :=
  require_bind_eq_seq <| bind_ne_seq (require_ne_seq nofun) fun _ => bind_ne_seq pqInsert_ne_seq fun _ => ok_ne_seq

theorem pqextBody_eq_seq : pqextBody s = .error (.raise .seq) ↔ (s.phase == .load) = false := by
  refine require_bind_eq_seq ?_
  split
  · exact ok_ne_seq
  · exact bind_ne_seq pqExtract_ne_raise fun _ => ok_ne_seq

theorem mergeBody_eq_seq : mergeBody s = .error (.raise .seq) ↔ (s.phase == .load) = false :=
  require_bind_eq_seq <| bind_ne_seq (require_ne_seq nofun) fun _ => bind_ne_seq mergeStep_ne_seq fun _ => ok_ne_seq

theorem finishBody_eq_seq : finishBody s = .error (.raise .seq) ↔ (s.phase == .load) = false := by
  refine require_bind_eq_seq (bind_ne_seq (require_ne_seq nofun) fun _ => bind_ne_seq pqExtract_ne_raise fun _ => ?_)
  dsimp only
  split
  · exact bind_ne_seq wrap_ne_seq fun _ => ok_ne_seq
  · exact ok_ne_seq

theorem buildBody_eq_seq : buildBody s = .error (.raise .seq) ↔
    (s.phase == .load && s.nleaf == 0 && s.nint == 0 && s.hsize == 0) = false := by
  refine require_bind_eq_seq (bind_ne_seq (insertLeaves_ne_seq s.ft) fun u => ?_)
  split
  · exact ok_ne_seq
  · split
    · exact bind_ne_seq pqExtract_ne_raise fun _ => bind_ne_seq wrap_ne_seq fun _ => ok_ne_seq
    · exact bind_ne_seq (mergeAll_ne_seq u.hsize) fun _ => bind_ne_seq pqExtract_ne_raise fun _ => ok_ne_seq

theorem genBody_eq_seq : genBody s = .error (.raise .seq) ↔ (s.phase == .tree) = false := by
  refine require_bind_eq_seq ?_
  split
  · exact ok_ne_seq
  · exact bind_ne_seq (walk_ne_raise s _ _ _ _ _) fun _ => ok_ne_seq

theorem encinitBody_eq_seq : encinitBody s = .error (.raise .seq) ↔ (s.phase == .code) = false :=
  require_bind_eq_seq ok_ne_seq

theorem encsBody_eq_seq {x : Symbol} : encsBody x s = .error (.raise .seq) ↔ (s.phase == .code) = false :=
  require_bind_eq_seq <| bind_ne_seq encsStep_ne_seq fun _ => ok_ne_seq

theorem encBody_eq_seq : encBody s = .error (.raise .seq) ↔ (s.phase == .code) = false :=
  require_bind_eq_seq <| bind_ne_seq (encodeText_ne_seq s.txt) fun _ => ok_ne_seq

theorem decoderPhase_eq_bne : s.decoderPhase = (s.phase != .load) := by
  rw [Bool.eq_iff_iff, decoderPhase_iff, bne_iff_ne]

theorem decinitBody_eq_seq : decinitBody s = .error (.raise .seq) ↔ (s.phase != .load) = false :=
  decoderPhase_eq_bne (s := s) ▸ require_bind_eq_seq ok_ne_seq

theorem decbBody_eq_seq {b : Bool} : decbBody b s = .error (.raise .seq) ↔ (s.phase != .load) = false :=
  decoderPhase_eq_bne (s := s) ▸ require_bind_eq_seq decbStep_ne_seq

theorem decBody_eq_seq : decBody s = .error (.raise .seq) ↔ (s.phase != .load) = false :=
  decoderPhase_eq_bne (s := s) ▸ require_bind_eq_seq (bind_ne_seq (decodeBits_ne_seq s.bits) fun _ => ok_ne_seq)

/-! ### The phase table (R276) -/

/-- `BUILD` has nodes or queue entries in its way. -/
def State.inUse (s : State) : Prop := s.leaves ≠ [] ∨ s.inners ≠ [] ∨ s.heap ≠ []

/-- Every command but `BUILD` raises `F_SEQ` exactly outside its phases. -/
theorem bodyOf_eq_seq_of_ne_build (hi : i ≠ .build) :
    bodyOf i s = .error (.raise .seq) ↔ legalIn i s.phase = false := by
  cases i with
  | build => exact absurd rfl hi
  | sym => exact symBody_eq_seq
  | mkleaf => exact mkleafBody_eq_seq
  | pqins => exact pqinsBody_eq_seq
  | pqext => exact pqextBody_eq_seq
  | merge => exact mergeBody_eq_seq
  | finish => exact finishBody_eq_seq
  | gen => exact genBody_eq_seq
  | encinit => exact encinitBody_eq_seq
  | encs => exact encsBody_eq_seq
  | enc => exact encBody_eq_seq
  | decinit => exact decinitBody_eq_seq
  | decb => exact decbBody_eq_seq
  | dec => exact decBody_eq_seq
  | nop | clr | setw | rdreg | pqsize | lookup | rdclen | rdcode | rdbits | rdout | rdtxt | rdfsym | rdfcnt | rdnode |
      rdheap => exact iff_of_false ok_ne_seq nofun

/-- The check of `BUILD` is that of the phase table, and that the state is not in use. -/
theorem buildBody_eq_seq_iff :
    buildBody s = .error (.raise .seq) ↔ legalIn .build s.phase = false ∨ s.inUse := by
  rw [buildBody_eq_seq]
  simp only [legalIn, State.inUse, State.nleaf, State.nint, State.hsize, Bool.and_eq_false_iff, beq_eq_false_iff_ne,
    ne_eq, List.length_eq_zero_iff, or_assoc]

theorem bodyOf_eq_seq_iff :
    bodyOf i s = .error (.raise .seq) ↔ legalIn i s.phase = false ∨ (i = .build ∧ s.inUse) := by
  by_cases hi : i = .build
  · subst hi
    exact buildBody_eq_seq_iff.trans (by simp)
  · simpa [hi] using bodyOf_eq_seq_of_ne_build hi

/-- Settles O13: a rule raises `F_SEQ` by its first check and nowhere else, and one that completes writes the phase of
the table. -/
theorem phaseTableIsEnforced : Obligations.PhaseTableIsEnforced := by
  refine fun i s hf => ⟨fun hout => exec_of_body_raise hf (bodyOf_eq_seq_iff.2 hout), fun t h => ?_⟩
  rcases exec_next_of_fault_none hf h with ⟨hnone, u, r, hb, rfl⟩ | ⟨f, hb, rfl⟩
  · refine ⟨fun hseq => ?_, fun _ => (written_phase (bodyOf_frame hb).1 :)⟩
    rw [hnone] at hseq
    cases hseq
  · refine ⟨fun hseq => ?_, nofun⟩
    obtain rfl : f = .seq := Option.some.inj hseq
    exact bodyOf_eq_seq_iff.1 hb

end Sys2Proof.Machine
end

section
/-! `NOP`, reset and silence, and runs from reset (47_system.md R230; 10_state.md R25, R47; 70_reset_and_hazards.md
R270, R271, R280). -/

namespace Sys2Proof.Machine

variable {s t : State}

/-- Settles O19: `NOP` runs when faulted too. -/
theorem nopDoesNothing : Obligations.NopDoesNothing := by
  intro s
  rw [exec_eq_runCommand]
  exact runCommand_ok (.inr rfl)

/-- Settles O8, the two cases of a step that takes no command word. -/
theorem resetActionAndSilence : Obligations.ResetActionAndSilence :=
  ⟨fun _ _ hin => step_of_reset hin, fun _ hin => step_of_silence hin⟩

/-- Settles O21: every count is the length of an empty list, and no code has been written. -/
theorem resetLeavesTheZeroState : Obligations.ResetLeavesTheZeroState := fun p =>
  ⟨State.resetOf p, rfl, rfl, rfl, rfl, rfl, rfl, rfl, rfl, rfl, rfl, rfl, rfl, rfl, rfl, rfl, List.length_replicate,
    codeAt_resetOf p, rfl, status_resetOf p⟩

/-- The structural invariants hold along every run: steps keep them, and they do not read the command port. -/
theorem Structural.reach (h : Structural s) (hr : Reach s t) : Structural t := by
  induction hr with
  | refl => exact h
  | step _ hs ih => exact ih.step hs
  | host a _ ih => exact ih.of_sameCore rfl

/-- Settles O56: a step completes wherever the structural invariants hold. -/
theorem noRunFromResetStops : Obligations.NoRunFromResetStops :=
  fun _ _ hp hr => step_completes ((structural_resetOf hp).reach hr)

end Sys2Proof.Machine
end
